-- ==== Sys2Proof/Word.lean ====
section
/-! DEFINITION. The words of the block: 32-bit words on the ports (R70), and the bytes of a byte link (R79). -/

namespace Sys2Proof

/-- The unit of transfer on every stream (R70, R80), and a binary32 bit pattern (R13, R79). -/
abbrev Word := BitVec 32

/-- A byte of a link that carries words as bytes (R79). -/
abbrev Byte := BitVec 8

end Sys2Proof
end

