-- ==== Sys2Proof/Syntax.lean ====
section
/-! DEFINITION. The commands of the block: one constructor of `Instr` per row of spec/opcode_table.json (R92).
A command carries the port it arrived on and its reserved bits, so that the forms the decoder rejects
(R98, R100, R102) are commands with a meaning, the rejection, and decoding loses nothing. -/

namespace Sys2Proof

/-- The two ports (R70). -/
inductive Port where
  | control
  | stream
  deriving DecidableEq, Repr, Inhabited

/-- The two channels: 0 = left, 1 = right (R9). -/
inductive Channel where
  | left
  | right
  deriving DecidableEq, Repr

/-- The TYPE field: 0 = HighPass, 1 = LowPass (R40, R91). -/
inductive FilterType where
  | highPass
  | lowPass
  deriving DecidableEq, Repr

/-- The FAMILY field: 0 = Butterworth, 1 = LinkwitzRiley (R40, R91). -/
inductive Family where
  | butterworth
  | linkwitzRiley
  deriving DecidableEq, Repr

/-- One frame: a left and a right sample at the same time index (R17, R99). -/
structure Frame where
  left  : Word
  right : Word
  deriving DecidableEq, Repr

/-- A command as it arrives on `port` (R92). `rsv` holds the header's reserved bits (R91);
a reserved opcode has no format, and `low` holds its bits 27:0 (R100). -/
inductive Instr where
  /-- OPC 0x1, F_PREP, payload FS (R93). -/
  | prepare (port : Port) (rsv : BitVec 12) (maxblk : BitVec 16) (fs : Word)
  /-- OPC 0x2, F_BLK, payload the input frames; N is their number (R94, R99). -/
  | processBlock (port : Port) (rsv : BitVec 12) (frames : List Frame)
  /-- OPC 0x3, F_NONE (R225). -/
  | release (port : Port) (rsv : BitVec 28)
  /-- OPC 0x4, F_STG (R101). -/
  | readStage (port : Port) (rsv : BitVec 25) (ch : Channel) (idx : Fin 4)
  /-- OPC 0x5, F_NONE (R255). -/
  | readStatus (port : Port) (rsv : BitVec 28)
  /-- OPC 0x8, F_SET, payload CUTOFF (R95). -/
  | setSettings (port : Port) (rsv : BitVec 22) (family : Family) (type : FilterType) (slope : BitVec 4)
      (cutoff : Word)
  /-- OPC 0x9, F_NONE (R245). -/
  | getSettings (port : Port) (rsv : BitVec 28)
  /-- OPC 0x0 (R100). -/
  | reserved0 (port : Port) (low : BitVec 28)
  /-- OPC 0x6 (R100). -/
  | reserved6 (port : Port) (low : BitVec 28)
  /-- OPC 0x7 (R100). -/
  | reserved7 (port : Port) (low : BitVec 28)
  /-- OPC 0xA (R100). -/
  | reservedA (port : Port) (low : BitVec 28)
  /-- OPC 0xB (R100). -/
  | reservedB (port : Port) (low : BitVec 28)
  /-- OPC 0xC (R100). -/
  | reservedC (port : Port) (low : BitVec 28)
  /-- OPC 0xD (R100). -/
  | reservedD (port : Port) (low : BitVec 28)
  /-- OPC 0xE (R100). -/
  | reservedE (port : Port) (low : BitVec 28)
  /-- OPC 0xF (R100). -/
  | reservedF (port : Port) (low : BitVec 28)
  deriving DecidableEq, Repr

/-- The port the command arrived on. -/
def Instr.port : Instr → Port
  | .prepare p _ _ _ => p
  | .processBlock p _ _ => p
  | .release p _ => p
  | .readStage p _ _ _ => p
  | .readStatus p _ => p
  | .setSettings p _ _ _ _ _ => p
  | .getSettings p _ => p
  | .reserved0 p _ => p
  | .reserved6 p _ => p
  | .reserved7 p _ => p
  | .reservedA p _ => p
  | .reservedB p _ => p
  | .reservedC p _ => p
  | .reservedD p _ => p
  | .reservedE p _ => p
  | .reservedF p _ => p

end Sys2Proof
end

