-- ==== Sys2Proof/WellFormed.lean ====
section
/-! DEFINITION. Which terms of `Instr` are commands a port can carry, and which of those the decoder accepts.
The two are kept apart: `WellFormed` is what the words of a command can say at all (R113), and
`Legal` is what is left when the decoder checks of R271 find nothing. -/

namespace Sys2Proof

/-- The number of frames a command carries: N for PROCESS_BLOCK (R94), none for every other. -/
def Instr.frameCount : Instr → Nat
  | .processBlock _ _ frames => frames.length
  | .prepare _ _ _ _ => 0
  | .release _ _ => 0
  | .readStage _ _ _ _ => 0
  | .readStatus _ _ => 0
  | .setSettings _ _ _ _ _ _ => 0
  | .getSettings _ _ => 0
  | .reserved0 _ _ => 0
  | .reserved6 _ _ => 0
  | .reserved7 _ _ => 0
  | .reservedA _ _ => 0
  | .reservedB _ _ => 0
  | .reservedC _ _ => 0
  | .reservedD _ _ => 0
  | .reservedE _ _ => 0
  | .reservedF _ _ => 0

/-- The command fits its encoding. Every field is as wide as its format gives it, so the one check is
that PROCESS_BLOCK's frame count fits the 16-bit field N (R94, R113). -/
abbrev Instr.WellFormed (i : Instr) : Prop := i.frameCount ≤ 65535

/-- The port whose agent may issue the command (R70, R92); a reserved opcode has none. -/
def Instr.homePort : Instr → Option Port
  | .prepare _ _ _ _ => some .stream
  | .processBlock _ _ _ => some .stream
  | .release _ _ => some .stream
  | .readStage _ _ _ _ => some .stream
  | .readStatus _ _ => some .stream
  | .setSettings _ _ _ _ _ _ => some .control
  | .getSettings _ _ => some .control
  | .reserved0 _ _ => none
  | .reserved6 _ _ => none
  | .reserved7 _ _ => none
  | .reservedA _ _ => none
  | .reservedB _ _ => none
  | .reservedC _ _ => none
  | .reservedD _ _ => none
  | .reservedE _ _ => none
  | .reservedF _ _ => none

/-- Every reserved header bit of the command is 0 (R91, R98); a reserved opcode has no format and so no
reserved bits to set. -/
def Instr.reservedClear : Instr → Bool
  | .prepare _ r _ _ => r == 0
  | .processBlock _ r _ => r == 0
  | .release _ r => r == 0
  | .readStage _ r _ _ => r == 0
  | .readStatus _ r => r == 0
  | .setSettings _ r _ _ _ _ => r == 0
  | .getSettings _ r => r == 0
  | .reserved0 _ _ => true
  | .reserved6 _ _ => true
  | .reserved7 _ _ => true
  | .reservedA _ _ => true
  | .reservedB _ _ => true
  | .reservedC _ _ => true
  | .reservedD _ _ => true
  | .reservedE _ _ => true
  | .reservedF _ _ => true

/-- None of the three conditions of R271 holds: the opcode is not reserved, the command arrived on its own
port, and no reserved header bit is set. -/
abbrev Instr.Legal (i : Instr) : Prop :=
  i.homePort = some i.port ∧ i.reservedClear = true

end Sys2Proof
end

