-- ==== Sys2Proof/Decode.lean ====
section
/-! DEFINITION. The decoder and the encoder of commands (30_encoding.md), and the byte order of a byte link
(R79, R80). The decoder is total: it reads a command from any words, or says by name why it cannot yet. -/

namespace Sys2Proof

/-! ## Byte links -/

/-- The bytes of a word, least significant first (R79). -/
def bytesOfWord (w : Word) : List Byte :=
  [w.extractLsb' 0 8, w.extractLsb' 8 8, w.extractLsb' 16 8, w.extractLsb' 24 8]

/-- The whole words a byte link has carried, and the bytes of a partial word that are left over: they are no
command and are never consumed (R80). -/
def wordsOfBytes : List Byte → List Word × List Byte
  | b0 :: b1 :: b2 :: b3 :: rest =>
    let r := wordsOfBytes rest
    ((b3 ++ b2 ++ b1 ++ b0) :: r.1, r.2)
  | partialWord => ([], partialWord)

/-! ## Header fields -/

/-- `OPC = H[31:28]` (R90). -/
def opcodeOf (h : Word) : Nat := (h.extractLsb' 28 4).toNat

/-- The 16-bit count at the bottom of the header: MAXBLK of F_PREP, N of F_BLK (R91). -/
def countField (h : Word) : BitVec 16 := h.extractLsb' 0 16

/-- `H[27:0]` (R90). -/
def lowField (h : Word) : BitVec 28 := h.extractLsb' 0 28

def Channel.bit : Channel → BitVec 1
  | .left => 0
  | .right => 1

def Channel.ofBit (b : BitVec 1) : Channel := if b = 0 then .left else .right

def FilterType.bit : FilterType → BitVec 1
  | .highPass => 0
  | .lowPass => 1

def FilterType.ofBit (b : BitVec 1) : FilterType := if b = 0 then .highPass else .lowPass

def Family.bit : Family → BitVec 1
  | .butterworth => 0
  | .linkwitzRiley => 1

def Family.ofBit (b : BitVec 1) : Family := if b = 0 then .butterworth else .linkwitzRiley

/-- How many payload words follow the header. The header alone fixes it, whatever the port and the
reserved bits (R96). -/
def payloadLength (h : Word) : Nat :=
  match opcodeOf h with
  | 1 => 1
  | 2 => 2 * (countField h).toNat
  | 8 => 1
  | _ => 0

/-- How many words the command consumes (R96). -/
def commandLength (h : Word) : Nat := 1 + payloadLength h

/-! ## The decoder -/

/-- Why no command can be read from a port's words: a command that is not all there waits (R313). -/
inductive DecodeError where
  /-- The stream is at a header position with no word left (R312). -/
  | noHeader
  /-- The header announces `need` words and fewer are there (R313). -/
  | incomplete (need : Nat)
  deriving DecidableEq, Repr

/-- `n` frames from the payload, left sample first (R99). -/
def takeFrames : Nat → List Word → Option (List Frame × List Word)
  | 0, ws => some ([], ws)
  | n + 1, l :: r :: ws => (takeFrames n ws).map fun q => (⟨l, r⟩ :: q.1, q.2)
  | _ + 1, _ => none

/-- The command with header `h`, and the words after its payload; `none` when payload words are missing. -/
def decodeCommand (p : Port) (h : Word) (ws : List Word) : Option (Instr × List Word) :=
  match opcodeOf h with
  | 0 => some (.reserved0 p (lowField h), ws)
  | 1 => match ws with
    | fs :: rest => some (.prepare p (h.extractLsb' 16 12) (countField h) fs, rest)
    | [] => none
  | 2 => (takeFrames (countField h).toNat ws).map fun q =>
      (.processBlock p (h.extractLsb' 16 12) q.1, q.2)
  | 3 => some (.release p (lowField h), ws)
  | 4 => some (.readStage p (h.extractLsb' 3 25) (Channel.ofBit (h.extractLsb' 2 1)) (h.extractLsb' 0 2).toFin, ws)
  | 5 => some (.readStatus p (lowField h), ws)
  | 6 => some (.reserved6 p (lowField h), ws)
  | 7 => some (.reserved7 p (lowField h), ws)
  | 8 => match ws with
    | cutoff :: rest =>
      some (.setSettings p (h.extractLsb' 6 22) (Family.ofBit (h.extractLsb' 5 1))
        (FilterType.ofBit (h.extractLsb' 4 1)) (h.extractLsb' 0 4) cutoff, rest)
    | [] => none
  | 9 => some (.getSettings p (lowField h), ws)
  | 10 => some (.reservedA p (lowField h), ws)
  | 11 => some (.reservedB p (lowField h), ws)
  | 12 => some (.reservedC p (lowField h), ws)
  | 13 => some (.reservedD p (lowField h), ws)
  | 14 => some (.reservedE p (lowField h), ws)
  | _ => some (.reservedF p (lowField h), ws)

/-- The first command of the words waiting on port `p`, and the words after it (R90, R96, R110). -/
def decode (p : Port) (ws : List Word) : Except DecodeError (Instr × List Word) :=
  match ws with
  | [] => .error .noHeader
  | h :: rest =>
    match decodeCommand p h rest with
    | some r => .ok r
    | none => .error (.incomplete (commandLength h))

/-! ## The encoder -/

/-- The samples of a block in payload order (R99). -/
def frameWords : List Frame → List Word
  | [] => []
  | f :: rest => f.left :: f.right :: frameWords rest

/-- The OPC of a command's row (R92). -/
def Instr.opc : Instr → BitVec 4
  | .reserved0 _ _ => 0x0
  | .prepare _ _ _ _ => 0x1
  | .processBlock _ _ _ => 0x2
  | .release _ _ => 0x3
  | .readStage _ _ _ _ => 0x4
  | .readStatus _ _ => 0x5
  | .reserved6 _ _ => 0x6
  | .reserved7 _ _ => 0x7
  | .setSettings _ _ _ _ _ _ => 0x8
  | .getSettings _ _ => 0x9
  | .reservedA _ _ => 0xA
  | .reservedB _ _ => 0xB
  | .reservedC _ _ => 0xC
  | .reservedD _ _ => 0xD
  | .reservedE _ _ => 0xE
  | .reservedF _ _ => 0xF

/-- The header word of a command, written as R93 to R95, R100 and R101 write it. -/
def encodeHeader : Instr → Word
  | .reserved0 _ low => 0x0#4 ++ low
  | .prepare _ rsv maxblk _ => 0x1#4 ++ rsv ++ maxblk
  | .processBlock _ rsv frames => 0x2#4 ++ rsv ++ BitVec.ofNat 16 frames.length
  | .release _ rsv => 0x3#4 ++ rsv
  | .readStage _ rsv ch idx => 0x4#4 ++ rsv ++ ch.bit ++ BitVec.ofFin (w := 2) idx
  | .readStatus _ rsv => 0x5#4 ++ rsv
  | .reserved6 _ low => 0x6#4 ++ low
  | .reserved7 _ low => 0x7#4 ++ low
  | .setSettings _ rsv fam ty slope _ => 0x8#4 ++ rsv ++ fam.bit ++ ty.bit ++ slope
  | .getSettings _ rsv => 0x9#4 ++ rsv
  | .reservedA _ low => 0xA#4 ++ low
  | .reservedB _ low => 0xB#4 ++ low
  | .reservedC _ low => 0xC#4 ++ low
  | .reservedD _ low => 0xD#4 ++ low
  | .reservedE _ low => 0xE#4 ++ low
  | .reservedF _ low => 0xF#4 ++ low

/-- The payload words of a command (R92). -/
def encodePayload : Instr → List Word
  | .prepare _ _ _ fs => [fs]
  | .processBlock _ _ frames => frameWords frames
  | .setSettings _ _ _ _ _ cutoff => [cutoff]
  | .release _ _ => []
  | .readStage _ _ _ _ => []
  | .readStatus _ _ => []
  | .getSettings _ _ => []
  | .reserved0 _ _ => []
  | .reserved6 _ _ => []
  | .reserved7 _ _ => []
  | .reservedA _ _ => []
  | .reservedB _ _ => []
  | .reservedC _ _ => []
  | .reservedD _ _ => []
  | .reservedE _ _ => []
  | .reservedF _ _ => []

/-- The words of a command (R90, R92). -/
def encode (i : Instr) : List Word := encodeHeader i :: encodePayload i

/-! ## Words as the opcode table numbers them -/

/-- The port the opcode map gives a header (R92). A reserved opcode may come on either; the table's words are
then laid on the stream port. -/
def tablePort (h : Word) : Port :=
  match opcodeOf h with
  | 8 => .control
  | 9 => .control
  | _ => .stream

/-- The words of an instruction whose bits are `w`, the first word lowest, of which the table numbers `nbits`:
every bit above those is 0, up to the length its header announces. -/
def tableWords (nbits w : Nat) : List Word :=
  let v := w % 2 ^ nbits
  let h := BitVec.ofNat 32 v
  h :: (List.range (payloadLength h)).map fun j => BitVec.ofNat 32 (v >>> (32 * (j + 1)))

/-- The instruction the decoder reads from a word of the opcode table. -/
def decodeTableWord (nbits w : Nat) : Option Instr :=
  match decode (tablePort (BitVec.ofNat 32 (w % 2 ^ nbits))) (tableWords nbits w) with
  | .ok r => some r.1
  | .error _ => none

end Sys2Proof
end

