-- ==== Sys2Proof/Config.lean ====
section
/-! DEFINITION. What an implementation fixes, and the free values.
R10 asks a model to take the design function and the stage function as configuration fields: `Config`.
The reference instances of the two are in Machine/Designer.lean and Machine/StageStep.lean.
The opaque constants at the end have no body: nothing can be proved of their values. -/

namespace Sys2Proof

/-- A SecondOrderCoefficients record: six binary32 values (R34). -/
structure Coefs where
  b0 : Word
  b1 : Word
  b2 : Word
  a0 : Word
  a1 : Word
  a2 : Word
  deriving DecidableEq, Repr

/-- What one stage step returns: the output and the two delay registers' new values (R190). -/
structure StageOut where
  y  : Word
  s1 : Word
  s2 : Word
  deriving DecidableEq, Repr

/-- The two numeric functions of the block (R10).
`designFn family type cutoff fs order` is the DesignFn of R120.
`stageFn coef s1 s2 x draw` is the StageFn of R190; `draw` numbers the step, and stands for the freedom
that R191 leaves each of its operations in the bits of a NaN. -/
structure Config where
  designFn : Family → FilterType → Word → Word → Nat → List Coefs
  stageFn  : Coefs → Word → Word → Word → Nat → StageOut

/-- The properties of DesignFn that a claim about counts and flags may use (93_implementation_defined.md
M2): ceil(order/2) sections (R123), each with a0 = 1.0 (R130). That it is pure (R120) is its being a function. -/
def Config.Lawful (cfg : Config) : Prop :=
  ∀ (fam : Family) (ty : FilterType) (cutoff fs : Word) (order : Nat), 1 ≤ order → order ≤ 8 →
    (cfg.designFn fam ty cutoff fs order).length = (order + 1) / 2 ∧
    ∀ c ∈ cfg.designFn fam ty cutoff fs order, c.a0 = 0x3F800000#32

/-- FREE VALUE (R191, 93_implementation_defined.md M1; notes/assumptions/1.md): sign and payload of the quiet
NaN that operation `op` of stage step number `step` writes when its result is a NaN. Bit 22 is the sign,
bits 21:0 the payload below the quiet bit. -/
opaque Config.freeNaN (step op : Nat) : BitVec 23

/-- FREE VALUE (R74, 93_implementation_defined.md M4; notes/assumptions/4.md): the port served when both ports
hold a complete command and `State.turns` names none. -/
opaque Config.spareTurn (draw : Nat) : Port

end Sys2Proof
end

