-- ==== Sys2Proof/Machine/State.lean ====
section
/-! DEFINITION. Everything the spec gives the block, as plain data (10_state.md R32), the streams of its two
ports (R70), and the state after power-on reset (R300). The block has no memory (R71) and no program counter
(R33), so State holds neither. -/

namespace Sys2Proof.Machine

/-- The identity coefficients, H(z) = 1 (R35). -/
def identityCoefs : Coefs :=
  { b0 := 0x3F800000, b1 := 0, b2 := 0, a0 := 0x3F800000, a1 := 0, a2 := 0 }

/-- One stage slot of a chain: `coef[ch][i]` (R34), `bypass[ch][i]` (R36), `s1[ch][i]`, `s2[ch][i]` (R39). -/
structure Stage where
  coef   : Coefs
  bypass : Bool
  s1     : Word
  s2     : Word
  deriving DecidableEq, Repr

/-- A channel chain: exactly four stages, processed in the order 0 to 3 (R16, R30). -/
structure Chain where
  st0 : Stage
  st1 : Stage
  st2 : Stage
  st3 : Stage
  deriving DecidableEq, Repr

/-- The SETTINGS register (R40). Every bit pattern of CUTOFF and every SLOPE is stored. -/
structure Settings where
  cutoff : Word
  type   : FilterType
  family : Family
  slope  : BitVec 4
  deriving DecidableEq, Repr

/-- The LIFECYCLE register; its 2-bit code 3 is never held (R44). -/
inductive Lifecycle where
  | stopped
  | prepared
  | running
  deriving DecidableEq, Repr

/-- An update code: the LASTUPD register (R45) and the UPD field of a status word (R105). -/
inductive UpdateCode where
  | noUpdate
  | installed
  | rejectedInvalidParameter
  | rejectedNumericInstability
  deriving DecidableEq, Repr

/-- A result code: the RESULT field of a status word (R105). -/
inductive ResultCode where
  | okay
  | invalidParameter
  | hostProtocolError
  | illegalCommand
  deriving DecidableEq, Repr

/-- The state of the block. `left` and `right` are chains 0 and 1. `ctlIn`, `strIn` are the words the agents
have sent and the block has not consumed; `ctlOut`, `strOut` the response words it has sent, oldest first (R70).
`turns` and `fresh` are the MODEL's own: the order in which the ports' next commands are served
(R74, notes/assumptions/4.md), and the number of the next free value (notes/assumptions/3.md). -/
structure State where
  left      : Chain
  right     : Chain
  settings  : Settings
  fs        : Word
  maxblk    : BitVec 16
  lifecycle : Lifecycle
  lastupd   : UpdateCode
  ctlIn     : List Word
  strIn     : List Word
  ctlOut    : List Word
  strOut    : List Word
  turns     : List Port
  fresh     : Nat
  deriving DecidableEq, Repr

/-- A step that stops the machine: there is none. The block has no traps and no error state, and every error is
a rejection reported in a status word (R270, R277, R278), so no command and no step raises a fault. -/
inductive Fault where
  deriving DecidableEq, Repr

/-- A command without a meaning. -/
inductive Refusal where
  /-- Asked for by the host's interface for an arm of `exec` that is not written yet; no arm answers it.
  It would be safe: the machine stops where the hardware goes on. -/
  | notModelled (mnemonic : String)
  deriving DecidableEq, Repr

/-- A stage after reset: identity coefficients, bypassed, cleared (R300). -/
def Stage.reset : Stage := { coef := identityCoefs, bypass := true, s1 := 0, s2 := 0 }

/-- A chain after reset (R300). -/
def Chain.reset : Chain := { st0 := Stage.reset, st1 := Stage.reset, st2 := Stage.reset, st3 := Stage.reset }

/-- The settings after reset: 1000.0 Hz, HighPass, Butterworth, slope index 0 (R41). -/
def Settings.reset : Settings :=
  { cutoff := 0x447A0000, type := .highPass, family := .butterworth, slope := 0 }

/-- Power-on reset (R300). The last two fields are the model's own. -/
def State.reset : State :=
  { left := Chain.reset
    right := Chain.reset
    settings := Settings.reset
    fs := 0
    maxblk := 0
    lifecycle := .stopped
    lastupd := .noUpdate
    ctlIn := []
    strIn := []
    ctlOut := []
    strOut := []
    turns := []
    fresh := 0 }

end Sys2Proof.Machine
end

