-- ==== Sys2Proof/Machine/Flags.lean ====
section
/-! DEFINITION. The block has no condition codes and no arithmetic flags (R46). What it reports are words: the status
word of every command and the words of the readback commands (R104 to R109). -/

namespace Sys2Proof.Machine

/-- The RESULT field's code (R105). -/
def ResultCode.code : ResultCode → BitVec 2
  | .okay => 0
  | .invalidParameter => 1
  | .hostProtocolError => 2
  | .illegalCommand => 3

/-- The UPD field's and LASTUPD's code (R45, R105). -/
def UpdateCode.code : UpdateCode → BitVec 2
  | .noUpdate => 0
  | .installed => 1
  | .rejectedInvalidParameter => 2
  | .rejectedNumericInstability => 3

/-- The LIFECYCLE register's code (R44). -/
def Lifecycle.code : Lifecycle → BitVec 2
  | .stopped => 0
  | .prepared => 1
  | .running => 2

/-- The status word: OPC in 31:28, UPD in 5:4, RESULT in 1:0 (R104). -/
def statusWord (opc : BitVec 4) (upd : UpdateCode) (result : ResultCode) : Word :=
  opc ++ 0#22 ++ upd.code ++ 0#2 ++ result.code

/-- The STATE word: ACTIVE in 10:8, LASTUPD in 5:4, LIFECYCLE in 1:0 (R106). -/
def stateWord (active : Nat) (lastupd : UpdateCode) (lifecycle : Lifecycle) : Word :=
  0#21 ++ BitVec.ofNat 3 active ++ 0#2 ++ lastupd.code ++ 0#2 ++ lifecycle.code

/-- SETWORD: FAMILY in bit 5, TYPE in bit 4, SLOPE in 3:0 (R108). -/
def setWord (v : Settings) : Word := 0#26 ++ v.family.bit ++ v.type.bit ++ v.slope

/-- READ_STAGE's FLAGS word: the bypass flag in bit 0 (R107). -/
def flagsWord (bypass : Bool) : Word := 0#31 ++ BitVec.ofBool bypass

/-- `zext_32` of a 16-bit field (R12, R109). -/
def zext32 (v : BitVec 16) : Word := 0#16 ++ v

end Sys2Proof.Machine
end

