-- ==== Sys2Proof/Machine/Float32.lean ====
section
/-! DEFINITION. binary32 arithmetic (R13, R191), in exact integer arithmetic with one rounding at the end.
Every finite binary32 value is a whole number of units 2^-149; `scaled` is that number. -/

namespace Sys2Proof.Machine

/-- 1.0 (R35). -/
def f32One : Word := 0x3F800000

/-- The sign bit, bit 31 (R13). -/
def signBit (w : Word) : Bool := w.getLsbD 31

/-- Bits 30:0: exponent and fraction together. -/
def magnitude (w : Word) : Nat := (w.extractLsb' 0 31).toNat

/-- The bits 30:0 of an infinity; a larger magnitude is a NaN (R13). -/
def infMagnitude : Nat := 0x7F800000

def isFinite32 (w : Word) : Bool := magnitude w < infMagnitude

def isNaN32 (w : Word) : Bool := infMagnitude < magnitude w

def isInf32 (w : Word) : Bool := magnitude w == infMagnitude

/-- The value of a finite magnitude in units of 2^-149: biased exponent 0 is subnormal, and every other has the
leading 1 (R13). -/
def scaledMagnitude (m : Nat) : Nat :=
  if m / 2 ^ 23 = 0 then m else (2 ^ 23 + m % 2 ^ 23) * 2 ^ (m / 2 ^ 23 - 1)

/-- `real(w)` of a finite `w` (R13), in units of 2^-149. Both zeros give 0. -/
def scaled (w : Word) : Int :=
  if signBit w then -(scaledMagnitude (magnitude w) : Int) else scaledMagnitude (magnitude w)

/-- The word with a sign and bits 30:0. -/
def ofSignMagnitude (neg : Bool) (m : Nat) : Word :=
  BitVec.ofBool neg ++ BitVec.ofNat 31 m

/-- The binary32 magnitude nearest to `num / den` units of 2^-149, ties to even, infinity on overflow, subnormals
kept (R13). `t` is the exponent of the unit in the last place: 24 significant bits, or the unit itself below
2^24. A magnitude's bits are `t * 2^23` plus its significand. -/
def roundMagnitude (num den : Nat) : Nat :=
  let t := Nat.log2 (num / den) - 23
  let ulp := den * 2 ^ t
  let m := num / ulp
  let r := num % ulp
  let up := if ulp < 2 * r ∨ (2 * r = ulp ∧ m % 2 = 1) then 1 else 0
  min infMagnitude (t * 2 ^ 23 + m + up)

/-- A quiet NaN with the given sign and payload: exponent all ones and the quiet bit set. -/
def quietNaN (bits : BitVec 23) : Word :=
  bits.extractLsb' 22 1 ++ 0x1FF#9 ++ bits.extractLsb' 0 22

/-- `f32_add`, one rounding (R13, R191). `nan` is the free NaN the operation writes when its result is a NaN. -/
def f32Add (nan : BitVec 23) (a b : Word) : Word :=
  if isNaN32 a || isNaN32 b then quietNaN nan
  else if isInf32 a then
    if isInf32 b && (signBit a != signBit b) then quietNaN nan else a
  else if isInf32 b then b
  else
    let sum := scaled a + scaled b
    if sum = 0 then ofSignMagnitude (signBit a && signBit b) 0
    else ofSignMagnitude (sum < 0) (roundMagnitude sum.natAbs 1)

/-- The word with its sign bit flipped. -/
def f32Neg (w : Word) : Word := w ^^^ 0x80000000

/-- `f32_sub`: IEEE 754 subtraction is addition of the negated operand (R13). -/
def f32Sub (nan : BitVec 23) (a b : Word) : Word := f32Add nan a (f32Neg b)

/-- `f32_mul`, one rounding (R13, R191). A product of units 2^-149 is a number of units 2^-298. -/
def f32Mul (nan : BitVec 23) (a b : Word) : Word :=
  let neg := signBit a != signBit b
  if isNaN32 a || isNaN32 b then quietNaN nan
  else if isInf32 a || isInf32 b then
    if magnitude a = 0 ∨ magnitude b = 0 then quietNaN nan else ofSignMagnitude neg infMagnitude
  else ofSignMagnitude neg (roundMagnitude (scaledMagnitude (magnitude a) * scaledMagnitude (magnitude b)) (2 ^ 149))

end Sys2Proof.Machine
end

