-- ==== Sys2Proof/Machine/Operands.lean ====
section
/-! DEFINITION. The operands of the commands and the checks made on them: the decoder checks (R271), PREPARE's
operand check (R221), the slope-to-stage mapping (R160, R161) and the update's four checks (R162 to R165). -/

namespace Sys2Proof.Machine

/-- Conditions 2 and 3 of R275: a valid opcode that arrived on the other port (R102), or a reserved header bit set
(R98). -/
def decoderRejects (home port : Port) (reservedClear : Bool) : Bool := port != home || !reservedClear

/-- PREPARE's FS is finite and greater than 0 (R221). -/
def fsValid (f : Word) : Bool := isFinite32 f && decide (0 < scaled f)

/-- The slope indices an update accepts (R162). -/
def slopeValid (slope : BitVec 4) : Bool := decide (slope.toNat ≤ 7)

/-- The filter order of a slope index (R160). -/
def orderOf (slope : BitVec 4) : Nat := slope.toNat + 1

/-- ceil(order/2) (R13, R123, R160). -/
def sectionCount (order : Nat) : Nat := (order + 1) / 2

/-- The dB/octave label of a slope index (R161). -/
def slopeLabel (slope : BitVec 4) : Nat := 6 * (slope.toNat + 1)

/-- The cutoff check against FS, compared exactly (R163). -/
def cutoffValid (c fs : Word) : Bool :=
  isFinite32 c && decide (0 < scaled c) && decide (2 * scaled c < scaled fs)

/-- The validity of a design's inputs as the designer states it (R122). -/
def designValid (c fs : Word) (order : Nat) : Bool :=
  fsValid fs && cutoffValid c fs && decide (1 ≤ order)

/-- Every coefficient of a section is finite (R164). -/
def sectionFinite (c : Coefs) : Bool :=
  isFinite32 c.b0 && isFinite32 c.b1 && isFinite32 c.b2 && isFinite32 c.a0 && isFinite32 c.a1 && isFinite32 c.a2

/-- |a2| < 1 and |a1| < 1 + a2, exactly on the binary32 values; 1 is 2^149 units (R165). -/
def sectionStable (c : Coefs) : Bool :=
  decide ((scaled c.a2).natAbs < 2 ^ 149) && decide (((scaled c.a1).natAbs : Int) < 2 ^ 149 + scaled c.a2)

end Sys2Proof.Machine
end

