-- ==== Sys2Proof/Machine/Ops.lean ====
section
/-! DEFINITION. The named operations the commands share: sending words, rejecting a command (the block's only
response to an error, R270), the delay registers, install (R168), the update (R170), the chain (R192) and a block's
frames (R200). Those that use DesignFn or StageFn take them in a `Config` (R10). -/

namespace Sys2Proof.Machine

/-- What a command answers. -/
abbrev Answer := Host.Outcome State Fault Refusal

/-! ## Streams -/

/-- The words waiting on a port (R70). -/
def State.input (s : State) (p : Port) : List Word :=
  match p with
  | .control => s.ctlIn
  | .stream => s.strIn

/-- The words a port has answered (R70). -/
def State.output (s : State) (p : Port) : List Word :=
  match p with
  | .control => s.ctlOut
  | .stream => s.strOut

def State.setInput (s : State) (p : Port) (ws : List Word) : State :=
  match p with
  | .control => { s with ctlIn := ws }
  | .stream => { s with strIn := ws }

/-- The agent of port `p` sends words (R14, R70). The block never does this itself: it is the host's part. -/
def State.send (s : State) (p : Port) (ws : List Word) : State := s.setInput p (s.input p ++ ws)

/-- `SendWord` for each word in order: no response word is dropped or reordered (R14, R87). -/
def State.respond (s : State) (p : Port) (ws : List Word) : State :=
  match p with
  | .control => { s with ctlOut := s.ctlOut ++ ws }
  | .stream => { s with strOut := s.strOut ++ ws }

/-- `reject <Result>`: one status word with UPD = NONE, no payload, and every state element unchanged (R14, R270). -/
def reject (p : Port) (opc : BitVec 4) (r : ResultCode) (s : State) : Answer :=
  .next (s.respond p [statusWord opc .noUpdate r])

/-- An accepted command ends with its status word, then its payload (R103). -/
def accept (p : Port) (opc : BitVec 4) (u : UpdateCode) (payload : List Word) (s : State) : Answer :=
  .next (s.respond p (statusWord opc u .okay :: payload))

/-! ## Slots -/

def Chain.get (c : Chain) (i : Fin 4) : Stage :=
  match i with
  | 0 => c.st0
  | 1 => c.st1
  | 2 => c.st2
  | 3 => c.st3

def State.chain (s : State) (ch : Channel) : Chain :=
  match ch with
  | .left => s.left
  | .right => s.right

/-- The seven payload words of READ_STAGE (R107). -/
def Stage.words (st : Stage) : List Word :=
  [st.coef.b0, st.coef.b1, st.coef.b2, st.coef.a0, st.coef.a1, st.coef.a2, flagsWord st.bypass]

/-- ACTIVE: the number of stages that are not bypassed (R46, R255). -/
def Chain.active (c : Chain) : Nat :=
  (!c.st0.bypass).toNat + (!c.st1.bypass).toNat + (!c.st2.bypass).toNat + (!c.st3.bypass).toNat

/-- A stage with its delay registers at +0.0 (R220). -/
def Stage.clear (st : Stage) : Stage := { st with s1 := 0, s2 := 0 }

def Chain.clear (c : Chain) : Chain :=
  { st0 := c.st0.clear, st1 := c.st1.clear, st2 := c.st2.clear, st3 := c.st3.clear }

/-- PREPARE's clearing of every s1 and s2 (R220). -/
def State.clearDelay (s : State) : State := { s with left := s.left.clear, right := s.right.clear }

/-! ## Install -/

/-- One slot of an install: the section it is given, active, or the identity, bypassed. The delay registers stay
(R168). -/
def Stage.install (st : Stage) (sec : Option Coefs) : Stage :=
  match sec with
  | some c => { st with coef := c, bypass := false }
  | none => { st with coef := identityCoefs, bypass := true }

def Chain.install (c : Chain) (secs : List Coefs) : Chain :=
  { st0 := c.st0.install secs[0]?
    st1 := c.st1.install secs[1]?
    st2 := c.st2.install secs[2]?
    st3 := c.st3.install secs[3]? }

/-- `install(seq)`: section i to stage i, in both chains at once; it writes no other state element (R72, R168). -/
def State.install (s : State) (secs : List Coefs) : State :=
  { s with left := s.left.install secs, right := s.right.install secs }

/-! ## The update -/

/-- What an update decides from its snapshot and FS: the sequence to install, or the code of the first check that
fails, in the order slope, cutoff, finiteness, stability (R170, R275). -/
def designOutcome (cfg : Config) (snap : Settings) (fs : Word) : Except UpdateCode (List Coefs) :=
  if !slopeValid snap.slope then .error .rejectedInvalidParameter
  else if !cutoffValid snap.cutoff fs then .error .rejectedInvalidParameter
  else
    let secs := cfg.designFn snap.family snap.type snap.cutoff fs (orderOf snap.slope)
    if !secs.all sectionFinite then .error .rejectedNumericInstability
    else if !secs.all sectionStable then .error .rejectedNumericInstability
    else .ok secs

/-- `UPDATE()` (R170): install the sequence or write LASTUPD alone (R172), and return the code. -/
def update (cfg : Config) (s : State) : State × UpdateCode :=
  match designOutcome cfg s.settings s.fs with
  | .ok secs => ({ s.install secs with lastupd := .installed }, .installed)
  | .error u => ({ s with lastupd := u }, u)

/-! ## The cascade -/

/-- A sample that has passed a stage: the output, the stage after it, and the number of the next free value. -/
structure StagePass where
  y     : Word
  stage : Stage
  fresh : Nat
  deriving DecidableEq, Repr

/-- One sample through one stage: a bypassed stage passes the 32 bits and changes nothing (R192, R193, R194); an active
one takes a stage step (R190). -/
def Stage.pass (cfg : Config) (st : Stage) (x : Word) (fresh : Nat) : StagePass :=
  if st.bypass then { y := x, stage := st, fresh := fresh }
  else
    let o := cfg.stageFn st.coef st.s1 st.s2 x fresh
    { y := o.y, stage := { st with s1 := o.s1, s2 := o.s2 }, fresh := fresh + 1 }

/-- A sample that has passed a chain. -/
structure ChainPass where
  y     : Word
  chain : Chain
  fresh : Nat
  deriving DecidableEq, Repr

/-- `chain(ch, x)`: the stages in the order 0, 1, 2, 3 (R192). -/
def Chain.pass (cfg : Config) (c : Chain) (x : Word) (fresh : Nat) : ChainPass :=
  let p0 := c.st0.pass cfg x fresh
  let p1 := c.st1.pass cfg p0.y p0.fresh
  let p2 := c.st2.pass cfg p1.y p1.fresh
  let p3 := c.st3.pass cfg p2.y p2.fresh
  { y := p3.y, chain := { st0 := p0.stage, st1 := p1.stage, st2 := p2.stage, st3 := p3.stage }, fresh := p3.fresh }

/-- A block of frames that has passed both chains; `samples` are the output words in the order of R99. -/
structure BlockPass where
  left    : Chain
  right   : Chain
  fresh   : Nat
  samples : List Word
  deriving DecidableEq, Repr

/-- The frames of a block in order, in each the left sample first (R200, R201). -/
def passFrames (cfg : Config) : List Frame → Chain → Chain → Nat → BlockPass
  | [], l, r, fresh => { left := l, right := r, fresh := fresh, samples := [] }
  | f :: rest, l, r, fresh =>
    let a := l.pass cfg f.left fresh
    let b := r.pass cfg f.right a.fresh
    let o := passFrames cfg rest a.chain b.chain b.fresh
    { o with samples := a.y :: b.y :: o.samples }

end Sys2Proof.Machine
end

