-- ==== Sys2Proof/Machine/Control.lean ====
section
/-! DEFINITION. The meanings of the control port's commands: SET_SETTINGS (R240) and GET_SETTINGS (R245). -/

namespace Sys2Proof.Machine

/-- SET_SETTINGS (R240): all four fields as one action, stored as sent and not checked (R76, R241). -/
def execSetSettings (port : Port) (rsv : BitVec 22) (fam : Family) (ty : FilterType) (slope : BitVec 4)
    (cutoff : Word) (s : State) : Answer :=
  if decoderRejects .control port (rsv == 0) then reject port 0x8 .illegalCommand s
  else accept port 0x8 .noUpdate []
    { s with settings := { cutoff := cutoff, type := ty, family := fam, slope := slope } }

/-- GET_SETTINGS (R245): SETWORD and CUTOFF as stored; no state changes. -/
def execGetSettings (port : Port) (rsv : BitVec 28) (s : State) : Answer :=
  if decoderRejects .control port (rsv == 0) then reject port 0x9 .illegalCommand s
  else accept port 0x9 .noUpdate [setWord s.settings, s.settings.cutoff] s

end Sys2Proof.Machine
end

