-- ==== Sys2Proof/Machine/Reserved.lean ====
section
/-! DEFINITION. The meanings of the nine reserved opcodes (R100): ILLEGAL_COMMAND, whatever the port and the bits 27:0;
the status word echoes the received OPC (R271). -/

namespace Sys2Proof.Machine

def execReserved0 (port : Port) (_low : BitVec 28) (s : State) : Answer := reject port 0x0 .illegalCommand s

def execReserved6 (port : Port) (_low : BitVec 28) (s : State) : Answer := reject port 0x6 .illegalCommand s

def execReserved7 (port : Port) (_low : BitVec 28) (s : State) : Answer := reject port 0x7 .illegalCommand s

def execReservedA (port : Port) (_low : BitVec 28) (s : State) : Answer := reject port 0xA .illegalCommand s

def execReservedB (port : Port) (_low : BitVec 28) (s : State) : Answer := reject port 0xB .illegalCommand s

def execReservedC (port : Port) (_low : BitVec 28) (s : State) : Answer := reject port 0xC .illegalCommand s

def execReservedD (port : Port) (_low : BitVec 28) (s : State) : Answer := reject port 0xD .illegalCommand s

def execReservedE (port : Port) (_low : BitVec 28) (s : State) : Answer := reject port 0xE .illegalCommand s

def execReservedF (port : Port) (_low : BitVec 28) (s : State) : Answer := reject port 0xF .illegalCommand s

end Sys2Proof.Machine
end

