-- ==== Sys2Proof/Machine/Enclosure.lean ====
section
/-! DEFINITION. Enclosures of real numbers by integers, for the exact values the designer rounds (R131).
At precision p a real x is enclosed by two integers lo and hi with lo ≤ x * 2^p ≤ hi. Every operation rounds lo down and
hi up, so the exact value never leaves its enclosure, and with growing p every enclosure shrinks to it. -/

namespace Sys2Proof.Machine

/-- The unit of the enclosures at precision `p`, 2^p. -/
def enclosureUnit (p : Nat) : Nat := 2 ^ p

/-- The reals x with lo ≤ x * 2^p ≤ hi. -/
structure Ival where
  lo : Int
  hi : Int
  deriving DecidableEq, Repr

/-- Division rounded up; `/` on Int with a positive divisor rounds down. -/
def ceilDiv (a : Int) (d : Nat) : Int := -((-a) / (d : Int))

/-- A whole number, exactly. -/
def Ival.ofNat (p n : Nat) : Ival := ⟨(n * enclosureUnit p : Nat), (n * enclosureUnit p : Nat)⟩

def Ival.add (i j : Ival) : Ival := ⟨i.lo + j.lo, i.hi + j.hi⟩

def Ival.neg (i : Ival) : Ival := ⟨-i.hi, -i.lo⟩

def Ival.sub (i j : Ival) : Ival := i.add j.neg

def Ival.double (i : Ival) : Ival := i.add i

/-- An enclosure of a value known to be at least 0, with its lower end cut at 0. -/
def Ival.nonneg (i : Ival) : Ival := ⟨max 0 i.lo, i.hi⟩

/-- An enclosure of a value known to lie between 0 and 1, with both ends cut there. -/
def Ival.fraction (p : Nat) (i : Ival) : Ival := ⟨max 0 i.lo, min (enclosureUnit p : Int) i.hi⟩

/-- The product of two values that are at least 0. -/
def Ival.mul (p : Nat) (i j : Ival) : Ival :=
  ⟨i.nonneg.lo * j.nonneg.lo / (enclosureUnit p : Int), ceilDiv (i.hi * j.hi) (enclosureUnit p)⟩

/-- The quotient by a value known to be at least 1: the divisor's lower end is cut at 1, and each end of the
quotient takes the end of the divisor that moves it outwards. -/
def Ival.div (p : Nat) (i j : Ival) : Ival :=
  let dlo := (max (enclosureUnit p : Int) j.lo).toNat
  let dhi := (max (enclosureUnit p : Int) j.hi).toNat
  ⟨i.lo * (enclosureUnit p : Int) / ((if 0 ≤ i.lo then dhi else dlo : Nat) : Int),
   ceilDiv (i.hi * (enclosureUnit p : Int)) (if 0 ≤ i.hi then dlo else dhi)⟩

/-- A numerator and a positive denominator. -/
structure Quotient where
  num : Int
  den : Nat
  deriving DecidableEq, Repr

/-- The enclosure of a quotient. -/
def Quotient.ival (p : Nat) (q : Quotient) : Ival :=
  ⟨q.num * (enclosureUnit p : Int) / (q.den : Int), ceilDiv (q.num * (enclosureUnit p : Int)) q.den⟩

/-- How many terms of a series are summed at precision `p`, an even number. -/
def seriesTerms (p : Nat) : Nat := 2 * (p / 8 + 1)

/-! ## π -/

/-- The sum of the first `terms` terms of 1/k - 1/((k+2)·m²) + 1/((k+4)·m⁴) - …, exactly. -/
def arctanSum (m : Nat) : Nat → Nat → Quotient
  | 0, _ => ⟨0, 1⟩
  | terms + 1, k =>
    let tail := arctanSum m terms (k + 2)
    ⟨(m ^ 2 * tail.den : Nat) - (k : Int) * tail.num, k * (m ^ 2 * tail.den)⟩

/-- The enclosure of arctan(1/m), between the sum of an even number of terms and the sum of one term more. -/
def arctanInv (p m : Nat) : Ival :=
  let even := arctanSum m (seriesTerms p) 1
  let odd := arctanSum m (seriesTerms p + 1) 1
  ⟨(Quotient.ival p ⟨even.num, m * even.den⟩).lo, (Quotient.ival p ⟨odd.num, m * odd.den⟩).hi⟩

/-- The enclosure of π = 16·arctan(1/5) - 4·arctan(1/239). -/
def piIval (p : Nat) : Ival :=
  let a := arctanInv p 5
  let b := arctanInv p 239
  ⟨16 * a.lo - 4 * b.hi, 16 * a.hi - 4 * b.lo⟩

/-- The enclosure of `π * n / d`, for a positive `d`. -/
def piTimes (p n d : Nat) : Ival := ⟨(piIval p).lo * n / (d : Int), ceilDiv ((piIval p).hi * n) d⟩

/-! ## Sine and cosine -/

/-- The sum of the first `terms` terms of 1 - x²/((k+1)(k+2)) + x⁴/((k+1)(k+2)(k+3)(k+4)) - …, exactly, for
x² = x2/u2. At k = 0 it is the Taylor sum of cos x, at k = 1 that of (sin x)/x. -/
def taylorSum (x2 u2 : Nat) : Nat → Nat → Quotient
  | 0, _ => ⟨0, 1⟩
  | terms + 1, k =>
    let tail := taylorSum x2 u2 terms (k + 2)
    let den := (k + 1) * (k + 2) * u2 * tail.den
    ⟨(den : Int) - (x2 : Int) * tail.num, den⟩

def factorial : Nat → Nat
  | 0 => 1
  | n + 1 => (n + 1) * factorial n

/-- What a Taylor sum of cos or sin leaves out, for x up to 2, in units of the precision: at most 2·2^(2N)/(2N)! after
N terms. -/
def taylorRest (p : Nat) : Int :=
  ceilDiv (2 * 2 ^ (2 * seriesTerms p) * enclosureUnit p : Nat) (factorial (2 * seriesTerms p))

/-- An enclosure widened by `e` units at each end. -/
def Ival.widen (i : Ival) (e : Int) : Ival := ⟨i.lo - e, i.hi + e⟩

/-- The enclosure of `cos (π * n / d)`, for 0 ≤ n/d ≤ 1/2: the Taylor sum at the lower end of the angle's enclosure,
widened by the width of that enclosure and by what the sum leaves out. -/
def cosPi (p n d : Nat) : Ival :=
  let x := piTimes p n d
  let q := taylorSum (x.lo.toNat ^ 2) (enclosureUnit p ^ 2) (seriesTerms p) 0
  ((q.ival p).widen (x.hi - x.lo + taylorRest p)).fraction p

/-- The enclosure of `sin (π * n / d)`, for 0 ≤ n/d ≤ 1/2. -/
def sinPi (p n d : Nat) : Ival :=
  let x := piTimes p n d
  let q := taylorSum (x.lo.toNat ^ 2) (enclosureUnit p ^ 2) (seriesTerms p) 1
  ((Quotient.ival p ⟨x.lo.toNat * q.num, enclosureUnit p * q.den⟩).widen (x.hi - x.lo + taylorRest p)).fraction p

end Sys2Proof.Machine
end

