-- ==== Sys2Proof/Machine/Designer.lean ====
section
/-! DEFINITION. The reference instance of DesignFn (R129), the butterworth_coefficient_generator.
The rules give each coefficient as an exact real in k = tan(π·cutoff/fs) (R121, R124, R125), rounded once (R131).
Here the same reals are written in the double angle 2πq, q = cutoff/fs, by multiplying numerator and denominator of
R124 by cos²(πq) and of R125 by cos²(πq)·(1 + k): with C = cos 2πq, S = sin 2πq and 1/Q = 2·cosθ,
D·cos²(πq) = 1 + S·cosθ, k²·cos²(πq) = (1 - C)/2 and cos²(πq) = (1 + C)/2. Every divisor is then at least 1.
The reals are enclosed at a precision p (Machine/Enclosure.lean), and the precision grows until every coefficient's
enclosure has one rounding. Spec/RealDesign.lean holds the rules' own formulas; Laws/Designer.lean proves that the
enclosures hold them, and Laws/ExactRounding.lean that some precision always decides. -/

namespace Sys2Proof.Machine

/-- Enclosures of cos and sin of twice the design's angle π·cutoff/fs. -/
structure Warp where
  cos2 : Ival
  sin2 : Ival
  deriving DecidableEq, Repr

/-- The double angle 2π·cutoff/fs, which lies between 0 and π for the inputs of R122, folded into the first quadrant.
At cutoff = fs/4 it is a right angle, and k = 1 exactly (R121). -/
def warpOf (p : Nat) (cutoff fs : Word) : Warp :=
  let n := 2 * scaledMagnitude (magnitude cutoff)
  let d := scaledMagnitude (magnitude fs)
  if 2 * n < d then ⟨cosPi p n d, sinPi p n d⟩
  else if 2 * n = d then ⟨Ival.ofNat p 0, Ival.ofNat p 1⟩
  else ⟨(cosPi p (d - n) d).neg, sinPi p (d - n) d⟩

/-- Enclosures of the exact coefficients of one section; a0 is 1 (R130). -/
structure Section where
  b0 : Ival
  b1 : Ival
  b2 : Ival
  a1 : Ival
  a2 : Ival
  deriving DecidableEq, Repr

/-- `SOS2(type, k, Q)` of R124, with `halfInvQ` the enclosure of 1/(2Q). -/
def sos2 (p : Nat) (ty : FilterType) (w : Warp) (halfInvQ : Ival) : Section :=
  let one := Ival.ofNat p 1
  let sc := w.sin2.mul p halfInvQ
  let den := one.add sc
  let num := (match ty with | .lowPass => one.sub w.cos2 | .highPass => one.add w.cos2).nonneg
  let b1 := num.div p den
  { b0 := num.div p den.double
    b1 := match ty with | .lowPass => b1 | .highPass => b1.neg
    b2 := num.div p den.double
    a1 := (w.cos2.double.neg).div p den
    a2 := (one.sub sc).div p den }

/-- `SOS1(type, k)` of R125. Its b2 and a2 are exactly 0. -/
def sos1 (p : Nat) (ty : FilterType) (w : Warp) : Section :=
  let one := Ival.ofNat p 1
  let den := one.add w.sin2
  let num := match ty with
    | .lowPass => ((one.sub w.cos2).add w.sin2).nonneg
    | .highPass => ((one.add w.cos2).add w.sin2).nonneg
  let b0 := num.div p den.double
  { b0 := b0
    b1 := match ty with | .lowPass => b0 | .highPass => b0.neg
    b2 := Ival.ofNat p 0
    a1 := w.cos2.neg.div p den
    a2 := Ival.ofNat p 0 }

/-- 1/(2·Q_i) of Butterworth order `n`, which is the cosine of R126: of (2i + 1)π/2n for an even order, of (i + 1)π/n
for an odd one. -/
def halfInvQ (p n i : Nat) : Ival :=
  if n % 2 = 0 then cosPi p (2 * i + 1) (2 * n) else cosPi p (i + 1) n

/-- The second-order sections of Butterworth order `n`, in increasing Q (R126). -/
def butterworthPairs (p : Nat) (ty : FilterType) (w : Warp) (n : Nat) : List Section :=
  (List.range (n / 2)).map fun i => sos2 p ty w (halfInvQ p n i)

/-- `BW(type, k, n)` (R127). -/
def butterworth (p : Nat) (ty : FilterType) (w : Warp) (n : Nat) : List Section :=
  if n % 2 = 0 then butterworthPairs p ty w n else sos1 p ty w :: butterworthPairs p ty w n

/-- `LR(type, k, n)` (R128): M is n raised to an even number, m = M/2; Q = 1/2 has 1/(2Q) = 1. -/
def linkwitzRiley (p : Nat) (ty : FilterType) (w : Warp) (n : Nat) : List Section :=
  let m := (n + 1) / 2
  if m % 2 = 0 then butterworth p ty w m ++ butterworth p ty w m
  else sos2 p ty w (Ival.ofNat p 1) :: ((butterworth p ty w m).tail ++ (butterworth p ty w m).tail)

/-- The sections of a design before rounding (R129), enclosed at precision `p`. -/
def sectionsOf (p : Nat) (fam : Family) (ty : FilterType) (cutoff fs : Word) (order : Nat) : List Section :=
  match fam with
  | .butterworth => butterworth p ty (warpOf p cutoff fs) order
  | .linkwitzRiley => linkwitzRiley p ty (warpOf p cutoff fs) order

/-- One end of an enclosure rounded to binary32 (R13): `z` units of 2^-p are `|z|·2^149 / 2^p` units of 2^-149. Zero gives
+0.0. -/
def roundEnd (p : Nat) (z : Int) : Word := ofSignMagnitude (z < 0) (roundMagnitude (z.natAbs * 2 ^ 149) (enclosureUnit p))

/-- Both ends round to one word, which is then the rounding of the value enclosed, since rounding keeps order. -/
def Ival.decided (p : Nat) (i : Ival) : Bool := roundEnd p i.lo == roundEnd p i.hi

/-- Every coefficient's rounding is decided. -/
def Section.decided (p : Nat) (s : Section) : Bool :=
  s.b0.decided p && s.b1.decided p && s.b2.decided p && s.a1.decided p && s.a2.decided p

/-- The rounded coefficients of a section, with a0 = 1.0 (R129, R130, R131). -/
def Section.rounded (p : Nat) (s : Section) : Coefs :=
  { b0 := roundEnd p s.b0.lo
    b1 := roundEnd p s.b1.lo
    b2 := roundEnd p s.b2.lo
    a0 := f32One
    a1 := roundEnd p s.a1.lo
    a2 := roundEnd p s.a2.lo }

/-- The sections rounded at the first precision from `p` on that decides every coefficient. `none` stands for a search
that never ends; for the inputs of R122 it ends (Laws/ExactRounding.lean). -/
def roundFrom (e : Nat → List Section) (p : Nat) : Option (List Coefs) :=
  if (e p).all (Section.decided p) then some ((e p).map (Section.rounded p)) else roundFrom e (p + 1)
  partial_fixpoint

/-- The precision tried first. Which it is does not show in the result (notes/assumptions/6.md). -/
def firstPrecision : Nat := 320

/-- The reference design function (R129): every coefficient is its exact real rounded once (R131). The last line's default
is the answer for inputs that no precision decides; the inputs of R122 are none (Laws/ExactRounding.lean). -/
def referenceDesign (fam : Family) (ty : FilterType) (cutoff fs : Word) (order : Nat) : List Coefs :=
  let enclosed (p : Nat) := sectionsOf p fam ty cutoff fs order
  let atFirst := (enclosed firstPrecision).map (Section.rounded firstPrecision)
  if (enclosed firstPrecision).all (Section.decided firstPrecision) then atFirst
  else (roundFrom enclosed (firstPrecision + 1)).getD atFirst

end Sys2Proof.Machine
end

