-- ==== Sys2Proof/Machine/StageStep.lean ====
section
/-! DEFINITION. The reference instance of StageFn (R190): the transposed direct form II in binary32. -/

namespace Sys2Proof.Machine

/-- StageFn of R190, its nine operations in the order written there. `a0` is not read. Operation `op` of stage step
`draw` writes the free NaN `Config.freeNaN draw op` when its result is a NaN (R191). -/
def referenceStage (c : Coefs) (s1 s2 x : Word) (draw : Nat) : StageOut :=
  let nan := Config.freeNaN draw
  let y := f32Add (nan 1) (f32Mul (nan 0) c.b0 x) s1
  let s1New := f32Add (nan 5) (f32Sub (nan 4) (f32Mul (nan 2) c.b1 x) (f32Mul (nan 3) c.a1 y)) s2
  let s2New := f32Sub (nan 8) (f32Mul (nan 6) c.b2 x) (f32Mul (nan 7) c.a2 y)
  { y := y, s1 := s1New, s2 := s2New }

end Sys2Proof.Machine
end

