-- ==== Sys2Proof/Machine/Reference.lean ====
section
/-! DEFINITION. The configuration the machine runs: the reference instances of DesignFn (R129) and StageFn (R190),
which R10 names as one value of the two configuration fields (notes/assumptions/2.md). Every operation that uses
one of them takes the configuration as an argument, so that a claim can be made of any other. -/

namespace Sys2Proof.Machine

def machineConfig : Config := { designFn := referenceDesign, stageFn := referenceStage }

end Sys2Proof.Machine
end

