-- ==== Sys2Proof/Machine/Stream.lean ====
section
/-! DEFINITION. The meanings of the stream port's commands: PREPARE (R220), PROCESS_BLOCK (R200), RELEASE (R225),
READ_STAGE (R250) and READ_STATUS (R255). The two that run an update are written for any configuration (R10);
the machine runs them with `machineConfig`. -/

namespace Sys2Proof.Machine

/-- PREPARE (R220, R221): set FS and MAXBLK, clear the delay registers, update, enter PREPARED. -/
def prepareWith (cfg : Config) (port : Port) (rsv : BitVec 12) (m : BitVec 16) (f : Word) (s : State) : Answer :=
  if decoderRejects .stream port (rsv == 0) then reject port 0x1 .illegalCommand s
  else if !fsValid f || m == 0 then reject port 0x1 .invalidParameter s
  else
    let u := update cfg ({ s with fs := f, maxblk := m }.clearDelay)
    accept port 0x1 u.2 [] { u.1 with lifecycle := .prepared }

def execPrepare (port : Port) (rsv : BitVec 12) (m : BitVec 16) (f : Word) (s : State) : Answer :=
  prepareWith machineConfig port rsv m f s

/-- PROCESS_BLOCK (R200): update, then every frame through both chains, enter RUNNING. Rejected while STOPPED or with
more frames than MAXBLK (R274). -/
def processBlockWith (cfg : Config) (port : Port) (rsv : BitVec 12) (frames : List Frame) (s : State) : Answer :=
  if decoderRejects .stream port (rsv == 0) then reject port 0x2 .illegalCommand s
  else if s.lifecycle = .stopped ∨ s.maxblk.toNat < frames.length then reject port 0x2 .hostProtocolError s
  else
    let u := update cfg s
    let o := passFrames cfg frames u.1.left u.1.right u.1.fresh
    accept port 0x2 u.2 o.samples
      { u.1 with left := o.left, right := o.right, fresh := o.fresh, lifecycle := .running }

def execProcessBlock (port : Port) (rsv : BitVec 12) (frames : List Frame) (s : State) : Answer :=
  processBlockWith machineConfig port rsv frames s

/-- RELEASE (R225): enter STOPPED, and keep everything else. -/
def execRelease (port : Port) (rsv : BitVec 28) (s : State) : Answer :=
  if decoderRejects .stream port (rsv == 0) then reject port 0x3 .illegalCommand s
  else accept port 0x3 .noUpdate [] { s with lifecycle := .stopped }

/-- READ_STAGE (R250): the slot's coefficients and FLAGS; no state changes. -/
def execReadStage (port : Port) (rsv : BitVec 25) (ch : Channel) (idx : Fin 4) (s : State) : Answer :=
  if decoderRejects .stream port (rsv == 0) then reject port 0x4 .illegalCommand s
  else accept port 0x4 .noUpdate ((s.chain ch).get idx).words s

/-- READ_STATUS (R255): STATE, FS and MAXBLK; no state changes. -/
def execReadStatus (port : Port) (rsv : BitVec 28) (s : State) : Answer :=
  if decoderRejects .stream port (rsv == 0) then reject port 0x5 .illegalCommand s
  else accept port 0x5 .noUpdate [stateWord s.left.active s.lastupd s.lifecycle, s.fs, zext32 s.maxblk] s

end Sys2Proof.Machine
end

