-- ==== Sys2Proof/Machine/Dispatch.lean ====
section
/-! DEFINITION. The dispatch: one arm per constructor of Instr, each one call of that command's meaning. -/

namespace Sys2Proof.Machine

def exec (i : Instr) (s : State) : Host.Outcome State Fault Refusal :=
  match i with
  | .prepare port rsv m f => Sys2Proof.Machine.execPrepare port rsv m f s
  | .processBlock port rsv frames => Sys2Proof.Machine.execProcessBlock port rsv frames s
  | .release port rsv => Sys2Proof.Machine.execRelease port rsv s
  | .readStage port rsv ch idx => Sys2Proof.Machine.execReadStage port rsv ch idx s
  | .readStatus port rsv => Sys2Proof.Machine.execReadStatus port rsv s
  | .setSettings port rsv fam ty slope cutoff => Sys2Proof.Machine.execSetSettings port rsv fam ty slope cutoff s
  | .getSettings port rsv => Sys2Proof.Machine.execGetSettings port rsv s
  | .reserved0 port low => Sys2Proof.Machine.execReserved0 port low s
  | .reserved6 port low => Sys2Proof.Machine.execReserved6 port low s
  | .reserved7 port low => Sys2Proof.Machine.execReserved7 port low s
  | .reservedA port low => Sys2Proof.Machine.execReservedA port low s
  | .reservedB port low => Sys2Proof.Machine.execReservedB port low s
  | .reservedC port low => Sys2Proof.Machine.execReservedC port low s
  | .reservedD port low => Sys2Proof.Machine.execReservedD port low s
  | .reservedE port low => Sys2Proof.Machine.execReservedE port low s
  | .reservedF port low => Sys2Proof.Machine.execReservedF port low s

end Sys2Proof.Machine
end

