-- ==== Sys2Proof/Machine/Fetch.lean ====
section
/-! DEFINITION. Which command the block executes next (R33, R74, R313). Where an ISA fetches at a program counter, this
block takes the next command word of a port's input stream. -/

namespace Sys2Proof.Machine

/-- Port `p` holds a complete command (R313). -/
def State.ready (s : State) (p : Port) : Bool :=
  match decode p (s.input p) with
  | .ok _ => true
  | .error _ => false

/-- The state in which the words before `rest` on port `p` are consumed, and the turn that served it (R96). -/
def State.consume (s : State) (p : Port) (rest : List Word) : State :=
  { s.setInput p rest with turns := s.turns.tail }

/-- The port whose turn it is when both hold a complete command: any interleaving is admitted (R74), so `turns` says it,
and where `turns` says nothing it is a free value (notes/assumptions/4.md). -/
def State.turn (s : State) : Port :=
  match s.turns with
  | p :: _ => p
  | [] => Config.spareTurn s.fresh

/-- A contested turn that `turns` does not settle uses up one free value. -/
def State.spendTurn (s : State) : State :=
  match s.turns with
  | _ :: _ => s
  | [] => { s with fresh := s.fresh + 1 }

/-- The next command and the state in which its words are consumed: the only port that holds a complete command, or
the port whose turn it is; none when both ports wait for words (R312, R313). -/
def nextCommand (s : State) : Option (Instr × State) :=
  match decode .control s.ctlIn, decode .stream s.strIn with
  | .error _, .error _ => none
  | .ok c, .error _ => some (c.1, s.consume .control c.2)
  | .error _, .ok d => some (d.1, s.consume .stream d.2)
  | .ok c, .ok d =>
    match s.turn with
    | .control => some (c.1, s.spendTurn.consume .control c.2)
    | .stream => some (d.1, s.spendTurn.consume .stream d.2)

/-- The state with `words` at the front of port `p`'s input and the next turn given to `p`: the next step runs the
command they hold (notes/assumptions/8.md). -/
def State.place (s : State) (p : Port) (words : List Word) : State :=
  { s.setInput p (words ++ s.input p) with turns := p :: s.turns }

end Sys2Proof.Machine
end

