-- ==== Sys2Proof/Machine/Step.lean ====
section
/-! DEFINITION. One step of the block: one command, indivisible (R74). When no port holds a complete command the block
waits for words, and nothing changes (R312, R313; notes/assumptions/5.md). -/

namespace Sys2Proof.Machine

def step (s : State) : Host.Outcome State Fault Refusal :=
  match nextCommand s with
  | some c => exec c.1 c.2
  | none => .next s

/-- `s` with a word of the opcode table placed where the next step takes its command. -/
def State.withFetchWord (s : State) (nbits w : Nat) : State :=
  s.place (tablePort (BitVec.ofNat 32 (w % 2 ^ nbits))) (tableWords nbits w)

end Sys2Proof.Machine
end

