-- ==== Sys2Proof/Machine/Assembler.lean ====
section
/-! DEFINITION. The assembler syntax of the spec (R112, R113): a line of text is one command, or is refused by name.
A line is read in three steps: characters to tokens, tokens to operands, operands to a command. -/

namespace Sys2Proof.Machine

/-! ## Lines -/

/-- `<f32>`: a decimal literal `digits * 10^exponent`, or an exact bit pattern (R112). -/
inductive Literal where
  | decimal (neg : Bool) (digits : Nat) (exponent : Int)
  | bits (w : Word)
  deriving DecidableEq, Repr

/-- A line of R112, its numbers not yet fitted to their fields. -/
inductive AsmLine where
  | setSettings (slope : Nat) (type : FilterType) (family : Family) (cutoff : Literal)
  | getSettings
  | prepare (fs : Literal) (maxblk : Nat)
  | processBlock (frames : List (Literal × Literal))
  | release
  | readStage (ch idx : Nat)
  | readStatus
  deriving DecidableEq, Repr

/-- Why the assembler refuses a line (R113). -/
inductive AsmError where
  /-- The text is no line of R112. -/
  | notALine
  /-- A slope outside 0..15. -/
  | slopeTooLarge
  /-- A maxblk outside 0..65535. -/
  | maxblkTooLarge
  /-- A block of more than 65535 frames. -/
  | tooManyFrames
  /-- A channel or stage its field cannot hold. -/
  | noSuchStage
  deriving DecidableEq, Repr

/-- The word of a literal: a decimal rounded once with roundTiesToEven, a pattern as it stands (R112).
DESIGN CHOICE: R112 leaves the sign of a decimal zero open (it asks for `bits(0x80000000)` to write -0.0 unambiguously);
here the literal's minus sign is kept, so -0.0, and a negative decimal that rounds to zero, give 0x80000000 (safe,
notes/assumptions/10.md). -/
def Literal.word : Literal → Word
  | .decimal neg digits exponent =>
    ofSignMagnitude neg
      (roundMagnitude (digits * 10 ^ exponent.toNat * 2 ^ 149) (10 ^ (-exponent).toNat))
  | .bits w => w

/-- The command of a line, its reserved bits 0 (R112); a number its field cannot hold is refused, never clamped or
wrapped (R113). -/
def AsmLine.command : AsmLine → Except AsmError Instr
  | .setSettings slope ty fam cutoff =>
    if slope ≤ 15 then .ok (.setSettings .control 0 fam ty (BitVec.ofNat 4 slope) cutoff.word)
    else .error .slopeTooLarge
  | .getSettings => .ok (.getSettings .control 0)
  | .prepare fs maxblk =>
    if maxblk ≤ 65535 then .ok (.prepare .stream 0 (BitVec.ofNat 16 maxblk) fs.word)
    else .error .maxblkTooLarge
  | .processBlock frames =>
    if frames.length ≤ 65535 then .ok (.processBlock .stream 0 (frames.map fun f => ⟨f.1.word, f.2.word⟩))
    else .error .tooManyFrames
  | .release => .ok (.release .stream 0)
  | .readStage ch idx =>
    if ch ≤ 1 ∧ idx ≤ 3 then
      .ok (.readStage .stream 0 (Channel.ofBit (BitVec.ofNat 1 ch)) (BitVec.ofNat 2 idx).toFin)
    else .error .noSuchStage
  | .readStatus => .ok (.readStatus .stream 0)

/-! ## Tokens -/

/-- A name or number, or one mark of punctuation. -/
inductive Token where
  | name (cs : List Char)
  | mark (c : Char)
  deriving DecidableEq, Repr

/-- The characters of names and numbers. -/
def nameChar (c : Char) : Bool := c.isAlphanum || c == '_' || c == '.' || c == '-' || c == '+'

/-- The tokens of a line; `;` starts a comment (R112). `acc` holds the name being read, backwards. -/
def tokens (acc : List Char) : List Char → List Token
  | [] => flush []
  | c :: cs =>
    if nameChar c then tokens (c :: acc) cs
    else if c == ';' then flush []
    else if c == ' ' then flush (tokens [] cs)
    else flush (.mark c :: tokens [] cs)
where
  flush (ts : List Token) : List Token := if acc.isEmpty then ts else .name acc.reverse :: ts

/-! ## Numbers -/

def digitOf (c : Char) : Option Nat := if c.isDigit then some (c.toNat - 48) else none

def hexDigitOf (c : Char) : Option Nat :=
  if c.isDigit then some (c.toNat - 48)
  else if 65 ≤ c.toNat && c.toNat ≤ 70 then some (c.toNat - 55)
  else if 97 ≤ c.toNat && c.toNat ≤ 102 then some (c.toNat - 87)
  else none

/-- The digits at the front: their value on top of `v`, how many there were, and the characters after them. -/
def readDigits (v n : Nat) : List Char → Nat × Nat × List Char
  | [] => (v, n, [])
  | c :: cs =>
    match digitOf c with
    | some d => readDigits (v * 10 + d) (n + 1) cs
    | none => (v, n, c :: cs)

/-- A whole number and nothing else. -/
def readNat (cs : List Char) : Option Nat :=
  match readDigits 0 0 cs with
  | (v, _ + 1, []) => some v
  | _ => none

/-- The exponent part of a decimal literal, empty or `e` with a signed whole number. -/
def readExponent : List Char → Option Int
  | [] => some 0
  | 'e' :: '-' :: cs => (readNat cs).map fun v => -(v : Int)
  | 'e' :: '+' :: cs => (readNat cs).map fun v => (v : Int)
  | 'e' :: cs => (readNat cs).map fun v => (v : Int)
  | _ => none

/-- A decimal literal after its sign. -/
def readDecimal (neg : Bool) (cs : List Char) : Option Literal :=
  match readDigits 0 0 cs with
  | (v, _ + 1, '.' :: rest) =>
    match readDigits v 0 rest with
    | (w, k + 1, rest) => (readExponent rest).map fun e => .decimal neg w (e - (k + 1))
    | _ => none
  | (v, _ + 1, rest) => (readExponent rest).map fun e => .decimal neg v e
  | _ => none

/-- The eight hexadecimal digits of a bit pattern. -/
def readHex (v n : Nat) : List Char → Option Word
  | [] => if n = 8 then some (BitVec.ofNat 32 v) else none
  | c :: cs => (hexDigitOf c).bind fun d => readHex (v * 16 + d) (n + 1) cs

/-! ## Operands -/

/-- A value of an operand: a name or number, or what stands in `bits(…)`. -/
inductive AsmValue where
  | plain (cs : List Char)
  | bits (cs : List Char)
  deriving DecidableEq, Repr

def AsmValue.nat : AsmValue → Option Nat
  | .plain cs => readNat cs
  | .bits _ => none

def AsmValue.literal : AsmValue → Option Literal
  | .plain ('-' :: cs) => readDecimal true cs
  | .plain cs => readDecimal false cs
  | .bits ('0' :: 'x' :: cs) => (readHex 0 0 cs).map .bits
  | .bits _ => none

def bitsName : List Char := ['b', 'i', 't', 's']

/-- A value at the front of the tokens. -/
def readValue : List Token → Option (AsmValue × List Token)
  | .name n :: .mark '(' :: .name v :: .mark ')' :: rest =>
    if n = bitsName then some (.bits v, rest) else none
  | .name v :: rest => some (.plain v, rest)
  | _ => none

/-- `name=value` at the front of the tokens, with the name asked for; `first` says that no comma comes before it. -/
def readOperand (first : Bool) (key : List Char) (ts : List Token) : Option (AsmValue × List Token) :=
  let ts := if first then some ts else match ts with | .mark ',' :: ts => some ts | _ => none
  ts.bind fun ts =>
    match ts with
    | .name k :: .mark '=' :: rest => if k = key then readValue rest else none
    | _ => none

/-- One pair per frame, left first, separated by commas (R112). `fuel` bounds the number of pairs; a line has fewer
than it has tokens. -/
def readFrames : Nat → List Token → Option (List (Literal × Literal))
  | 0, _ => none
  | fuel + 1, .mark '(' :: ts =>
    (readValue ts).bind fun a =>
      match a.2 with
      | .mark ',' :: ts => (readValue ts).bind fun b =>
          a.1.literal.bind fun l => b.1.literal.bind fun r =>
            match b.2 with
            | [.mark ')'] => some [(l, r)]
            | .mark ')' :: .mark ',' :: ts => (readFrames fuel ts).map fun fs => (l, r) :: fs
            | _ => none
      | _ => none
  | _ + 1, _ => none

def readType (v : AsmValue) : Option FilterType :=
  if v = .plain ['h', 'p'] then some .highPass else if v = .plain ['l', 'p'] then some .lowPass else none

def readFamily (v : AsmValue) : Option Family :=
  if v = .plain ['b', 'w'] then some .butterworth else if v = .plain ['l', 'r'] then some .linkwitzRiley else none

/-! ## A line of text -/

/-- The operands of one mnemonic. -/
def readOperands (port mnemonic : String) (ts : List Token) : Option AsmLine :=
  match port, mnemonic with
  | "ctl", "set_settings" =>
    (readOperand true "slope".toList ts).bind fun a =>
    (readOperand false "type".toList a.2).bind fun b =>
    (readOperand false "family".toList b.2).bind fun c =>
    (readOperand false "cutoff".toList c.2).bind fun d =>
    if d.2.isEmpty then
      a.1.nat.bind fun slope => (readType b.1).bind fun ty => (readFamily c.1).bind fun fam =>
        d.1.literal.map fun cutoff => .setSettings slope ty fam cutoff
    else none
  | "str", "prepare" =>
    (readOperand true "fs".toList ts).bind fun a =>
    (readOperand false "maxblk".toList a.2).bind fun b =>
    if b.2.isEmpty then a.1.literal.bind fun fs => b.1.nat.map fun m => .prepare fs m else none
  | "str", "read_stage" =>
    (readOperand true "ch".toList ts).bind fun a =>
    (readOperand false "idx".toList a.2).bind fun b =>
    if b.2.isEmpty then a.1.nat.bind fun ch => b.1.nat.map fun idx => .readStage ch idx else none
  | "str", "process_block" =>
    if ts.isEmpty then some (.processBlock []) else (readFrames ts.length ts).map .processBlock
  | "ctl", "get_settings" => if ts.isEmpty then some .getSettings else none
  | "str", "release" => if ts.isEmpty then some .release else none
  | "str", "read_status" => if ts.isEmpty then some .readStatus else none
  | _, _ => none

/-- The line's port, mnemonic and operands (R112). -/
def readLine (line : String) : Option AsmLine :=
  match tokens [] line.toList with
  | .name port :: .mark ':' :: .name mnemonic :: ts =>
    readOperands (String.ofList port) (String.ofList mnemonic) ts
  | _ => none

/-- The command of a line of text (R112, R113). -/
def assemble (line : String) : Except AsmError Instr :=
  match readLine line with
  | some l => l.command
  | none => .error .notALine

end Sys2Proof.Machine
end

