-- ==== Sys2Proof/Safety.lean ====
section
/-! DEFINITION. What the claims speak of: the invariants of 10_state.md, the end of a run and a waiting port (R312, R313),
the states a run can reach, and equality up to the bits of a NaN (R191). -/

namespace Sys2Proof.Machine

/-! ## Channel identity and the active stages -/

/-- Two slots hold the same coefficients and bypass flag (R37). -/
def Stage.SameConfig (a b : Stage) : Prop := a.coef = b.coef ∧ a.bypass = b.bypass

/-- The channel identity invariant (R37). -/
def Chain.SameConfig (l r : Chain) : Prop := ∀ i : Fin 4, (l.get i).SameConfig (r.get i)

/-- The active stages are the first ones: no stage after a bypassed one is active (R38). -/
def Chain.ActivePrefix (c : Chain) : Prop :=
  (c.st0.bypass = true → c.st1.bypass = true) ∧
  (c.st1.bypass = true → c.st2.bypass = true) ∧
  (c.st2.bypass = true → c.st3.bypass = true)

/-- What a slot can hold: a bypassed one the identity (R35, R168), an active one a section that passed the update's checks,
with a0 = 1.0 (R34, R130, R164, R165). -/
def Stage.Configured (st : Stage) : Prop :=
  if st.bypass then st.coef = identityCoefs
  else st.coef.a0 = f32One ∧ sectionFinite st.coef = true ∧ sectionStable st.coef = true

/-- The invariant of the block's registers. -/
structure State.Inv (s : State) : Prop where
  /-- Both chains hold the same coefficients and bypass flags (R37). -/
  channels : s.left.SameConfig s.right
  /-- The active stages are 0 .. n-1 (R38). -/
  activeFirst : s.left.ActivePrefix
  /-- Every slot holds the identity or an installed section (R34, R35). -/
  configured : ∀ i : Fin 4, (s.left.get i).Configured
  /-- FS is its reset value or finite and positive (R42). -/
  fsHeld : s.fs = 0 ∨ fsValid s.fs = true
  /-- MAXBLK is 0 exactly while FS is (R43, R221). -/
  maxblkHeld : s.fs = 0 ↔ s.maxblk = 0
  /-- A block that is not stopped has been prepared (R226, R227). -/
  prepared : s.lifecycle ≠ .stopped → s.fs ≠ 0
  /-- No update has run exactly while no PREPARE has been accepted (R45, R171). -/
  lastupdHeld : s.lastupd = .noUpdate ↔ s.fs = 0
  /-- Before any update every stage is bypassed (R38). -/
  bypassedFirst : s.lastupd = .noUpdate → s.left.active = 0

/-! ## Runs -/

/-- The run has ended: no word is left on either port (R312). -/
def State.Ended (s : State) : Prop := s.ctlIn = [] ∧ s.strIn = []

/-- Port `p` holds the start of a command and not all of it: it is stuck until the rest arrives (R313). -/
def State.Waiting (s : State) (p : Port) : Prop :=
  ∃ need, decode p (s.input p) = .error (.incomplete need)

/-- A state the block can be in: after reset, after a step, and whatever the agents send and however the ports' turns
fall (R74, R312). -/
inductive State.Reachable : State → Prop where
  | reset : State.Reachable State.reset
  | step {s t : State} : State.Reachable s → step s = .next t → State.Reachable t
  | send {s : State} (p : Port) (ws : List Word) : State.Reachable s → State.Reachable (s.send p ws)
  | turns {s : State} (ts : List Port) : State.Reachable s → State.Reachable { s with turns := ts }

/-! ## Equality up to NaN bits -/

/-- Equal words, or two NaNs: what a claim about samples may say, since a NaN's bits are free (R191). -/
def NaNEq (a b : Word) : Prop := a = b ∨ (isNaN32 a = true ∧ isNaN32 b = true)

/-- Slots equal but for the bits of NaNs in their delay registers. -/
def Stage.NaNEq (a b : Stage) : Prop :=
  a.SameConfig b ∧ Machine.NaNEq a.s1 b.s1 ∧ Machine.NaNEq a.s2 b.s2

/-- Chains equal but for the bits of NaNs in their delay registers. -/
def Chain.NaNEq (l r : Chain) : Prop := ∀ i : Fin 4, (l.get i).NaNEq (r.get i)

/-! ## Commands -/

/-- The readback commands (R256). -/
def Readback (i : Instr) : Prop :=
  match i with
  | .getSettings _ _ => True
  | .readStage _ _ _ _ => True
  | .readStatus _ _ => True
  | .prepare _ _ _ _ => False
  | .processBlock _ _ _ => False
  | .release _ _ => False
  | .setSettings _ _ _ _ _ _ => False
  | .reserved0 _ _ => False
  | .reserved6 _ _ => False
  | .reserved7 _ _ => False
  | .reservedA _ _ => False
  | .reservedB _ _ => False
  | .reservedC _ _ => False
  | .reservedD _ _ => False
  | .reservedE _ _ => False
  | .reservedF _ _ => False

/-- The state with one status word, and nothing else, answered on port `p`: what a rejection leaves (R270). -/
def State.answered (s : State) (p : Port) (w : Word) : State :=
  match p with
  | .control => { s with ctlOut := s.ctlOut ++ [w] }
  | .stream => { s with strOut := s.strOut ++ [w] }

end Sys2Proof.Machine
end

