-- ==== Sys2Proof/Spec/RealDesign.lean ====
section
/-! DEFINITION. The designer's rules in the real numbers, as 40_coefficient_designer.md writes them: what the reference
design of Machine/Designer.lean computes is claimed in these terms. Nothing here is evaluated by the machine. -/

namespace Sys2Proof.Spec

open Sys2Proof.Machine

/-- `real(w)` of a finite binary32 value (R13). -/
noncomputable def realOf (w : Word) : ℝ := (scaled w : ℝ) / 2 ^ 149

/-- The binary32 magnitude nearest to `x` units of 2^-149, ties to even, infinity on overflow (R13). -/
noncomputable def roundUnits (x : ℝ) : Nat :=
  let t := Nat.log2 ⌊x⌋₊ - 23
  let m := ⌊x / 2 ^ t⌋₊
  let r := x / 2 ^ t - m
  haveI := Classical.dec (1 / 2 < r ∨ (r = 1 / 2 ∧ m % 2 = 1))
  min infMagnitude (t * 2 ^ 23 + m + if 1 / 2 < r ∨ (r = 1 / 2 ∧ m % 2 = 1) then 1 else 0)

/-- `round32(r)` (R13); the sign of zero is that of the real rounded, and an exact zero is +0.0 (R131). -/
noncomputable def round32 (r : ℝ) : Word :=
  haveI := Classical.dec (r < 0)
  ofSignMagnitude (decide (r < 0)) (roundUnits (|r| * 2 ^ 149))

/-- The prewarped frequency k (R121). -/
noncomputable def prewarp (cutoff fs : Word) : ℝ := Real.tan (Real.pi * realOf cutoff / realOf fs)

/-- The exact real coefficients of a section (R124). -/
structure RealSection where
  b0 : ℝ
  b1 : ℝ
  b2 : ℝ
  a0 : ℝ
  a1 : ℝ
  a2 : ℝ

/-- `SOS2(type, k, Q)` (R124). -/
noncomputable def sos2 (ty : FilterType) (k Q : ℝ) : RealSection :=
  let D := 1 + k / Q + k ^ 2
  match ty with
  | .lowPass => ⟨k ^ 2 / D, 2 * k ^ 2 / D, k ^ 2 / D, 1, 2 * (k ^ 2 - 1) / D, (1 - k / Q + k ^ 2) / D⟩
  | .highPass => ⟨1 / D, -2 / D, 1 / D, 1, 2 * (k ^ 2 - 1) / D, (1 - k / Q + k ^ 2) / D⟩

/-- `SOS1(type, k)` (R125). -/
noncomputable def sos1 (ty : FilterType) (k : ℝ) : RealSection :=
  let D := 1 + k
  match ty with
  | .lowPass => ⟨k / D, k / D, 0, 1, (k - 1) / D, 0⟩
  | .highPass => ⟨1 / D, -1 / D, 0, 1, (k - 1) / D, 0⟩

/-- `Q_i` of Butterworth order `n` (R126). -/
noncomputable def qFactor (n i : Nat) : ℝ :=
  if n % 2 = 0 then 1 / (2 * Real.cos ((2 * i + 1) * Real.pi / (2 * n)))
  else 1 / (2 * Real.cos ((i + 1) * Real.pi / n))

/-- `Qs(n)`: n/2 factors for an even order, (n - 1)/2 for an odd one (R126). -/
noncomputable def qFactors (n : Nat) : List ℝ := (List.range (n / 2)).map (qFactor n)

/-- `BW(type, k, n)` (R127). -/
noncomputable def butterworth (ty : FilterType) (k : ℝ) (n : Nat) : List RealSection :=
  if n % 2 = 0 then (qFactors n).map (sos2 ty k) else sos1 ty k :: (qFactors n).map (sos2 ty k)

/-- `LR(type, k, n)` (R128). -/
noncomputable def linkwitzRiley (ty : FilterType) (k : ℝ) (n : Nat) : List RealSection :=
  let M := if n % 2 = 0 then n else n + 1
  let m := M / 2
  if m % 2 = 0 then butterworth ty k m ++ butterworth ty k m
  else [sos2 ty k (1 / 2)] ++ (butterworth ty k m).tail ++ (butterworth ty k m).tail

/-- The sections of DesignFn before rounding (R129). -/
noncomputable def realDesign (fam : Family) (ty : FilterType) (cutoff fs : Word) (order : Nat) : List RealSection :=
  match fam with
  | .butterworth => butterworth ty (prewarp cutoff fs) order
  | .linkwitzRiley => linkwitzRiley ty (prewarp cutoff fs) order

/-- A section's coefficients, each rounded once to binary32, with a0 = 1.0 (R129, R130, R131). -/
noncomputable def RealSection.rounded (r : RealSection) : Coefs :=
  { b0 := round32 r.b0, b1 := round32 r.b1, b2 := round32 r.b2, a0 := 0x3F800000, a1 := round32 r.a1, a2 := round32 r.a2 }

/-- The enclosure `i`, at precision `p`, holds the real `x`. -/
def Encloses (p : Nat) (i : Ival) (x : ℝ) : Prop := (i.lo : ℝ) ≤ x * 2 ^ p ∧ x * 2 ^ p ≤ (i.hi : ℝ)

/-- The enclosures of a section hold its exact coefficients. -/
def EnclosesSection (p : Nat) (s : Section) (r : RealSection) : Prop :=
  Encloses p s.b0 r.b0 ∧ Encloses p s.b1 r.b1 ∧ Encloses p s.b2 r.b2 ∧ Encloses p s.a1 r.a1 ∧ Encloses p s.a2 r.a2 ∧
  r.a0 = 1

end Sys2Proof.Spec
end

