-- ==== Sys2Proof/Certificates/Slice0/Obligations.lean ====
section
/-! DEFINITION. The statements made about the model, for the provers. Each docstring names the rule it formalises. -/

open Sys2Proof Sys2Proof.Machine

/-! ## Encoding (30_encoding.md, 20_memory.md) -/

/-- R91 to R95, R99 to R101: decoding the words of any command that fits its encoding gives the command back, on its own
port, with every operand and every reserved bit, and leaves the words after it. -/
def Obligations.DecodeOfEncode : Prop :=
  ∀ (i : Instr) (rest : List Word), i.WellFormed → decode i.port (encode i ++ rest) = .ok (i, rest)

/-- R91 to R95, R99 to R101, R110: a command read from a port's words is well formed, arrived on that port, and its words
stood at the front: one meaning for each word sequence, and no bit of it dropped. -/
def Obligations.EncodeOfDecode : Prop :=
  ∀ (p : Port) (ws : List Word) (i : Instr) (rest : List Word), decode p ws = .ok (i, rest) →
    i.port = p ∧ i.WellFormed ∧ ws = encode i ++ rest

/-- R96: the header alone fixes how many words a command consumes, whatever the port, the reserved bits and the state:
2 for OPC 1 and 8, 1 + 2·H[15:0] for OPC 2, 1 for every other; the next header is the word after them. -/
def Obligations.HeaderFixesLength : Prop :=
  ∀ (p : Port) (h : Word) (payload rest : List Word),
    let opc := h.extractLsb' 28 4
    let n := if opc = 1 ∨ opc = 8 then 2 else if opc = 2 then 1 + 2 * (h.extractLsb' 0 16).toNat else 1
    1 + payload.length = n →
      ∃ i : Instr, decode p (h :: payload ++ rest) = .ok (i, rest) ∧ i.port = p ∧ i.opc = opc

/-- R313, on the decoder's side: with fewer payload words than the header announces no command is read, and the decoder
says how many words the command needs. -/
def Obligations.IncompleteCommandIsNotRead : Prop :=
  ∀ (p : Port) (h : Word) (ws : List Word), ws.length < payloadLength h →
    decode p (h :: ws) = .error (.incomplete (1 + payloadLength h))

/-- R114: the encoding examples, from the assembler's text to the words. -/
def Obligations.EncodingExamples : Prop :=
  let words (line : String) : Option (List Word) := (assemble line).toOption.map encode
  words "str: prepare fs=48000.0, maxblk=4" = some [0x10000004, 0x473B8000] ∧
  words "str: prepare fs=44100.0, maxblk=512" = some [0x10000200, 0x472C4400] ∧
  words "ctl: set_settings slope=1, type=lp, family=bw, cutoff=1000.0" = some [0x80000011, 0x447A0000] ∧
  words "ctl: set_settings slope=1, type=lp, family=lr, cutoff=1000.0" = some [0x80000031, 0x447A0000] ∧
  words "ctl: set_settings slope=7, type=lp, family=bw, cutoff=24000.0" = some [0x80000017, 0x46BB8000] ∧
  words "str: process_block (1.0, 0.0), (0.0, 1.0)" =
    some [0x20000002, 0x3F800000, 0x00000000, 0x00000000, 0x3F800000] ∧
  words "str: process_block" = some [0x20000000] ∧
  words "str: release" = some [0x30000000] ∧
  words "str: read_stage ch=1, idx=3" = some [0x40000007] ∧
  words "str: read_status" = some [0x50000000] ∧
  words "ctl: get_settings" = some [0x90000000]

/-- R91 to R95, R100, R101: header words written out bit by bit decode to the commands they stand for, on either port. -/
def Obligations.HeaderWordsDecode : Prop :=
  decode .stream [0b00010000000000000000000000000100, 0x473B8000] = .ok (.prepare .stream 0 4 0x473B8000, []) ∧
  decode .stream [0b00010000000000010000000000000100, 0x473B8000] = .ok (.prepare .stream 1 4 0x473B8000, []) ∧
  decode .control [0b00100000000000000000000000000001, 1, 2, 3] = .ok (.processBlock .control 0 [⟨1, 2⟩], [3]) ∧
  decode .stream [0b01000000000000000000000000000111] = .ok (.readStage .stream 0 .right 3, []) ∧
  decode .stream [0b01000000000000000000000000001010] = .ok (.readStage .stream 1 .left 2, []) ∧
  decode .control [0b10000000000000000000000000110001, 0x447A0000] =
    .ok (.setSettings .control 0 .linkwitzRiley .lowPass 1 0x447A0000, []) ∧
  decode .control [0b10010000000000000000000000000000] = .ok (.getSettings .control 0, []) ∧
  decode .stream [0b01100000000000000000000000000101] = .ok (.reserved6 .stream 5, [])

/-- R113: the assembler makes only commands of the opcode map, each fitting its encoding; it refuses a slope outside 0..15,
a maxblk outside 0..65535, a block of more than 65535 frames and any field value its width cannot hold; and
a slope of 8 to 15 and a maxblk of 0 are encodable. -/
def Obligations.AssemblerNeverClamps : Prop :=
  (∀ (l : AsmLine) (i : Instr), l.command = .ok i → i.Legal ∧ i.WellFormed) ∧
  (∀ (slope : Nat) (ty : FilterType) (fam : Family) (c : Literal),
    AsmLine.command (.setSettings slope ty fam c) =
      if slope ≤ 15 then .ok (.setSettings .control 0 fam ty (BitVec.ofNat 4 slope) c.word) else .error .slopeTooLarge) ∧
  (∀ (f : Literal) (m : Nat),
    AsmLine.command (.prepare f m) =
      if m ≤ 65535 then .ok (.prepare .stream 0 (BitVec.ofNat 16 m) f.word) else .error .maxblkTooLarge) ∧
  (∀ fs : List (Literal × Literal), 65535 < fs.length → AsmLine.command (.processBlock fs) = .error .tooManyFrames) ∧
  (∀ ch idx : Nat, 1 < ch ∨ 3 < idx → AsmLine.command (.readStage ch idx) = .error .noSuchStage)

/-- R79, R80: a link that carries words as bytes sends the least significant byte first, and takes them in that order; it
delivers the words sent, and a partial word at the end is no word. -/
def Obligations.ByteLinkDeliversWords : Prop :=
  (∀ b0 b1 b2 b3 : Byte, bytesOfWord (b3 ++ b2 ++ b1 ++ b0) = [b0, b1, b2, b3] ∧
    wordsOfBytes [b0, b1, b2, b3] = ([b3 ++ b2 ++ b1 ++ b0], [])) ∧
  bytesOfWord 0x44332211 = [0x11, 0x22, 0x33, 0x44] ∧
  ∀ (ws : List Word) (tail : List Byte), tail.length < 4 →
    wordsOfBytes (ws.flatMap bytesOfWord ++ tail) = (ws, tail)

/-! ## Steps (20_memory.md, 70_reset_and_hazards.md) -/

/-- A step runs the command it decodes: with a complete command on one port alone, that one (R313: the other port may be
waiting); with one on each, that of the port whose turn it is (R74). Its words are consumed, and the turn with them. The turns
are the model's own (notes/assumptions/4.md). -/
def Obligations.StepRunsTheDecodedCommand : Prop :=
  ∀ (s : State) (p : Port) (i : Instr) (rest : List Word), decode p (s.input p) = .ok (i, rest) →
    ((∀ q, q ≠ p → s.ready q = false) → step s = exec i { s.setInput p rest with turns := s.turns.tail }) ∧
    (∀ ts, s.turns = p :: ts → step s = exec i { s.setInput p rest with turns := ts })

/-- R312, R313: when no port holds a complete command the block waits for words and changes nothing; a port stuck on an
incomplete command stays stuck. That the machine then takes a step of waiting is the model's choice (notes/assumptions/5.md). -/
def Obligations.StepWaitsForWords : Prop :=
  ∀ s : State, (∀ p, s.ready p = false) → step s = .next s

/-- R74: the model admits every interleaving: with a complete command on each port, either can be the next one executed,
whatever the state otherwise. The turns are the model's own (notes/assumptions/4.md). -/
def Obligations.EitherPortCanBeNext : Prop :=
  ∀ (s : State) (p : Port) (i : Instr) (rest : List Word), decode p (s.input p) = .ok (i, rest) →
    ∀ ts : List Port, step { s with turns := p :: ts } = exec i { s.setInput p rest with turns := ts }

/-- R74, R33: a step consumes one whole command, a term within the operand ranges, from the front of at most one port's stream,
and the other port's words stay as they are: each port's own order is kept. -/
def Obligations.StepKeepsEachPortsOrder : Prop :=
  ∀ s t : State, step s = .next t →
    (t.ctlIn = s.ctlIn ∧ t.strIn = s.strIn) ∨
    (∃ i : Instr, i.WellFormed ∧ i.port = .control ∧ s.ctlIn = encode i ++ t.ctlIn ∧ t.strIn = s.strIn) ∨
    (∃ i : Instr, i.WellFormed ∧ i.port = .stream ∧ s.strIn = encode i ++ t.strIn ∧ t.ctlIn = s.ctlIn)

/-- A word of the opcode table placed where the step takes its next command is the command the step runs, in the state as
it was (the model's own placing, notes/assumptions/8.md). -/
def Obligations.PlacedWordRuns : Prop :=
  ∀ (s : State) (nbits w : Nat) (i : Instr), decodeTableWord nbits w = some i →
    step (s.withFetchWord nbits w) = exec i s

/-! ## Reset and invariants (10_state.md, 70_reset_and_hazards.md) -/

/-- R300: power-on reset sets every state element to its value, and both streams of both ports are empty. -/
def Obligations.ResetSetsEveryElement : Prop :=
  (∀ (ch : Channel) (i : Fin 4), (State.reset.chain ch).get i =
    { coef := { b0 := 0x3F800000, b1 := 0, b2 := 0, a0 := 0x3F800000, a1 := 0, a2 := 0 },
      bypass := true, s1 := 0, s2 := 0 }) ∧
  State.reset.settings = { cutoff := 0x447A0000, type := .highPass, family := .butterworth, slope := 0 } ∧
  State.reset.fs = 0 ∧ State.reset.maxblk = 0 ∧
  State.reset.lifecycle = .stopped ∧ State.reset.lastupd = .noUpdate ∧
  State.reset.ctlIn = [] ∧ State.reset.strIn = [] ∧ State.reset.ctlOut = [] ∧ State.reset.strOut = []

/-- R302: the state after reset satisfies every invariant, and the readback commands return what the rule says. -/
def Obligations.ResetReadsBack : Prop :=
  State.reset.Inv ∧
  (∀ (ch : Channel) (i : Fin 4), exec (.readStage .stream 0 ch i) State.reset =
    .next { State.reset with strOut := [0x40000000, 0x3F800000, 0, 0, 0x3F800000, 0, 0, 1] }) ∧
  exec (.readStatus .stream 0) State.reset =
    .next { State.reset with strOut := [0x50000000, 0x00000000, 0x00000000, 0x00000000] } ∧
  exec (.getSettings .control 0) State.reset =
    .next { State.reset with ctlOut := [0x90000000, 0x00000000, 0x447A0000] }

/-- R37, R38, R42, R43, R45, R226: every step, from every state that meets the invariant, keeps it. -/
def Obligations.StepKeepsInvariant : Prop :=
  ∀ s t : State, s.Inv → step s = .next t → t.Inv

/-- R37: in every reachable state both chains hold the same coefficients, bit for bit, and the same bypass flags; and every
step keeps that from any state that has it, reachable or not. -/
def Obligations.ChannelIdentity : Prop :=
  (∀ s : State, s.Reachable → ∀ i : Fin 4,
    (s.left.get i).coef = (s.right.get i).coef ∧ (s.left.get i).bypass = (s.right.get i).bypass) ∧
  (∀ s t : State, s.left.SameConfig s.right → step s = .next t → t.left.SameConfig t.right)

/-- R38, R44, R42: every reachable state meets the invariant, whatever the agents send and however the ports interleave. -/
def Obligations.ReachableStatesMeetInvariant : Prop := ∀ s : State, s.Reachable → s.Inv

/-! ## The update (41_stage_mapper_and_update.md), for any design function -/

/-- R162, R163, R170: a slope above 7 is rejected first, then a cutoff that is not finite, not positive or not below FS/2,
both with REJECTED_INVALID_PARAMETER, and nothing but LASTUPD is written. -/
def Obligations.UpdateRejectsInvalidParameter : Prop :=
  ∀ (cfg : Config) (s : State),
    (7 < s.settings.slope.toNat ∨
     ¬ (isFinite32 s.settings.cutoff = true ∧ 0 < scaled s.settings.cutoff ∧
        2 * scaled s.settings.cutoff < scaled s.fs)) →
    update cfg s = ({ s with lastupd := .rejectedInvalidParameter }, .rejectedInvalidParameter)

/-- R164, R165, R170: with slope and cutoff valid, a design with a coefficient that is not finite, or a section that fails
|a2| < 1 and |a1| < 1 + a2, is rejected with REJECTED_NUMERIC_INSTABILITY, and nothing but LASTUPD is written. -/
def Obligations.UpdateRejectsInstability : Prop :=
  ∀ (cfg : Config) (s : State), s.settings.slope.toNat ≤ 7 → cutoffValid s.settings.cutoff s.fs = true →
    (∃ c ∈ cfg.designFn s.settings.family s.settings.type s.settings.cutoff s.fs (s.settings.slope.toNat + 1),
      sectionFinite c = false ∨
      ¬ (|scaled c.a2| < 2 ^ 149 ∧ |scaled c.a1| < 2 ^ 149 + scaled c.a2)) →
    update cfg s = ({ s with lastupd := .rejectedNumericInstability }, .rejectedNumericInstability)

/-- R166, R168, R170: when every check passes, section i of the design goes to stage i of both chains, active; the other
stages hold the identity, bypassed; no delay register and no other element changes; LASTUPD is INSTALLED. -/
def Obligations.UpdateInstalls : Prop :=
  ∀ (cfg : Config) (s : State), s.settings.slope.toNat ≤ 7 → cutoffValid s.settings.cutoff s.fs = true →
    let secs := cfg.designFn s.settings.family s.settings.type s.settings.cutoff s.fs (s.settings.slope.toNat + 1)
    (∀ c ∈ secs, sectionFinite c = true ∧ sectionStable c = true) →
    ∃ t : State, update cfg s = (t, .installed) ∧
      t = { s with left := t.left, right := t.right, lastupd := .installed } ∧
      ∀ (ch : Channel) (i : Fin 4), (t.chain ch).get i =
        match secs[i.val]? with
        | some c => { (s.chain ch).get i with coef := c, bypass := false }
        | none => { (s.chain ch).get i with coef := identityCoefs, bypass := true }

/-- R160, R161: after an accepted update at slope index S, of any design function with the section count of R123, each chain
has ceil((S + 1)/2) active stages, the first ones: 1, 1, 2, 2, 3, 3, 4, 4 for S = 0 to 7. -/
def Obligations.SlopeSetsActiveStages : Prop :=
  ∀ (cfg : Config) (s t : State), cfg.Lawful → update cfg s = (t, .installed) →
    s.settings.slope.toNat ≤ 7 ∧
    ∀ (ch : Channel), (t.chain ch).active = (s.settings.slope.toNat + 2) / 2 ∧
      ∀ i : Fin 4, ((t.chain ch).get i).bypass = decide ((s.settings.slope.toNat + 2) / 2 ≤ i.val)

/-- R172: a rejected update writes LASTUPD and nothing else. -/
def Obligations.RejectedUpdateKeepsTheRest : Prop :=
  ∀ (cfg : Config) (s : State), (update cfg s).2 ≠ .installed →
    update cfg s = ({ s with lastupd := (update cfg s).2 }, (update cfg s).2)

/-- R169: a second update with the same snapshot and FS installs what is already there. -/
def Obligations.InstallIsIdempotent : Prop :=
  ∀ (cfg : Config) (s t : State), update cfg s = (t, .installed) → update cfg t = (t, .installed)

/-! ## The designer (40_coefficient_designer.md) -/

/-- R123, R130: the reference design returns ceil(order/2) sections, each with a0 = 1.0 exactly. -/
def Obligations.ReferenceDesignIsLawful : Prop := machineConfig.Lawful

/-- R121, R124 to R129: for the inputs the update passes, and at every precision, the reference design's enclosures hold,
section by section and coefficient by coefficient, the exact reals of the rules. -/
def Obligations.DesignEnclosesTheRules : Prop :=
  ∀ (p : Nat) (fam : Family) (ty : FilterType) (cutoff fs : Word) (order : Nat), cutoffValid cutoff fs = true →
    List.Forall₂ (Spec.EnclosesSection p) (sectionsOf p fam ty cutoff fs order)
      (Spec.realDesign fam ty cutoff fs order)

/-- R129, R130, R131: for the inputs the update passes, the reference design is the rules' exact sections in their order, each
coefficient rounded once to binary32, ties to even, with a0 = 1.0. -/
def Obligations.DesignRoundsOnce : Prop :=
  ∀ (fam : Family) (ty : FilterType) (cutoff fs : Word) (order : Nat), cutoffValid cutoff fs = true →
    referenceDesign fam ty cutoff fs order =
      (Spec.realDesign fam ty cutoff fs order).map Spec.RealSection.rounded

/-- R132, R133, R134: before rounding, every section of every design is strictly stable, its coefficients keep the bounds of R132,
and its gain is 1 at the end of the band it passes (z = 1 for LowPass, z = -1 for HighPass) and 0 at the other end. -/
def Obligations.ExactDesignIsStable : Prop :=
  ∀ (fam : Family) (ty : FilterType) (cutoff fs : Word) (order : Nat), cutoffValid cutoff fs = true →
    ∀ r ∈ Spec.realDesign fam ty cutoff fs order,
      |r.a2| < 1 ∧ |r.a1| < 1 + r.a2 ∧ |r.a1| < 2 ∧ 0 < r.b0 ∧ r.b0 ≤ 1 ∧ |r.b1| ≤ 2 ∧ 0 ≤ r.b2 ∧ r.b2 ≤ 1 ∧
      (match ty with
        | .lowPass => r.b0 + r.b1 + r.b2 = r.a0 + r.a1 + r.a2 ∧ r.b0 - r.b1 + r.b2 = 0
        | .highPass => r.b0 - r.b1 + r.b2 = r.a0 - r.a1 + r.a2 ∧ r.b0 + r.b1 + r.b2 = 0)

/-- R132: under the inputs the update passes, every coefficient the reference design returns is finite. -/
def Obligations.ReferenceDesignIsFinite : Prop :=
  ∀ (fam : Family) (ty : FilterType) (cutoff fs : Word) (order : Nat), cutoffValid cutoff fs = true →
    ∀ c ∈ referenceDesign fam ty cutoff fs order, sectionFinite c = true

/-- R133, R165, with 95_test_vectors.md sections 2.1 and 2.3: the default design at 48 kHz, the rounded section with a pole on
z = -1, and the two other designs named there that fail the stability check. -/
def Obligations.DesignExamples : Prop :=
  referenceDesign .butterworth .highPass 0x447A0000 0x473B8000 1 =
    [⟨0x3F7040C4, 0xBF7040C4, 0, 0x3F800000, 0xBF608188, 0⟩] ∧
  ((referenceDesign .butterworth .lowPass 0x46BB7FFF 0x473B8000 8)[0]?).map (fun c => (c.a1, c.a2, sectionStable c)) =
    some (0x3FFFFFFC, 0x3F7FFFF8, false) ∧
  (referenceDesign .butterworth .lowPass 0x46BB7E00 0x473B8000 8).map sectionStable = [true, false, false, true] ∧
  (referenceDesign .butterworth .highPass 0x0DA24260 0x473B8000 1).map sectionStable = [false]

/-! ## Arithmetic and the cascade (00_scope.md R13, 42_cascade_processing.md) -/

/-- R13: `roundMagnitude` rounds to nearest: no finite binary32 magnitude is nearer to num/den units of 2^-149, of two equally
near ones the even one is taken, and the result is infinity exactly from half a unit in the last place beyond the
largest finite value on. -/
def Obligations.RoundsToNearestEven : Prop :=
  ∀ (num den : Nat), 0 < den →
    (roundMagnitude num den = infMagnitude ↔ (2 ^ 25 - 1) * 2 ^ 253 * den ≤ 2 * num) ∧
    (roundMagnitude num den < infMagnitude →
      ∀ m : Nat, m < infMagnitude →
        |(num : Int) - scaledMagnitude (roundMagnitude num den) * den| ≤ |(num : Int) - scaledMagnitude m * den| ∧
        (|(num : Int) - scaledMagnitude (roundMagnitude num den) * den| = |(num : Int) - scaledMagnitude m * den| →
          m ≠ roundMagnitude num den → roundMagnitude num den % 2 = 0))

/-- R13, R191: on finite operands `f32_add`, `f32_sub` and `f32_mul` are the exact sum, difference and product rounded once; an
exact zero has the sign IEEE 754 gives it, -0.0 only from a sum of two -0.0 (or -0.0 less +0.0) and from a product of
unlike signs. An infinity outlasts a finite operand, and like signs add; ∞ - ∞, 0·∞ and any NaN operand give the free
quiet NaN. -/
def Obligations.ArithmeticRoundsOnce : Prop :=
  ∀ (nan : BitVec 23) (a b : Word),
    let x := Spec.realOf a
    let y := Spec.realOf b
    let signed (neg : Bool) (w : Word) : Word := if neg then w ||| 0x80000000 else w
    (isFinite32 a = true → isFinite32 b = true →
      f32Add nan a b = (if x + y = 0 then signed (signBit a && signBit b) 0 else Spec.round32 (x + y)) ∧
      f32Sub nan a b = (if x - y = 0 then signed (signBit a && !signBit b) 0 else Spec.round32 (x - y)) ∧
      f32Mul nan a b = (if x * y = 0 then signed (signBit a != signBit b) 0 else Spec.round32 (x * y))) ∧
    (isInf32 a = true → isFinite32 b = true →
      f32Add nan a b = a ∧ f32Add nan b a = a ∧ f32Sub nan a b = a ∧ f32Sub nan b a = a ^^^ 0x80000000 ∧
      f32Mul nan a b = f32Mul nan b a ∧
      f32Mul nan a b = if y = 0 then quietNaN nan else signed (signBit a != signBit b) 0x7F800000) ∧
    (isInf32 a = true → isInf32 b = true →
      f32Add nan a b = (if signBit a = signBit b then a else quietNaN nan) ∧
      f32Sub nan a b = (if signBit a = signBit b then quietNaN nan else a) ∧
      f32Mul nan a b = signed (signBit a != signBit b) 0x7F800000) ∧
    (isNaN32 a = true ∨ isNaN32 b = true →
      f32Add nan a b = quietNaN nan ∧ f32Sub nan a b = quietNaN nan ∧ f32Mul nan a b = quietNaN nan)

/-- R190, R191, R205: the stage steps of 95_test_vectors.md section 3.3, every row of its table, of the HighPass Butterworth
order-1 section from +0.0 delay state; and the four steps of the second-order section of program P2 at an impulse and at
a step, with the delay state they end in. All whatever the free NaN bits. -/
def Obligations.StageStepExamples : Prop :=
  let quiet (w : Word) : Prop := isNaN32 w = true ∧ w.getLsbD 22 = true
  let first : Coefs := ⟨0x3F7040C4, 0xBF7040C4, 0, 0x3F800000, 0xBF608188, 0⟩
  let second : Coefs := ⟨0x3B8052DA, 0x3C0052DA, 0x3B8052DA, 0x3F800000, 0xBFE85D19, 0x3F54BCC8⟩
  (∀ draw : Nat,
    let row (x : Word) := referenceStage first 0 0 x draw
    row 0x3F800000 = ⟨0x3F7040C4, 0xBDEC7440, 0x00000000⟩ ∧
    row 0x80000000 = ⟨0x00000000, 0x00000000, 0x80000000⟩ ∧
    row 0x00000001 = ⟨0x00000001, 0x00000000, 0x00000000⟩ ∧
    (row 0x7F800000).y = 0x7F800000 ∧ quiet (row 0x7F800000).s1 ∧ quiet (row 0x7F800000).s2 ∧
    quiet (row 0x7FC00000).y ∧ quiet (row 0x7FC00000).s1 ∧ quiet (row 0x7FC00000).s2 ∧
    quiet (row 0x7F800001).y ∧ quiet (row 0x7F800001).s1 ∧ quiet (row 0x7F800001).s2) ∧
  (∀ d0 d1 d2 d3 : Nat,
    let run (later : Word) : List Word :=
      let o0 := referenceStage second 0 0 0x3F800000 d0
      let o1 := referenceStage second o0.s1 o0.s2 later d1
      let o2 := referenceStage second o1.s1 o1.s2 later d2
      let o3 := referenceStage second o2.s1 o2.s2 later d3
      [o0.y, o1.y, o2.y, o3.y, o3.s1, o3.s2]
    run 0x00000000 = [0x3B8052DA, 0x3C74CC9A, 0x3CE39E59, 0x3D1BBECA, 0x3D3C2798, 0xBD016CD9] ∧
    run 0x3F800000 = [0x3B8052DA, 0x3C9A7B04, 0x3D3F0CAF, 0x3DAD65BD, 0x3E01BA2E, 0xBD8812F1])

/-- R191: when a stage step writes a NaN, its quiet bit is set: a signalling NaN never leaves an active stage. -/
def Obligations.StageNaNsAreQuiet : Prop :=
  ∀ (c : Coefs) (s1 s2 x : Word) (draw : Nat),
    let o := referenceStage c s1 s2 x draw
    (isNaN32 o.y = true → o.y.getLsbD 22 = true) ∧ (isNaN32 o.s1 = true → o.s1.getLsbD 22 = true) ∧
    (isNaN32 o.s2 = true → o.s2.getLsbD 22 = true)

/-- R191, R308: a NaN that enters an active stage stays. From a NaN in s1 the step's output and both delay registers are NaN,
from a NaN in s2 the new s1 is, and a NaN input does the same as a NaN in s1. -/
def Obligations.NaNsPersist : Prop :=
  ∀ (c : Coefs) (s1 s2 x : Word) (draw : Nat),
    let o := referenceStage c s1 s2 x draw
    (isNaN32 s1 = true ∨ isNaN32 x = true → isNaN32 o.y = true ∧ isNaN32 o.s1 = true ∧ isNaN32 o.s2 = true) ∧
    (isNaN32 s2 = true → isNaN32 o.s1 = true)

/-- R193: a fully bypassed cascade returns every input bit pattern unchanged and changes nothing, for any stage function; and
a bypassed stage within a chain passes any sample unchanged. -/
def Obligations.BypassIsIdentity : Prop :=
  (∀ (cfg : Config) (frames : List Frame) (l r : Chain) (k : Nat),
    (∀ i : Fin 4, (l.get i).bypass = true ∧ (r.get i).bypass = true) →
    passFrames cfg frames l r k = { left := l, right := r, fresh := k, samples := frameWords frames }) ∧
  (∀ (cfg : Config) (st : Stage) (x : Word) (k : Nat), st.bypass = true →
    st.pass cfg x k = { y := x, stage := st, fresh := k })

/-- R39, R192, R194: processing frames changes no coefficient and no bypass flag, and holds the delay registers of every
bypassed stage, for any stage function. -/
def Obligations.BypassedStagesHold : Prop :=
  ∀ (cfg : Config) (frames : List Frame) (l r : Chain) (k : Nat) (i : Fin 4),
    let o := passFrames cfg frames l r k
    (o.left.get i).SameConfig (l.get i) ∧ (o.right.get i).SameConfig (r.get i) ∧
    ((l.get i).bypass = true → o.left.get i = l.get i) ∧ ((r.get i).bypass = true → o.right.get i = r.get i)

/-- R192, R196, R200, R201, for any stage function. Frames are processed in order: the outputs for the first frames do not depend
on the frames after them, the later frames start from the delay state the first ones left, and every frame gives two output
words. In one frame the left sample passes the slots 0, 1, 2, 3 of the left chain in that order, then the right sample those of
the right chain: an active slot applies the stage function to its own coefficients, its own s1 and s2 and the sample the slot
before it put out, and its s1 and s2 become the new ones; a bypassed slot hands the sample on and holds. Which number each stage
step's free values take is the model's own (notes/assumptions/3.md). -/
def Obligations.FramesRunInOrder : Prop :=
  (∀ (cfg : Config) (fs gs : List Frame) (l r : Chain) (k : Nat),
    let o := passFrames cfg fs l r k
    let q := passFrames cfg gs o.left o.right o.fresh
    passFrames cfg (fs ++ gs) l r k = { q with samples := o.samples ++ q.samples } ∧
    o.samples.length = 2 * fs.length) ∧
  (∀ (cfg : Config) (f : Frame) (l r : Chain) (k : Nat),
    let slot (st : Stage) (x : Word) (n : Nat) : Word × Stage × Nat :=
      if st.bypass then (x, st, n)
      else
        let o := cfg.stageFn st.coef st.s1 st.s2 x n
        (o.y, { coef := st.coef, bypass := false, s1 := o.s1, s2 := o.s2 }, n + 1)
    let a0 := slot (l.get 0) f.left k
    let a1 := slot (l.get 1) a0.1 a0.2.2
    let a2 := slot (l.get 2) a1.1 a1.2.2
    let a3 := slot (l.get 3) a2.1 a2.2.2
    let b0 := slot (r.get 0) f.right a3.2.2
    let b1 := slot (r.get 1) b0.1 b0.2.2
    let b2 := slot (r.get 2) b1.1 b1.2.2
    let b3 := slot (r.get 3) b2.1 b2.2.2
    let o := passFrames cfg [f] l r k
    o.samples = [a3.1, b3.1] ∧ o.fresh = b3.2.2 ∧
    o.left.get 0 = a0.2.1 ∧ o.left.get 1 = a1.2.1 ∧ o.left.get 2 = a2.2.1 ∧ o.left.get 3 = a3.2.1 ∧
    o.right.get 0 = b0.2.1 ∧ o.right.get 1 = b1.2.1 ∧ o.right.get 2 = b2.2.1 ∧ o.right.get 3 = b3.2.1)

/-- R195, its independence: what the left channel puts out does not depend on the right samples, the right chain or the number
of the next free value, but for the bits of NaNs; nor the right channel on the left. -/
def Obligations.ChannelsAreIndependent : Prop :=
  ∀ (fs gs : List Frame) (l l' r r' : Chain) (k k' : Nat), fs.length = gs.length →
    ∃ ys zs : List Frame,
      (passFrames machineConfig fs l r k).samples = frameWords ys ∧
      (passFrames machineConfig gs l' r' k').samples = frameWords zs ∧
      (l.NaNEq l' → fs.map Frame.left = gs.map Frame.left →
        List.Forall₂ NaNEq (ys.map Frame.left) (zs.map Frame.left)) ∧
      (r.NaNEq r' → fs.map Frame.right = gs.map Frame.right →
        List.Forall₂ NaNEq (ys.map Frame.right) (zs.map Frame.right))

/-- R195: from equal delay states and equal configurations, equal input sequences on the two channels give equal output
sequences, but for the bits of NaNs. -/
def Obligations.EqualChannelsAgree : Prop :=
  ∀ (fs : List Frame) (l r : Chain) (k : Nat), l.NaNEq r → (∀ f ∈ fs, f.left = f.right) →
    ∃ ys : List Frame, (passFrames machineConfig fs l r k).samples = frameWords ys ∧ ys.length = fs.length ∧
      (∀ y ∈ ys, NaNEq y.left y.right)

/-! ## Commands: what each completes with (42, 43, 44, 60) -/

/-- R220: PREPARE on the stream port with no reserved bit set, FS finite and positive and MAXBLK not 0: FS and MAXBLK are
written, every delay register is +0.0, an update runs on that state, LIFECYCLE is PREPARED, and one status word with
the update's code answers, in every lifecycle state and whatever the update's outcome. -/
def Obligations.PrepareCompletes : Prop :=
  ∀ (m : BitVec 16) (f : Word) (s : State), isFinite32 f = true → 0 < scaled f → m ≠ 0 →
    ∃ t : State, exec (.prepare .stream 0 m f) s = .next t ∧
      (∀ (ch : Channel) (i : Fin 4), ((t.chain ch).get i).s1 = 0 ∧ ((t.chain ch).get i).s2 = 0) ∧
      (let u := update machineConfig ({ s with fs := f, maxblk := m }.clearDelay)
       t = { s with
         left := u.1.left, right := u.1.right, fs := f, maxblk := m, lifecycle := .prepared, lastupd := u.2
         strOut := s.strOut ++ [statusWord 0x1 u.2 .okay] })

/-- R221: PREPARE whose FS is a NaN, an infinity, ±0 or negative, or whose MAXBLK is 0, is rejected with INVALID_PARAMETER and
changes no state. -/
def Obligations.PrepareRejectsOperands : Prop :=
  ∀ (m : BitVec 16) (f : Word) (s : State),
    isNaN32 f = true ∨ isInf32 f = true ∨ scaled f ≤ 0 ∨ m = 0 →
    exec (.prepare .stream 0 m f) s = .next { s with strOut := s.strOut ++ [0x10000001] }

/-- R200: PROCESS_BLOCK on the stream port with no reserved bit set, not STOPPED and with at most MAXBLK frames: an update,
then every frame through both chains with the coefficients it left, LIFECYCLE RUNNING, and the status word with the
update's code, then the output samples. -/
def Obligations.ProcessBlockCompletes : Prop :=
  ∀ (frames : List Frame) (s : State), s.lifecycle ≠ .stopped → frames.length ≤ s.maxblk.toNat →
    let u := update machineConfig s
    let o := passFrames machineConfig frames u.1.left u.1.right s.fresh
    exec (.processBlock .stream 0 frames) s = .next
      { s with
        left := o.left, right := o.right, fresh := o.fresh, lifecycle := .running, lastupd := u.2
        strOut := s.strOut ++ statusWord 0x2 u.2 .okay :: o.samples }

/-- R200, R204, R274: PROCESS_BLOCK while STOPPED or with more than MAXBLK frames is rejected with HOST_PROTOCOL_ERROR: no
update, no output sample, no state changed. -/
def Obligations.ProcessBlockRejects : Prop :=
  ∀ (frames : List Frame) (s : State), s.lifecycle = .stopped ∨ s.maxblk.toNat < frames.length →
    exec (.processBlock .stream 0 frames) s = .next { s with strOut := s.strOut ++ [0x20000002] }

/-- R203: PROCESS_BLOCK with N = 0 while not STOPPED runs the update, sends the status word alone, changes no delay register
and sets LIFECYCLE to RUNNING. -/
def Obligations.EmptyBlockAppliesSettings : Prop :=
  ∀ s : State, s.lifecycle ≠ .stopped →
    ∃ t : State, exec (.processBlock .stream 0 []) s = .next t ∧
      t = { (update machineConfig s).1 with
        lifecycle := .running, strOut := s.strOut ++ [statusWord 0x2 (update machineConfig s).2 .okay] } ∧
      ∀ (ch : Channel) (i : Fin 4), ((t.chain ch).get i).s1 = ((s.chain ch).get i).s1 ∧
        ((t.chain ch).get i).s2 = ((s.chain ch).get i).s2

/-- R225: RELEASE sets LIFECYCLE to STOPPED and keeps everything else, in every lifecycle state. -/
def Obligations.ReleaseStops : Prop :=
  ∀ s : State, exec (.release .stream 0) s =
    .next { s with lifecycle := .stopped, strOut := s.strOut ++ [0x30000000] }

/-- R250: READ_STAGE answers the slot's six coefficients and its bypass flag, in every lifecycle state, and changes nothing. -/
def Obligations.ReadStageAnswers : Prop :=
  ∀ (ch : Channel) (i : Fin 4) (s : State),
    let st := (match ch with | .left => s.left | .right => s.right).get i
    exec (.readStage .stream 0 ch i) s = .next { s with
      strOut := s.strOut ++ [0x40000000, st.coef.b0, st.coef.b1, st.coef.b2, st.coef.a0, st.coef.a1, st.coef.a2,
        if st.bypass then 1 else 0] }

/-- R255: READ_STATUS answers STATE (LIFECYCLE in 1:0, LASTUPD in 5:4, the number of active stages of chain 0 in 10:8), FS and
MAXBLK, and changes nothing. -/
def Obligations.ReadStatusAnswers : Prop :=
  ∀ s : State,
    let active := ([0, 1, 2, 3] : List (Fin 4)).countP fun i => !(s.left.get i).bypass
    let lastupd := match s.lastupd with
      | .noUpdate => 0 | .installed => 1 | .rejectedInvalidParameter => 2 | .rejectedNumericInstability => 3
    let lifecycle := match s.lifecycle with | .stopped => 0 | .prepared => 1 | .running => 2
    exec (.readStatus .stream 0) s = .next { s with
      strOut := s.strOut ++ [0x50000000, BitVec.ofNat 32 (active * 256 + lastupd * 16 + lifecycle), s.fs,
        BitVec.ofNat 32 s.maxblk.toNat] }

/-- R240: SET_SETTINGS stores all four fields as sent, whatever their values, in every lifecycle state; it runs no update. -/
def Obligations.SetSettingsStores : Prop :=
  ∀ (fam : Family) (ty : FilterType) (slope : BitVec 4) (cutoff : Word) (s : State),
    exec (.setSettings .control 0 fam ty slope cutoff) s = .next { s with
      settings := { cutoff := cutoff, type := ty, family := fam, slope := slope }
      ctlOut := s.ctlOut ++ [0x80000000] }

/-- R245: GET_SETTINGS answers SETWORD (SLOPE in 3:0, TYPE in 4, FAMILY in 5) and CUTOFF as stored, and changes nothing. -/
def Obligations.GetSettingsAnswers : Prop :=
  ∀ s : State,
    let ty := match s.settings.type with | .highPass => 0 | .lowPass => 1
    let fam := match s.settings.family with | .butterworth => 0 | .linkwitzRiley => 1
    exec (.getSettings .control 0) s = .next { s with
      ctlOut := s.ctlOut ++ [0x90000000, BitVec.ofNat 32 (s.settings.slope.toNat + 16 * ty + 32 * fam),
        s.settings.cutoff] }

/-- R100: each reserved opcode, on either port and whatever its bits 27:0, is rejected with ILLEGAL_COMMAND; the status word
echoes the opcode, and no state changes. -/
def Obligations.ReservedOpcodesRejected : Prop :=
  ∀ (p : Port) (low : BitVec 28) (s : State),
    exec (.reserved0 p low) s = .next (s.answered p 0x00000003) ∧
    exec (.reserved6 p low) s = .next (s.answered p 0x60000003) ∧
    exec (.reserved7 p low) s = .next (s.answered p 0x70000003) ∧
    exec (.reservedA p low) s = .next (s.answered p 0xA0000003) ∧
    exec (.reservedB p low) s = .next (s.answered p 0xB0000003) ∧
    exec (.reservedC p low) s = .next (s.answered p 0xC0000003) ∧
    exec (.reservedD p low) s = .next (s.answered p 0xD0000003) ∧
    exec (.reservedE p low) s = .next (s.answered p 0xE0000003) ∧
    exec (.reservedF p low) s = .next (s.answered p 0xF0000003)

/-- R98, R100, R102, R271: a command whose opcode is reserved, that arrived on the other port, or that has a reserved header
bit set, is rejected with ILLEGAL_COMMAND before any other check, and no state changes. -/
def Obligations.IllegalCommandsRejected : Prop :=
  ∀ (i : Instr) (s : State), i.homePort ≠ some i.port ∨ i.reservedClear = false →
    exec i s = .next (s.answered i.port (i.opc ++ 0x0000003#28))

/-! ## The whole machine (20_memory.md, 30_encoding.md, 60_exceptions.md) -/

/-- R103, R104, R105, R277: every command on every state answers exactly one status word first, in the format of R104, on its own
port and nothing on the other, with a payload only when RESULT is OK; no command faults or is refused. UPD is the code of the
update an accepted PREPARE or PROCESS_BLOCK ran, the outcome LASTUPD then names (1 installed, 2 invalid parameter, 3 numeric
instability), and 0 for every other command and every rejected one. -/
def Obligations.EveryCommandAnswers : Prop :=
  ∀ (i : Instr) (s : State), ∃ (t : State) (st : Word) (payload : List Word), exec i s = .next t ∧
    t.output i.port = s.output i.port ++ st :: payload ∧ (∀ q, q ≠ i.port → t.output q = s.output q) ∧
    st.extractLsb' 28 4 = i.opc ∧ st.extractLsb' 6 22 = 0 ∧ st.extractLsb' 2 2 = 0 ∧
    (st.extractLsb' 0 2 ≠ 0 → payload = [] ∧ st.extractLsb' 4 2 = 0) ∧
    (st.extractLsb' 0 2 = 0 → i.opc ≠ 0x1 → i.opc ≠ 0x2 → st.extractLsb' 4 2 = 0) ∧
    (st.extractLsb' 0 2 = 0 → i.opc = 0x1 ∨ i.opc = 0x2 →
      t.lastupd = .installed ∧ st.extractLsb' 4 2 = 1 ∨
      t.lastupd = .rejectedInvalidParameter ∧ st.extractLsb' 4 2 = 2 ∨
      t.lastupd = .rejectedNumericInstability ∧ st.extractLsb' 4 2 = 3)

/-- R270: a command that answers a RESULT other than OK leaves every state element unchanged: its one status word is all that
is added. -/
def Obligations.RejectionChangesNothing : Prop :=
  ∀ (i : Instr) (s t : State) (st : Word) (payload : List Word), exec i s = .next t →
    t.output i.port = s.output i.port ++ st :: payload → st.extractLsb' 0 2 ≠ 0 → t = s.answered i.port st

/-- R226: the LIFECYCLE transitions. An accepted PREPARE enters PREPARED, an accepted PROCESS_BLOCK enters RUNNING, an accepted
RELEASE enters STOPPED, and every other command, and every rejected one, leaves LIFECYCLE as it is. -/
def Obligations.LifecycleTransitions : Prop :=
  ∀ (i : Instr) (s t : State), exec i s = .next t →
    t.lifecycle =
      if i.Legal then
        match i with
        | .prepare _ _ m f => if fsValid f = true ∧ m ≠ 0 then .prepared else s.lifecycle
        | .processBlock _ _ fs =>
          if s.lifecycle ≠ .stopped ∧ fs.length ≤ s.maxblk.toNat then .running else s.lifecycle
        | .release _ _ => .stopped
        | _ => s.lifecycle
      else s.lifecycle

/-- R102, R280: no command on the control port changes anything but SETTINGS and its own responses, and no command on the
stream port changes SETTINGS. -/
def Obligations.PortsAreSplit : Prop :=
  ∀ (i : Instr) (s t : State), exec i s = .next t →
    (i.port = .control → t = { s with settings := t.settings, ctlOut := t.ctlOut }) ∧
    (i.port = .stream → t.settings = s.settings ∧ t.ctlOut = s.ctlOut)

/-- R39, R42, R73, R171: only a PREPARE changes FS or MAXBLK, and only a PREPARE or a PROCESS_BLOCK changes a coefficient, a bypass
flag, a delay register or LASTUPD; no command consumes a word or a turn of its own. -/
def Obligations.OnlyPrepareAndBlocksWrite : Prop :=
  ∀ (i : Instr) (s t : State), exec i s = .next t →
    (i.opc ≠ 0x1 → t.fs = s.fs ∧ t.maxblk = s.maxblk) ∧
    (i.opc ≠ 0x1 → i.opc ≠ 0x2 →
      t.left = s.left ∧ t.right = s.right ∧ t.lastupd = s.lastupd ∧ t.fresh = s.fresh) ∧
    t.ctlIn = s.ctlIn ∧ t.strIn = s.strIn ∧ t.turns = s.turns

/-- R256: a readback command inserted before any command changes neither that command's response words nor any state element
after it. -/
def Obligations.ReadbacksAreInvisible : Prop :=
  ∀ (r i : Instr) (s t u : State), Readback r → exec r s = .next t → exec i s = .next u →
    ∃ v : State, exec i t = .next v ∧ v = { u with ctlOut := v.ctlOut, strOut := v.strOut } ∧
      ∀ p : Port, ∃ answer : List Word, u.output p = s.output p ++ answer ∧ v.output p = t.output p ++ answer

/-- R81: PREPARE is idempotent at a fixed SETTINGS value: a second one, of the same operands, changes no state element. -/
def Obligations.PrepareIsIdempotent : Prop :=
  ∀ (m : BitVec 16) (f : Word) (s t u : State), exec (.prepare .stream 0 m f) s = .next t →
    exec (.prepare .stream 0 m f) t = .next u → u = { t with strOut := u.strOut }

/-- R74, R312: a run with words left on its ports goes on: a step from a state in which some port holds a complete command
answers a next state in which the streams hold fewer words. -/
def Obligations.EveryStepMakesProgress : Prop :=
  ∀ (s : State) (p : Port), s.ready p = true →
    ∃ t : State, step s = .next t ∧ t.ctlIn.length + t.strIn.length < s.ctlIn.length + s.strIn.length
end

