-- ==== Sys2Proof/Laws/Float32.lean ====
section
/-! SUPPORT. What the binary32 operations can do: where their one rounding lands, when their result is a NaN, and that
nothing but the bits of a NaN depends on a free value or on the bits of a NaN. -/

namespace Sys2Proof.Machine

/-! ## Values of magnitudes -/

theorem scaledMagnitude_succ_lt (m : Nat) : scaledMagnitude m < scaledMagnitude (m + 1) := by
  unfold scaledMagnitude
  by_cases hc : (m + 1) % 2 ^ 23 = 0
  · have e1 : (m + 1) / 2 ^ 23 = m / 2 ^ 23 + 1 := by omega
    have e2 : m % 2 ^ 23 = 2 ^ 23 - 1 := by omega
    rw [e1, hc, e2, if_neg (by omega : ¬ m / 2 ^ 23 + 1 = 0)]
    split
    · rename_i h; rw [h]; omega
    · rename_i h
      obtain ⟨k, hk⟩ := Nat.exists_eq_succ_of_ne_zero h
      rw [hk, Nat.succ_eq_add_one, Nat.add_sub_cancel, Nat.add_sub_cancel, pow_succ]
      have := Nat.two_pow_pos k
      omega
  · have e1 : (m + 1) / 2 ^ 23 = m / 2 ^ 23 := by omega
    have e2 : (m + 1) % 2 ^ 23 = m % 2 ^ 23 + 1 := by omega
    rw [e1, e2]
    split
    · omega
    · exact Nat.mul_lt_mul_of_pos_right (by omega) (Nat.two_pow_pos _)

/-- A larger magnitude is a larger number. -/
theorem scaledMagnitude_strictMono : StrictMono scaledMagnitude := strictMono_nat_of_lt_succ scaledMagnitude_succ_lt

/-- The magnitude with exponent step `t` and significand `m`, up to and with the first of the next step. -/
theorem scaledMagnitude_step {t m : Nat} (h1 : m ≤ 2 ^ 24) (h2 : 0 < t → 2 ^ 23 ≤ m) :
    scaledMagnitude (t * 2 ^ 23 + m) = m * 2 ^ t := by
  unfold scaledMagnitude
  rcases Nat.lt_or_ge m (2 ^ 23) with hm | hm
  · obtain rfl : t = 0 := by by_contra h; have := h2 (by omega); omega
    rw [if_pos (by omega)]; omega
  · rcases h1.eq_or_lt with rfl | h
    · rw [show (t * 2 ^ 23 + 2 ^ 24) / 2 ^ 23 = t + 2 by omega, show (t * 2 ^ 23 + 2 ^ 24) % 2 ^ 23 = 0 by omega,
        if_neg (by omega), show t + 2 - 1 = t + 1 by omega, pow_succ]
      have := Nat.two_pow_pos t
      omega
    · rw [show (t * 2 ^ 23 + m) / 2 ^ 23 = t + 1 by omega, if_neg (by omega), Nat.add_sub_cancel]
      congr 1
      omega

/-! ## Where a rounding lands -/

/-- `roundMagnitude` takes one of the two neighbouring magnitudes whose values `num / den` lies between: the upper one past
half way, the even one half way (R13), and infinity where the one taken is too large. -/
theorem roundMagnitude_between (num : Nat) {den : Nat} (hd : 0 < den) : ∃ M : Nat,
    scaledMagnitude M * den ≤ num ∧ num < scaledMagnitude (M + 1) * den ∧
    roundMagnitude num den = min infMagnitude (M +
      if (scaledMagnitude M + scaledMagnitude (M + 1)) * den < 2 * num ∨
        ((scaledMagnitude M + scaledMagnitude (M + 1)) * den = 2 * num ∧ M % 2 = 1) then 1 else 0) := by
  unfold roundMagnitude
  simp only
  set t := Nat.log2 (num / den) - 23 with ht
  set m := num / (den * 2 ^ t) with hm
  have hq : m = num / den / 2 ^ t := by rw [hm, Nat.div_div_eq_div_mul]
  have h1 : m < 2 ^ 24 := by
    rw [hq, Nat.div_lt_iff_lt_mul (Nat.two_pow_pos t)]
    by_cases h0 : num / den = 0
    · rw [h0]; positivity
    · refine (Nat.lt_log2_self (n := num / den)).trans_le ?_
      rw [← pow_add]
      exact Nat.pow_le_pow_right two_pos (by omega)
  have h2 : 0 < t → 2 ^ 23 ≤ m := by
    intro hpos
    rw [hq, Nat.le_div_iff_mul_le (Nat.two_pow_pos t), ← pow_add]
    have h0 : num / den ≠ 0 := by
      intro h
      rw [h, Nat.log2_zero] at ht
      omega
    exact le_trans (Nat.pow_le_pow_right two_pos (by omega)) (Nat.log2_self_le h0)
  have e1 : scaledMagnitude (t * 2 ^ 23 + m) = m * 2 ^ t := scaledMagnitude_step h1.le h2
  have e2 : scaledMagnitude (t * 2 ^ 23 + m + 1) = (m + 1) * 2 ^ t := by
    rw [Nat.add_assoc]; exact scaledMagnitude_step h1 fun h => (h2 h).trans (Nat.le_succ _)
  have hu : 0 < den * 2 ^ t := by positivity
  have hdiv := Nat.div_add_mod num (den * 2 ^ t)
  have hlt := Nat.mod_lt num hu
  rw [← hm] at hdiv
  refine ⟨t * 2 ^ 23 + m, ?_, ?_, ?_⟩
  · rw [e1, Nat.mul_assoc, Nat.mul_comm (2 ^ t), Nat.mul_comm m]; omega
  · rw [e2, Nat.mul_assoc, Nat.mul_comm (2 ^ t), Nat.mul_comm (m + 1), Nat.mul_succ]; omega
  · have e3 : (scaledMagnitude (t * 2 ^ 23 + m) + scaledMagnitude (t * 2 ^ 23 + m + 1)) * den =
        2 * (den * 2 ^ t * m) + den * 2 ^ t := by rw [e1, e2]; ring
    have e4 : (t * 2 ^ 23 + m) % 2 = m % 2 := by omega
    rw [e3, e4]
    congr 2
    refine if_congr ?_ rfl rfl
    constructor <;> rintro (h | ⟨h, h'⟩) <;> first | (left; omega) | (right; exact ⟨by omega, h'⟩)

theorem roundMagnitude_le (num den : Nat) : roundMagnitude num den ≤ infMagnitude := min_le_left _ _

/-! ## NaNs -/

theorem magnitude_of (neg : Bool) {m : Nat} (h : m < 2 ^ 31) : magnitude (ofSignMagnitude neg m) = m := by
  simp only [magnitude, ofSignMagnitude]
  rw [BitVec.extractLsb'_append_eq_right]
  simpa using h

theorem isNaN_ofSignMagnitude (neg : Bool) {m : Nat} (h : m ≤ infMagnitude) : isNaN32 (ofSignMagnitude neg m) = false := by
  unfold isNaN32
  rw [magnitude_of neg (h.trans_lt (by decide))]
  simpa using h

theorem isNaN_of_isInf {w : Word} (h : isInf32 w = true) : isNaN32 w = false := by
  unfold isInf32 at h
  unfold isNaN32
  rw [beq_iff_eq] at h
  simp [h]

/-- A free NaN is a NaN, and a quiet one (R191). -/
theorem isNaN_quietNaN (bits : BitVec 23) : isNaN32 (quietNaN bits) = true := by
  have : magnitude (quietNaN bits) = (0x1FF#9 ++ bits.extractLsb' 0 22).toNat := by
    unfold magnitude quietNaN
    congr 1
    rw [BitVec.append_assoc]
    exact BitVec.extractLsb'_append_eq_right
  unfold isNaN32
  rw [this, BitVec.toNat_append, decide_eq_true_eq, ← Nat.shiftLeft_add_eq_or_of_lt (bits.extractLsb' 0 22).isLt]
  simp only [infMagnitude, BitVec.toNat_ofNat, Nat.shiftLeft_eq]
  omega

theorem quiet_quietNaN (bits : BitVec 23) : (quietNaN bits).getLsbD 22 = true := by
  unfold quietNaN
  rw [BitVec.getLsbD_append, if_neg (by decide), BitVec.getLsbD_append]
  rfl

/-- The operands an addition makes a NaN of (R13). -/
def addInvalid (a b : Word) : Bool :=
  isNaN32 a || isNaN32 b || (isInf32 a && isInf32 b && (signBit a != signBit b))

/-- The operands a multiplication makes a NaN of (R13). -/
def mulInvalid (a b : Word) : Bool :=
  isNaN32 a || isNaN32 b || ((isInf32 a || isInf32 b) && (decide (magnitude a = 0) || decide (magnitude b = 0)))

/-- An addition writes its free NaN exactly for the operands it is invalid on, and otherwise a number that is no NaN and
does not depend on the free NaN. -/
theorem f32Add_cases (nan : BitVec 23) (a b : Word) :
    (addInvalid a b = true ∧ f32Add nan a b = quietNaN nan) ∨
    (addInvalid a b = false ∧ isNaN32 (f32Add nan a b) = false ∧ ∀ n, f32Add n a b = f32Add nan a b) := by
  have fin : ∀ neg num, isNaN32 (ofSignMagnitude neg (roundMagnitude num 1)) = false :=
    fun _ _ => isNaN_ofSignMagnitude _ (roundMagnitude_le _ _)
  unfold addInvalid f32Add
  by_cases ha : isNaN32 a = true
  · left; simp [ha]
  by_cases hb : isNaN32 b = true
  · left; simp [hb]
  rw [Bool.not_eq_true] at ha hb
  simp only [ha, hb, Bool.or_false, Bool.false_or, Bool.false_eq_true, if_false]
  by_cases ia : isInf32 a = true
  · by_cases ib : isInf32 b = true
    · by_cases hs : signBit a = signBit b
      · right; simp [ia, ib, hs, ha]
      · left; simp [ia, ib, hs]
    · rw [Bool.not_eq_true] at ib
      right; simp [ia, ib, ha]
  · rw [Bool.not_eq_true] at ia
    by_cases ib : isInf32 b = true
    · right; simp [ia, ib, hb]
    · rw [Bool.not_eq_true] at ib
      right
      simp only [ia, ib, Bool.and_false, Bool.false_and, Bool.false_eq_true, if_false, true_and, implies_true, and_true]
      split
      · exact isNaN_ofSignMagnitude _ (Nat.zero_le _)
      · exact fin _ _

/-- The same of a multiplication. -/
theorem f32Mul_cases (nan : BitVec 23) (a b : Word) :
    (mulInvalid a b = true ∧ f32Mul nan a b = quietNaN nan) ∨
    (mulInvalid a b = false ∧ isNaN32 (f32Mul nan a b) = false ∧ ∀ n, f32Mul n a b = f32Mul nan a b) := by
  unfold mulInvalid f32Mul
  by_cases ha : isNaN32 a = true
  · left; simp [ha]
  by_cases hb : isNaN32 b = true
  · left; simp [hb]
  rw [Bool.not_eq_true] at ha hb
  simp only [ha, hb, Bool.or_false, Bool.false_or, Bool.false_eq_true, if_false]
  by_cases hi : (isInf32 a || isInf32 b) = true
  · by_cases hz : magnitude a = 0 ∨ magnitude b = 0
    · left
      rw [if_pos hi, if_pos hz]
      simpa [hi] using hz
    · right
      simp only [if_pos hi, if_neg hz, implies_true, and_true]
      refine ⟨?_, isNaN_ofSignMagnitude _ le_rfl⟩
      simpa [hi, not_or] using hz
  · right
    simp only [if_neg hi, implies_true, and_true]
    rw [Bool.not_eq_true] at hi
    exact ⟨by simp [hi], isNaN_ofSignMagnitude _ (roundMagnitude_le _ _)⟩

theorem magnitude_neg (w : Word) : magnitude (f32Neg w) = magnitude w := by
  unfold magnitude f32Neg
  congr 1
  ext i hi
  simp only [BitVec.getElem_extractLsb', BitVec.getLsbD_xor, Nat.zero_add]
  have : (0x80000000#32).getLsbD i = false := by
    revert hi; revert i; decide
  simp [this]

theorem isNaN_neg (w : Word) : isNaN32 (f32Neg w) = isNaN32 w := by
  unfold isNaN32; rw [magnitude_neg]

theorem isNaN_add {a b : Word} (nan : BitVec 23) (h : isNaN32 a = true ∨ isNaN32 b = true) :
    isNaN32 (f32Add nan a b) = true := by
  rcases f32Add_cases nan a b with ⟨-, e⟩ | ⟨e, -, -⟩
  · rw [e]; exact isNaN_quietNaN nan
  · unfold addInvalid at e; rcases h with h | h <;> simp [h] at e

theorem isNaN_sub {a b : Word} (nan : BitVec 23) (h : isNaN32 a = true ∨ isNaN32 b = true) :
    isNaN32 (f32Sub nan a b) = true := isNaN_add nan (by rwa [isNaN_neg])

theorem isNaN_mul {a b : Word} (nan : BitVec 23) (h : isNaN32 a = true ∨ isNaN32 b = true) :
    isNaN32 (f32Mul nan a b) = true := by
  rcases f32Mul_cases nan a b with ⟨-, e⟩ | ⟨e, -, -⟩
  · rw [e]; exact isNaN_quietNaN nan
  · unfold mulInvalid at e; rcases h with h | h <;> simp [h] at e

/-- A NaN that an addition writes is quiet (R191). -/
theorem quiet_add {nan : BitVec 23} {a b : Word} (h : isNaN32 (f32Add nan a b) = true) :
    (f32Add nan a b).getLsbD 22 = true := by
  rcases f32Add_cases nan a b with ⟨-, e⟩ | ⟨-, e, -⟩
  · rw [e]; exact quiet_quietNaN nan
  · rw [e] at h; cases h

/-! ## Equality up to the bits of NaNs -/

theorem NaNEq.refl (a : Word) : NaNEq a a := .inl rfl

theorem NaNEq.isNaN {a b : Word} (h : NaNEq a b) : isNaN32 a = isNaN32 b := by
  rcases h with rfl | ⟨h1, h2⟩
  · rfl
  · rw [h1, h2]

theorem NaNEq.neg {a b : Word} (h : NaNEq a b) : NaNEq (f32Neg a) (f32Neg b) := by
  rcases h with rfl | ⟨h1, h2⟩
  · exact .inl rfl
  · exact .inr ⟨by rw [isNaN_neg, h1], by rw [isNaN_neg, h2]⟩

theorem NaNEq.add {a b c d : Word} (n m : BitVec 23) (h : NaNEq a b) (g : NaNEq c d) :
    NaNEq (f32Add n a c) (f32Add m b d) := by
  rcases h with rfl | ⟨h1, h2⟩
  · rcases g with rfl | ⟨g1, g2⟩
    · rcases f32Add_cases n a c with ⟨e, e'⟩ | ⟨e, -, e'⟩
      · rcases f32Add_cases m a c with ⟨-, e''⟩ | ⟨e2, -, -⟩
        · rw [e', e'']; exact .inr ⟨isNaN_quietNaN n, isNaN_quietNaN m⟩
        · rw [e] at e2; cases e2
      · exact .inl (e' m).symm
    · exact .inr ⟨isNaN_add n (.inr g1), isNaN_add m (.inr g2)⟩
  · exact .inr ⟨isNaN_add n (.inl h1), isNaN_add m (.inl h2)⟩

theorem NaNEq.sub {a b c d : Word} (n m : BitVec 23) (h : NaNEq a b) (g : NaNEq c d) :
    NaNEq (f32Sub n a c) (f32Sub m b d) := h.add n m g.neg

theorem NaNEq.mul {a b c d : Word} (n m : BitVec 23) (h : NaNEq a b) (g : NaNEq c d) :
    NaNEq (f32Mul n a c) (f32Mul m b d) := by
  rcases h with rfl | ⟨h1, h2⟩
  · rcases g with rfl | ⟨g1, g2⟩
    · rcases f32Mul_cases n a c with ⟨e, e'⟩ | ⟨e, -, e'⟩
      · rcases f32Mul_cases m a c with ⟨-, e''⟩ | ⟨e2, -, -⟩
        · rw [e', e'']; exact .inr ⟨isNaN_quietNaN n, isNaN_quietNaN m⟩
        · rw [e] at e2; cases e2
      · exact .inl (e' m).symm
    · exact .inr ⟨isNaN_mul n (.inr g1), isNaN_mul m (.inr g2)⟩
  · exact .inr ⟨isNaN_mul n (.inl h1), isNaN_mul m (.inl h2)⟩

/-- A stage step from equal inputs, but for the bits of NaNs, gives equal results, but for the bits of NaNs, whatever free
NaNs the two steps draw. -/
theorem NaNEq.stage (c : Coefs) {s1 s1' s2 s2' x x' : Word} (k k' : Nat) (h1 : NaNEq s1 s1') (h2 : NaNEq s2 s2')
    (hx : NaNEq x x') :
    NaNEq (referenceStage c s1 s2 x k).y (referenceStage c s1' s2' x' k').y ∧
    NaNEq (referenceStage c s1 s2 x k).s1 (referenceStage c s1' s2' x' k').s1 ∧
    NaNEq (referenceStage c s1 s2 x k).s2 (referenceStage c s1' s2' x' k').s2 := by
  have hy := ((NaNEq.refl c.b0).mul (Config.freeNaN k 0) (Config.freeNaN k' 0) hx).add (Config.freeNaN k 1)
    (Config.freeNaN k' 1) h1
  refine ⟨hy, ?_, ?_⟩
  · exact (((NaNEq.refl c.b1).mul _ _ hx).sub _ _ ((NaNEq.refl c.a1).mul _ _ hy)).add _ _ h2
  · exact ((NaNEq.refl c.b2).mul _ _ hx).sub _ _ ((NaNEq.refl c.a2).mul _ _ hy)

/-- Two words equal up to the bits of NaNs, one of them no NaN, are equal. -/
theorem NaNEq.eq {a b : Word} (h : NaNEq a b) (hb : isNaN32 b = false) : a = b := by
  rcases h with h | ⟨-, h⟩
  · exact h
  · rw [hb] at h; cases h

/-- A stage step whose results are no NaNs does not depend on the free NaNs it could draw. -/
theorem referenceStage_draw {c : Coefs} {s1 s2 x : Word} {j : Nat} {o : StageOut} (h : referenceStage c s1 s2 x j = o)
    (ho : isNaN32 o.y = false ∧ isNaN32 o.s1 = false ∧ isNaN32 o.s2 = false) (k : Nat) :
    referenceStage c s1 s2 x k = o := by
  obtain ⟨a, b, d⟩ := NaNEq.stage c k j (NaNEq.refl s1) (NaNEq.refl s2) (NaNEq.refl x)
  rw [h] at a b d
  have e (p q : StageOut) (h1 : p.y = q.y) (h2 : p.s1 = q.s1) (h3 : p.s2 = q.s2) : p = q := by
    cases p; cases q; simp_all
  exact e _ _ (a.eq ho.1) (b.eq ho.2.1) (d.eq ho.2.2)

/-- A sample through a stage, up to the bits of NaNs. -/
theorem Stage.NaNEq.pass {a b : Stage} {x y : Word} (k k' : Nat) (h : a.NaNEq b) (hx : Machine.NaNEq x y) :
    Machine.NaNEq (a.pass machineConfig x k).y (b.pass machineConfig y k').y ∧
    (a.pass machineConfig x k).stage.NaNEq (b.pass machineConfig y k').stage := by
  obtain ⟨⟨hc, hb⟩, h1, h2⟩ := h
  unfold Stage.pass
  by_cases hp : a.bypass = true
  · rw [if_pos hp, if_pos (hb ▸ hp)]
    exact ⟨hx, ⟨hc, hb⟩, h1, h2⟩
  · rw [if_neg hp, if_neg (hb ▸ hp)]
    have := Machine.NaNEq.stage a.coef k k' h1 h2 hx
    rw [show machineConfig.stageFn = referenceStage from rfl, ← hc]
    exact ⟨this.1, ⟨rfl, hb⟩, this.2.1, this.2.2⟩

/-- A sample through a chain, up to the bits of NaNs. -/
theorem Chain.NaNEq.pass {c d : Chain} {x y : Word} (k k' : Nat) (h : c.NaNEq d) (hx : Machine.NaNEq x y) :
    Machine.NaNEq (c.pass machineConfig x k).y (d.pass machineConfig y k').y ∧
    (c.pass machineConfig x k).chain.NaNEq (d.pass machineConfig y k').chain := by
  have p0 := Stage.NaNEq.pass k k' (h 0) hx
  have p1 (j j' : Nat) := Stage.NaNEq.pass j j' (h 1) p0.1
  have p2 (i i' j j' : Nat) := Stage.NaNEq.pass j j' (h 2) (p1 i i').1
  have p3 (i i' m m' j j' : Nat) := Stage.NaNEq.pass j j' (h 3) (p2 i i' m m').1
  refine ⟨(p3 _ _ _ _ _ _).1, fun i => ?_⟩
  have : i = 0 ∨ i = 1 ∨ i = 2 ∨ i = 3 := by omega
  rcases this with rfl | rfl | rfl | rfl
  · exact p0.2
  · exact (p1 _ _).2
  · exact (p2 _ _ _ _).2
  · exact (p3 _ _ _ _ _ _).2

end Sys2Proof.Machine
end

