-- ==== Sys2Proof/Laws/Enclosure.lean ====
section
/-! SUPPORT. The enclosure arithmetic is sound and shrinks: at every precision each operation's enclosure holds the real
operation's value, and with growing precision its ends tend to that value. -/

namespace Sys2Proof.Laws

open Sys2Proof.Machine Sys2Proof.Spec Filter Topology

theorem unit_cast (p : Nat) : ((enclosureUnit p : Nat) : ℝ) = 2 ^ p := by
  rw [enclosureUnit, Nat.cast_pow, Nat.cast_ofNat]

theorem unit_cast_int (p : Nat) : (((enclosureUnit p : Nat) : Int) : ℝ) = 2 ^ p := by
  rw [Int.cast_natCast, unit_cast]

theorem unit_nat_pos (p : Nat) : 0 < enclosureUnit p := Nat.two_pow_pos p

theorem unit_pos (p : Nat) : (0 : ℝ) < 2 ^ p := by positivity

theorem floor_div_le (a : Int) {d : Nat} (hd : 0 < d) : ((a / (d : Int) : Int) : ℝ) ≤ a / d := by
  rw [le_div_iff₀ (by exact_mod_cast hd)]
  exact_mod_cast Int.ediv_mul_le a (by exact_mod_cast hd.ne')

theorem le_ceilDiv (a : Int) {d : Nat} (hd : 0 < d) : (a : ℝ) / d ≤ (ceilDiv a d : Int) := by
  have h := floor_div_le (-a) hd
  simp only [ceilDiv, Int.cast_neg, neg_div] at h ⊢
  linarith

theorem lt_floor_div_add_one (a : Int) {d : Nat} (hd : 0 < d) : (a : ℝ) / d ≤ ((a / (d : Int) : Int) : ℝ) + 1 := by
  rw [div_le_iff₀ (by exact_mod_cast hd)]
  have h := Int.lt_ediv_add_one_mul_self a (by exact_mod_cast hd : (0 : Int) < d)
  exact_mod_cast h.le

theorem ceilDiv_sub_one_le (a : Int) {d : Nat} (hd : 0 < d) : ((ceilDiv a d : Int) : ℝ) - 1 ≤ a / d := by
  have h := lt_floor_div_add_one (-a) hd
  simp only [ceilDiv, Int.cast_neg, neg_div] at h ⊢
  linarith

theorem div_le_div_of_nonpos_num {a c d : ℝ} (ha : a ≤ 0) (hc : 0 < c) (hcd : c ≤ d) : a / c ≤ a / d := by
  rw [div_le_div_iff₀ hc (hc.trans_le hcd)]
  exact mul_le_mul_of_nonpos_left hcd ha

/-! ## One precision -/

section
variable {p : Nat}

theorem encloses_ofNat (n : Nat) : Encloses p (Ival.ofNat p n) n := by
  constructor <;> simp [Ival.ofNat, unit_cast]

theorem encloses_add {i j : Ival} {x y : ℝ} (hi : Encloses p i x) (hj : Encloses p j y) :
    Encloses p (i.add j) (x + y) := by
  obtain ⟨h1, h2⟩ := hi
  obtain ⟨h3, h4⟩ := hj
  constructor <;> simp only [Ival.add, Int.cast_add, add_mul] <;> linarith

theorem encloses_neg {i : Ival} {x : ℝ} (hi : Encloses p i x) : Encloses p i.neg (-x) := by
  obtain ⟨h1, h2⟩ := hi
  constructor <;> simp only [Ival.neg, Int.cast_neg, neg_mul] <;> linarith

theorem encloses_nonneg {i : Ival} {x : ℝ} (hi : Encloses p i x) (hx : 0 ≤ x) : Encloses p i.nonneg x := by
  refine ⟨?_, hi.2⟩
  simp only [Ival.nonneg, Int.cast_max, Int.cast_zero]
  exact max_le (by positivity) hi.1

theorem encloses_fraction {i : Ival} {x : ℝ} (hi : Encloses p i x) (hx : 0 ≤ x) (h1 : x ≤ 1) :
    Encloses p (i.fraction p) x := by
  refine ⟨(encloses_nonneg hi hx).1, ?_⟩
  simp only [Ival.fraction, Int.cast_min]
  refine le_min ?_ hi.2
  rw [unit_cast_int]
  exact mul_le_of_le_one_left (unit_pos p).le h1

theorem encloses_mul {i j : Ival} {x y : ℝ} (hi : Encloses p i x) (hj : Encloses p j y) (hx : 0 ≤ x) (hy : 0 ≤ y) :
    Encloses p (i.mul p j) (x * y) := by
  have hu := unit_nat_pos p
  have li : (0 : ℝ) ≤ (i.nonneg.lo : ℝ) := by simp [Ival.nonneg]
  have lj : (0 : ℝ) ≤ (j.nonneg.lo : ℝ) := by simp [Ival.nonneg]
  have hi' := (encloses_nonneg hi hx).1
  have hj' := (encloses_nonneg hj hy).1
  have key : x * y * 2 ^ p = (x * 2 ^ p) * (y * 2 ^ p) / 2 ^ p := by field_simp
  constructor
  · refine (floor_div_le _ hu).trans ?_
    rw [unit_cast, key, div_le_div_iff_of_pos_right (unit_pos p), Int.cast_mul]
    exact mul_le_mul hi' hj' lj (by positivity)
  · refine le_trans ?_ (le_ceilDiv _ hu)
    rw [unit_cast, key, div_le_div_iff_of_pos_right (unit_pos p), Int.cast_mul]
    exact mul_le_mul hi.2 hj.2 (by positivity) ((by positivity : (0 : ℝ) ≤ x * 2 ^ p).trans hi.2)

/-- The divisor's end that `Ival.div` cuts at 1. -/
theorem cut_cast (p : Nat) (z : Int) : (((max (enclosureUnit p : Int) z).toNat : Nat) : ℝ) = max (2 ^ p) (z : ℝ) := by
  have hu : (0 : Int) ≤ enclosureUnit p := Int.natCast_nonneg _
  have h : (((max (enclosureUnit p : Int) z).toNat : Nat) : Int) = max (enclosureUnit p : Int) z :=
    Int.toNat_of_nonneg (hu.trans (le_max_left _ _))
  have h' := congrArg (Int.cast : Int → ℝ) h
  rw [Int.cast_natCast, Int.cast_max, unit_cast_int] at h'
  exact h'

theorem cut_pos (p : Nat) (z : Int) : 0 < (max (enclosureUnit p : Int) z).toNat := by
  have := unit_nat_pos p
  have := le_max_left (enclosureUnit p : Int) z
  omega

theorem encloses_div {i j : Ival} {x y : ℝ} (hi : Encloses p i x) (hj : Encloses p j y) (hy : 1 ≤ y) :
    Encloses p (i.div p j) (x / y) := by
  have hup := unit_pos p
  have hU : (2 : ℝ) ^ p ≤ y * 2 ^ p := le_mul_of_one_le_left hup.le hy
  have key : x / y * 2 ^ p = (x * 2 ^ p) * 2 ^ p / (y * 2 ^ p) := by field_simp
  have plo := cut_pos p j.lo
  have phi := cut_pos p j.hi
  have rlo := (cut_cast p j.lo).trans_le (max_le hU hj.1)
  have rhi := (hj.2.trans (le_max_right _ _)).trans_eq (cut_cast p j.hi).symm
  simp only [Ival.div]
  set dlo := (max (enclosureUnit p : Int) j.lo).toNat
  set dhi := (max (enclosureUnit p : Int) j.hi).toNat
  have plo' : (0 : ℝ) < dlo := by exact_mod_cast plo
  have phi' : (0 : ℝ) < dhi := by exact_mod_cast phi
  have hyp : (0 : ℝ) < y * 2 ^ p := hup.trans_le hU
  constructor
  · simp only
    rw [key]
    split
    · next h =>
      have h' : (0 : ℝ) ≤ i.lo := by exact_mod_cast h
      refine (floor_div_le _ phi).trans ?_
      rw [Int.cast_mul, unit_cast_int]
      calc (i.lo : ℝ) * 2 ^ p / dhi ≤ (i.lo : ℝ) * 2 ^ p / (y * 2 ^ p) := by gcongr
        _ ≤ x * 2 ^ p * 2 ^ p / (y * 2 ^ p) := by gcongr; exact hi.1
    · next h =>
      have h' : (i.lo : ℝ) * 2 ^ p ≤ 0 := by
        have : (i.lo : ℝ) ≤ 0 := by exact_mod_cast (not_le.mp h).le
        exact mul_nonpos_of_nonpos_of_nonneg this (by positivity)
      refine (floor_div_le _ plo).trans ?_
      rw [Int.cast_mul, unit_cast_int]
      calc (i.lo : ℝ) * 2 ^ p / dlo ≤ (i.lo : ℝ) * 2 ^ p / (y * 2 ^ p) :=
            div_le_div_of_nonpos_num h' plo' rlo
        _ ≤ x * 2 ^ p * 2 ^ p / (y * 2 ^ p) := by gcongr; exact hi.1
  · simp only
    rw [key]
    split
    · next h =>
      have h' : (0 : ℝ) ≤ i.hi := by exact_mod_cast h
      refine le_trans ?_ (le_ceilDiv _ plo)
      rw [Int.cast_mul, unit_cast_int]
      calc x * 2 ^ p * 2 ^ p / (y * 2 ^ p) ≤ (i.hi : ℝ) * 2 ^ p / (y * 2 ^ p) := by gcongr; exact hi.2
        _ ≤ (i.hi : ℝ) * 2 ^ p / dlo := by gcongr
    · next h =>
      have h' : (i.hi : ℝ) * 2 ^ p ≤ 0 := by
        have : (i.hi : ℝ) ≤ 0 := by exact_mod_cast (not_le.mp h).le
        exact mul_nonpos_of_nonpos_of_nonneg this (by positivity)
      refine le_trans ?_ (le_ceilDiv _ phi)
      rw [Int.cast_mul, unit_cast_int]
      calc x * 2 ^ p * 2 ^ p / (y * 2 ^ p) ≤ (i.hi : ℝ) * 2 ^ p / (y * 2 ^ p) := by gcongr; exact hi.2
        _ ≤ (i.hi : ℝ) * 2 ^ p / dhi := div_le_div_of_nonpos_num h' hyp rhi

end

/-! ## Growing precision -/

/-- `e p` encloses `x` at every precision `p`, and both its ends tend to `x`. -/
structure Approximates (e : Nat → Ival) (x : ℝ) : Prop where
  encl : ∀ p, Encloses p (e p) x
  lo : Tendsto (fun p => ((e p).lo : ℝ) / 2 ^ p) atTop (𝓝 x)
  hi : Tendsto (fun p => ((e p).hi : ℝ) / 2 ^ p) atTop (𝓝 x)

theorem tendsto_inv_unit : Tendsto (fun p : Nat => (1 : ℝ) / 2 ^ p) atTop (𝓝 0) := by
  have h := tendsto_pow_atTop_nhds_zero_of_lt_one (r := (1 : ℝ) / 2) (by norm_num) (by norm_num)
  simpa only [one_div_pow] using h

/-- Enclosures whose width tends to 0 tend to what they enclose. -/
theorem Approximates.of_width {e : Nat → Ival} {x : ℝ} (h : ∀ p, Encloses p (e p) x) {w : Nat → ℝ}
    (hw : ∀ p, (((e p).hi : ℝ) - (e p).lo) / 2 ^ p ≤ w p) (h0 : Tendsto w atTop (𝓝 0)) : Approximates e x := by
  refine ⟨h, ?_, ?_⟩
  · refine tendsto_of_tendsto_of_tendsto_of_le_of_le (g := fun p => x - w p) (h := fun _ => x)
      (by simpa using h0.const_sub x) tendsto_const_nhds (fun p => ?_) (fun p => ?_)
    · have := hw p
      have h2 : x ≤ ((e p).hi : ℝ) / 2 ^ p := by rw [le_div_iff₀ (unit_pos p)]; exact (h p).2
      rw [sub_div] at this
      show x - w p ≤ _
      linarith
    · show _ ≤ x
      rw [div_le_iff₀ (unit_pos p)]; exact (h p).1
  · refine tendsto_of_tendsto_of_tendsto_of_le_of_le (g := fun _ => x) (h := fun p => x + w p)
      tendsto_const_nhds (by simpa using h0.const_add x) (fun p => ?_) (fun p => ?_)
    · show x ≤ _
      rw [le_div_iff₀ (unit_pos p)]; exact (h p).2
    · have := hw p
      have h2 : ((e p).lo : ℝ) / 2 ^ p ≤ x := by rw [div_le_iff₀ (unit_pos p)]; exact (h p).1
      rw [sub_div] at this
      show _ ≤ x + w p
      linarith

/-- The width of an approximation tends to 0. -/
theorem Approximates.width {e : Nat → Ival} {x : ℝ} (h : Approximates e x) :
    Tendsto (fun p => (((e p).hi : ℝ) - (e p).lo) / 2 ^ p) atTop (𝓝 0) := by
  simpa [sub_div] using h.hi.sub h.lo

/-- A value within one unit of a converging one converges with it. -/
theorem tendsto_of_unit {z g : Nat → ℝ} {x : ℝ} (h : Tendsto (fun p => g p / 2 ^ p) atTop (𝓝 x))
    (hz : ∀ p, |z p - g p| ≤ 1) : Tendsto (fun p => z p / 2 ^ p) atTop (𝓝 x) := by
  have h0 : Tendsto (fun p => (z p - g p) / 2 ^ p) atTop (𝓝 0) := by
    refine squeeze_zero_norm (fun p => ?_) tendsto_inv_unit
    rw [Real.norm_eq_abs, abs_div, abs_of_pos (unit_pos p)]
    exact div_le_div_of_nonneg_right (hz p) (unit_pos p).le
  have := h0.add h
  rw [zero_add] at this
  refine this.congr fun p => ?_
  rw [← add_div, sub_add_cancel]

theorem tendsto_floor {a : Nat → Int} {d : Nat → Nat} {x : ℝ} (hd : ∀ p, 0 < d p)
    (h : Tendsto (fun p => ((a p : ℝ) / d p) / 2 ^ p) atTop (𝓝 x)) :
    Tendsto (fun p => ((a p / (d p : Int) : Int) : ℝ) / 2 ^ p) atTop (𝓝 x) :=
  tendsto_of_unit h fun p => abs_le.mpr ⟨by linarith [lt_floor_div_add_one (a p) (hd p)],
    by linarith [floor_div_le (a p) (hd p)]⟩

theorem tendsto_ceil {a : Nat → Int} {d : Nat → Nat} {x : ℝ} (hd : ∀ p, 0 < d p)
    (h : Tendsto (fun p => ((a p : ℝ) / d p) / 2 ^ p) atTop (𝓝 x)) :
    Tendsto (fun p => ((ceilDiv (a p) (d p) : Int) : ℝ) / 2 ^ p) atTop (𝓝 x) :=
  tendsto_of_unit h fun p => abs_le.mpr ⟨by linarith [le_ceilDiv (a p) (hd p)],
    by linarith [ceilDiv_sub_one_le (a p) (hd p)]⟩

section
variable {e f : Nat → Ival} {x y : ℝ}

theorem approx_ofNat (n : Nat) : Approximates (fun p => Ival.ofNat p n) n := by
  refine ⟨fun p => encloses_ofNat n, ?_, ?_⟩ <;>
  · refine tendsto_const_nhds.congr fun p => ?_
    simp [Ival.ofNat, unit_cast]

theorem Approximates.add (he : Approximates e x) (hf : Approximates f y) :
    Approximates (fun p => (e p).add (f p)) (x + y) := by
  refine ⟨fun p => encloses_add (he.encl p) (hf.encl p), ?_, ?_⟩
  · exact (he.lo.add hf.lo).congr fun p => by simp [Ival.add, add_div]
  · exact (he.hi.add hf.hi).congr fun p => by simp [Ival.add, add_div]

theorem Approximates.neg (he : Approximates e x) : Approximates (fun p => (e p).neg) (-x) := by
  refine ⟨fun p => encloses_neg (he.encl p), ?_, ?_⟩
  · exact he.hi.neg.congr fun p => by simp [Ival.neg, neg_div]
  · exact he.lo.neg.congr fun p => by simp [Ival.neg, neg_div]

theorem Approximates.sub (he : Approximates e x) (hf : Approximates f y) :
    Approximates (fun p => (e p).sub (f p)) (x - y) := by
  rw [sub_eq_add_neg]; exact he.add hf.neg

theorem Approximates.double (he : Approximates e x) : Approximates (fun p => (e p).double) (2 * x) := by
  rw [two_mul]; exact he.add he

theorem Approximates.nonneg (he : Approximates e x) (hx : 0 ≤ x) : Approximates (fun p => (e p).nonneg) x := by
  refine ⟨fun p => encloses_nonneg (he.encl p) hx, ?_, he.hi⟩
  have h := (tendsto_const_nhds (x := (0 : ℝ))).max he.lo
  rw [max_eq_right hx] at h
  refine h.congr fun p => ?_
  rw [show (0 : ℝ) = 0 / 2 ^ p by simp, max_div_div_right (unit_pos p).le]
  simp [Ival.nonneg]

theorem Approximates.mul (he : Approximates e x) (hf : Approximates f y) (hx : 0 ≤ x) (hy : 0 ≤ y) :
    Approximates (fun p => (e p).mul p (f p)) (x * y) := by
  refine ⟨fun p => encloses_mul (he.encl p) (hf.encl p) hx hy, ?_, ?_⟩
  · refine tendsto_floor (fun p => unit_nat_pos p) ?_
    refine ((he.nonneg hx).lo.mul (hf.nonneg hy).lo).congr fun p => ?_
    rw [unit_cast, Int.cast_mul]; ring
  · refine tendsto_ceil (fun p => unit_nat_pos p) ?_
    refine (he.hi.mul hf.hi).congr fun p => ?_
    rw [unit_cast, Int.cast_mul]; ring

/-- The ends of the divisor, cut at 1. -/
theorem tendsto_cut {z : Nat → Int} (h : Tendsto (fun p => (z p : ℝ) / 2 ^ p) atTop (𝓝 y)) (hy : 1 ≤ y) :
    Tendsto (fun p => (((max (enclosureUnit p : Int) (z p)).toNat : Nat) : ℝ) / 2 ^ p) atTop (𝓝 y) := by
  have h1 := (tendsto_const_nhds (x := (1 : ℝ))).max h
  rw [max_eq_right hy] at h1
  refine h1.congr fun p => ?_
  rw [cut_cast, show (1 : ℝ) = 2 ^ p / 2 ^ p by rw [div_self (unit_pos p).ne'], max_div_div_right (unit_pos p).le]

theorem Approximates.div (he : Approximates e x) (hf : Approximates f y) (hy : 1 ≤ y) :
    Approximates (fun p => (e p).div p (f p)) (x / y) := by
  have hy0 : y ≠ 0 := by linarith
  have clo := tendsto_cut hf.lo hy
  have chi := tendsto_cut hf.hi hy
  have quot {a : Nat → Int} {d : Nat → Nat} (ha : Tendsto (fun p => (a p : ℝ) / 2 ^ p) atTop (𝓝 x))
      (hd : Tendsto (fun p => (d p : ℝ) / 2 ^ p) atTop (𝓝 y)) :
      Tendsto (fun p => (((a p * (enclosureUnit p : Int) : Int) : ℝ) / d p) / 2 ^ p) atTop (𝓝 (x / y)) := by
    refine (ha.div hd hy0).congr fun p => ?_
    rw [Int.cast_mul, unit_cast_int]
    show (a p : ℝ) / 2 ^ p / ((d p : ℝ) / 2 ^ p) = _
    have := (unit_pos p).ne'
    rw [div_div_div_cancel_right₀ this, div_right_comm, mul_div_assoc, div_self this, mul_one]
  refine ⟨fun p => encloses_div (he.encl p) (hf.encl p) hy, ?_, ?_⟩
  · refine tendsto_floor (fun p => ?_) (quot he.lo ?_)
    · split <;> exact cut_pos _ _
    · refine (chi.if' clo (p := fun p => 0 ≤ (e p).lo)).congr fun p => ?_
      split <;> rfl
  · refine tendsto_ceil (fun p => ?_) (quot he.hi ?_)
    · split <;> exact cut_pos _ _
    · refine (clo.if' chi (p := fun p => 0 ≤ (e p).hi)).congr fun p => ?_
      split <;> rfl

theorem Approximates.fraction (he : Approximates e x) (hx : 0 ≤ x) (h1 : x ≤ 1) :
    Approximates (fun p => (e p).fraction p) x := by
  refine ⟨fun p => encloses_fraction (he.encl p) hx h1, (he.nonneg hx).lo, ?_⟩
  have h := (tendsto_const_nhds (x := (1 : ℝ))).min he.hi
  rw [min_eq_right h1] at h
  refine h.congr fun p => ?_
  rw [show (1 : ℝ) = 2 ^ p / 2 ^ p by rw [div_self (unit_pos p).ne'], min_div_div_right (unit_pos p).le]
  simp [Ival.fraction, unit_cast]

end

/-- The value of a quotient. -/
noncomputable def quotientValue (q : Quotient) : ℝ := (q.num : ℝ) / q.den

theorem quotient_units (p : Nat) (q : Quotient) :
    ((q.num * (enclosureUnit p : Int) : Int) : ℝ) / q.den = quotientValue q * 2 ^ p := by
  rw [Int.cast_mul, unit_cast_int, quotientValue]; ring

theorem encloses_quotient {p : Nat} {q : Quotient} (hq : 0 < q.den) : Encloses p (q.ival p) (quotientValue q) :=
  ⟨(floor_div_le _ hq).trans_eq (quotient_units p q), (quotient_units p q).symm.trans_le (le_ceilDiv _ hq)⟩

theorem tendsto_quotient {q : Nat → Quotient} {x : ℝ} (hq : ∀ p, 0 < (q p).den)
    (h : Tendsto (fun p => quotientValue (q p)) atTop (𝓝 x)) :
    Tendsto (fun p => (((q p).ival p).lo : ℝ) / 2 ^ p) atTop (𝓝 x) ∧
    Tendsto (fun p => (((q p).ival p).hi : ℝ) / 2 ^ p) atTop (𝓝 x) := by
  have e (p : Nat) : quotientValue (q p) =
      (((q p).num * (enclosureUnit p : Int) : Int) : ℝ) / (q p).den / 2 ^ p := by
    rw [quotient_units, mul_div_assoc, div_self (unit_pos p).ne', mul_one]
  exact ⟨tendsto_floor hq (h.congr e), tendsto_ceil hq (h.congr e)⟩

/-! ## π -/

theorem seriesTerms_tendsto : Tendsto seriesTerms atTop atTop := by
  refine tendsto_atTop_mono (fun p => ?_) (tendsto_atTop_atTop.mpr fun b => ⟨8 * b, fun p hp => ?_⟩ :
    Tendsto (fun p => p / 8) atTop atTop)
  · unfold seriesTerms; omega
  · show b ≤ p / 8; omega

theorem arctanSum_spec {m : Nat} (hm : 0 < m) : ∀ (terms k : Nat), 0 < k →
    0 < (arctanSum m terms k).den ∧
    quotientValue (arctanSum m terms k) =
      ∑ j ∈ Finset.range terms, (-1) ^ j * (1 / (((k + 2 * j : Nat) : ℝ) * (m : ℝ) ^ (2 * j)))
  | 0, k, _ => by simp [arctanSum, quotientValue]
  | terms + 1, k, hk => by
    obtain ⟨hd, hv⟩ := arctanSum_spec hm terms (k + 2) (by omega)
    have hm' : (m : ℝ) ≠ 0 := by exact_mod_cast hm.ne'
    have hk' : (k : ℝ) ≠ 0 := by exact_mod_cast hk.ne'
    have hd' : ((arctanSum m terms (k + 2)).den : ℝ) ≠ 0 := by exact_mod_cast hd.ne'
    refine ⟨by simp only [arctanSum]; positivity, ?_⟩
    have e : quotientValue (arctanSum m (terms + 1) k) =
        1 / k - 1 / (m : ℝ) ^ 2 * quotientValue (arctanSum m terms (k + 2)) := by
      simp only [arctanSum, quotientValue]
      push_cast
      field_simp
    rw [e, hv, Finset.sum_range_succ', Finset.mul_sum, sub_eq_add_neg, ← Finset.sum_neg_distrib, add_comm]
    congr 1
    · refine Finset.sum_congr rfl fun j _ => ?_
      rw [show k + 2 * (j + 1) = k + 2 + 2 * j by ring, show 2 * (j + 1) = 2 * j + 2 by ring]
      field_simp
      ring
    · simp

/-- The two sums of `arctanInv` bound arctan(1/m), and both tend to it. -/
theorem approx_arctanInv {m : Nat} (hm : 1 < m) : Approximates (fun p => arctanInv p m) (Real.arctan (m : ℝ)⁻¹) := by
  have hm0 : 0 < m := by omega
  have hm1 : (1 : ℝ) < m := by exact_mod_cast hm
  have hm' : (0 : ℝ) < m := by linarith
  set f : Nat → ℝ := fun j => 1 / (m * (((1 + 2 * j : Nat) : ℝ) * (m : ℝ) ^ (2 * j))) with hf
  have hs : Tendsto (fun n => ∑ j ∈ Finset.range n, (-1 : ℝ) ^ j * f j) atTop (𝓝 (Real.arctan (m : ℝ)⁻¹)) := by
    have h := (Real.hasSum_arctan (x := (m : ℝ)⁻¹) (by
      rw [Real.norm_of_nonneg (by positivity)]; exact inv_lt_one_of_one_lt₀ hm1)).tendsto_sum_nat
    refine h.congr fun n => Finset.sum_congr rfl fun j _ => ?_
    simp only [hf]
    rw [show 1 + 2 * j = 2 * j + 1 by ring, inv_pow, pow_succ]
    field_simp
  have hanti : Antitone f := by
    refine antitone_nat_of_succ_le fun j => ?_
    have h1 : ((1 + 2 * j : Nat) : ℝ) ≤ (1 + 2 * (j + 1) : Nat) := by exact_mod_cast (by omega)
    have h2 : (m : ℝ) ^ (2 * j) ≤ (m : ℝ) ^ (2 * (j + 1)) := pow_le_pow_right₀ hm1.le (by omega)
    have h3 : (0 : ℝ) < (1 + 2 * j : Nat) := by exact_mod_cast (by omega)
    simp only [hf]
    gcongr
  let q (n : Nat) : Quotient := ⟨(arctanSum m n 1).num, m * (arctanSum m n 1).den⟩
  have hq (n : Nat) : 0 < (q n).den := Nat.mul_pos hm0 (arctanSum_spec hm0 n 1 one_pos).1
  have hv (n : Nat) : quotientValue (q n) = ∑ j ∈ Finset.range n, (-1 : ℝ) ^ j * f j := by
    have h := (arctanSum_spec hm0 n 1 one_pos).2
    have e : quotientValue (q n) = quotientValue (arctanSum m n 1) / m := by
      simp only [q, quotientValue, Nat.cast_mul]; rw [div_div, mul_comm]
    rw [e, h, Finset.sum_div]
    refine Finset.sum_congr rfl fun j _ => ?_
    simp only [hf]
    field_simp
  have ht : Tendsto (fun n => quotientValue (q n)) atTop (𝓝 (Real.arctan (m : ℝ)⁻¹)) := by simpa only [hv] using hs
  refine ⟨fun p => ⟨?_, ?_⟩, (tendsto_quotient (fun p => hq _) (ht.comp seriesTerms_tendsto)).1,
    (tendsto_quotient (fun p => hq _) (ht.comp ((tendsto_add_atTop_nat 1).comp seriesTerms_tendsto))).2⟩
  · refine (encloses_quotient (hq (seriesTerms p))).1.trans (mul_le_mul_of_nonneg_right ?_ (unit_pos p).le)
    rw [hv]; exact hanti.alternating_series_le_tendsto hs _
  · refine le_trans (mul_le_mul_of_nonneg_right ?_ (unit_pos p).le) (encloses_quotient (hq (seriesTerms p + 1))).2
    rw [hv]; exact hanti.tendsto_le_alternating_series hs _

theorem approx_pi : Approximates piIval Real.pi := by
  have a := approx_arctanInv (m := 5) (by norm_num)
  have b := approx_arctanInv (m := 239) (by norm_num)
  have e : Real.pi = 16 * Real.arctan ((5 : Nat) : ℝ)⁻¹ - 4 * Real.arctan ((239 : Nat) : ℝ)⁻¹ := by
    have := Real.four_mul_arctan_inv_5_sub_arctan_inv_239
    push_cast
    linarith
  rw [e]
  refine ⟨fun p => ⟨?_, ?_⟩, ?_, ?_⟩
  · have h1 := (a.encl p).1
    have h2 := (b.encl p).2
    simp only [piIval, Int.cast_sub, Int.cast_mul, Int.cast_ofNat, sub_mul, mul_assoc]
    linarith
  · have h1 := (a.encl p).2
    have h2 := (b.encl p).1
    simp only [piIval, Int.cast_sub, Int.cast_mul, Int.cast_ofNat, sub_mul, mul_assoc]
    linarith
  · refine ((a.lo.const_mul 16).sub (b.hi.const_mul 4)).congr fun p => ?_
    simp only [piIval, Int.cast_sub, Int.cast_mul, Int.cast_ofNat]; ring
  · refine ((a.hi.const_mul 16).sub (b.lo.const_mul 4)).congr fun p => ?_
    simp only [piIval, Int.cast_sub, Int.cast_mul, Int.cast_ofNat]; ring

theorem approx_piTimes (n : Nat) {d : Nat} (hd : 0 < d) :
    Approximates (fun p => piTimes p n d) (Real.pi * n / d) := by
  have hd' : (0 : ℝ) < d := by exact_mod_cast hd
  have hn : (0 : ℝ) ≤ n := by positivity
  have hp := approx_pi
  refine ⟨fun p => ⟨?_, ?_⟩, ?_, ?_⟩
  · refine (floor_div_le _ hd).trans ?_
    rw [show Real.pi * n / d * 2 ^ p = (Real.pi * 2 ^ p) * n / d by ring, div_le_div_iff_of_pos_right hd']
    push_cast
    exact mul_le_mul_of_nonneg_right (hp.encl p).1 hn
  · refine le_trans ?_ (le_ceilDiv _ hd)
    rw [show Real.pi * n / d * 2 ^ p = (Real.pi * 2 ^ p) * n / d by ring, div_le_div_iff_of_pos_right hd']
    push_cast
    exact mul_le_mul_of_nonneg_right (hp.encl p).2 hn
  · refine tendsto_floor (fun _ => hd) (((hp.lo.mul_const (n : ℝ)).div_const (d : ℝ)).congr fun p => ?_)
    push_cast; ring
  · refine tendsto_ceil (fun _ => hd) (((hp.hi.mul_const (n : ℝ)).div_const (d : ℝ)).congr fun p => ?_)
    push_cast; ring

/-! ## Sine and cosine -/

/-- The Taylor terms of cos and sin up to `2N`, as the real and imaginary part of those of exp(ix). -/
theorem exp_series (x : ℝ) (N : Nat) :
    ∑ m ∈ Finset.range (2 * N), ((x : ℂ) * Complex.I) ^ m / (m.factorial : ℂ) =
      ((∑ j ∈ Finset.range N, (-1) ^ j * x ^ (2 * j) / ((2 * j).factorial : ℝ) : ℝ) : ℂ) +
      ((∑ j ∈ Finset.range N, (-1) ^ j * x ^ (2 * j + 1) / ((2 * j + 1).factorial : ℝ) : ℝ) : ℂ) * Complex.I := by
  induction N with
  | zero => simp
  | succ N ih =>
    rw [show 2 * (N + 1) = 2 * N + 1 + 1 by ring, Finset.sum_range_succ, Finset.sum_range_succ, ih,
      Finset.sum_range_succ, Finset.sum_range_succ]
    have h1 : ((x : ℂ) * Complex.I) ^ (2 * N) = (-1) ^ N * (x : ℂ) ^ (2 * N) := by
      rw [mul_pow, pow_mul Complex.I, Complex.I_sq]; ring
    have h2 : ((x : ℂ) * Complex.I) ^ (2 * N + 1) = (-1) ^ N * (x : ℂ) ^ (2 * N + 1) * Complex.I := by
      rw [pow_succ, h1]; ring
    rw [h1, h2]
    push_cast
    ring

theorem cos_series (x : ℝ) (hx : 0 ≤ x) (N : Nat) (hN : x ≤ N) :
    |Real.cos x - ∑ j ∈ Finset.range N, (-1) ^ j * x ^ (2 * j) / ((2 * j).factorial : ℝ)| ≤
      2 * (x ^ (2 * N) / ((2 * N).factorial : ℝ)) := by
  have hb := Complex.exp_bound' (x := (x : ℂ) * Complex.I) (n := 2 * N) (by
    rw [norm_mul, Complex.norm_I, mul_one, Complex.norm_real, Real.norm_of_nonneg hx, div_le_iff₀ (by positivity)]
    push_cast; linarith)
  rw [exp_series, norm_mul, Complex.norm_I, mul_one, Complex.norm_real, Real.norm_of_nonneg hx] at hb
  refine le_trans ?_ (hb.trans_eq (by ring))
  refine le_trans (le_of_eq ?_) (Complex.abs_re_le_norm _)
  congr 1
  rw [Complex.sub_re, Complex.exp_ofReal_mul_I_re, Complex.add_re, Complex.ofReal_re, Complex.mul_I_re,
    Complex.ofReal_im, neg_zero, add_zero]

theorem sin_series (x : ℝ) (hx : 0 ≤ x) (N : Nat) (hN : x ≤ N) :
    |Real.sin x - ∑ j ∈ Finset.range N, (-1) ^ j * x ^ (2 * j + 1) / ((2 * j + 1).factorial : ℝ)| ≤
      2 * (x ^ (2 * N + 1) / ((2 * N + 1).factorial : ℝ)) := by
  have hb := Complex.exp_bound' (x := (x : ℂ) * Complex.I) (n := 2 * N + 1) (by
    rw [norm_mul, Complex.norm_I, mul_one, Complex.norm_real, Real.norm_of_nonneg hx, div_le_iff₀ (by positivity)]
    push_cast; linarith)
  rw [Finset.sum_range_succ, exp_series, norm_mul, Complex.norm_I, mul_one, Complex.norm_real,
    Real.norm_of_nonneg hx] at hb
  refine le_trans ?_ (hb.trans_eq (by ring))
  refine le_trans (le_of_eq ?_) (Complex.abs_im_le_norm _)
  have h1 : ((x : ℂ) * Complex.I) ^ (2 * N) / ((2 * N).factorial : ℂ) =
      (((-1) ^ N * x ^ (2 * N) / ((2 * N).factorial : ℝ) : ℝ) : ℂ) := by
    rw [mul_pow, pow_mul Complex.I, Complex.I_sq]; push_cast; ring
  congr 1
  rw [h1, Complex.sub_im, Complex.exp_ofReal_mul_I_im, Complex.add_im, Complex.add_im, Complex.ofReal_im,
    Complex.mul_I_im, Complex.ofReal_re, Complex.ofReal_im, zero_add, add_zero]


theorem factorial_eq (n : Nat) : factorial n = n.factorial := by
  induction n with
  | zero => rfl
  | succ n ih => rw [factorial, ih, Nat.factorial_succ]

/-- A Taylor sum, as k! times the terms of x^(k + 2j) without x^k. -/
theorem taylorSum_spec {u2 : Nat} (hu : 0 < u2) (x2 : Nat) : ∀ (terms k : Nat),
    0 < (taylorSum x2 u2 terms k).den ∧
    quotientValue (taylorSum x2 u2 terms k) =
      ∑ j ∈ Finset.range terms, (-1) ^ j * ((x2 : ℝ) / u2) ^ j * ((k.factorial : ℝ) / ((k + 2 * j).factorial : ℝ))
  | 0, k => by simp [taylorSum, quotientValue]
  | terms + 1, k => by
    obtain ⟨hd, hv⟩ := taylorSum_spec hu x2 terms (k + 2)
    have hu' : (u2 : ℝ) ≠ 0 := by exact_mod_cast hu.ne'
    have hd' : ((taylorSum x2 u2 terms (k + 2)).den : ℝ) ≠ 0 := by exact_mod_cast hd.ne'
    have hk1 : ((k : ℝ) + 1) ≠ 0 := by positivity
    have hk2 : ((k : ℝ) + 2) ≠ 0 := by positivity
    refine ⟨by simp only [taylorSum]; positivity, ?_⟩
    have e : quotientValue (taylorSum x2 u2 (terms + 1) k) =
        1 - (x2 : ℝ) / u2 / ((k + 1) * (k + 2)) * quotientValue (taylorSum x2 u2 terms (k + 2)) := by
      simp only [taylorSum, quotientValue]
      push_cast
      field_simp
    rw [e, hv, Finset.sum_range_succ', Finset.mul_sum, sub_eq_add_neg, ← Finset.sum_neg_distrib, add_comm]
    congr 1
    · refine Finset.sum_congr rfl fun j _ => ?_
      rw [show k + 2 * (j + 1) = k + 2 + 2 * j by ring, show k + 2 = (k + 1) + 1 by ring, Nat.factorial_succ (k + 1),
        Nat.factorial_succ k, pow_succ ((x2 : ℝ) / u2)]
      generalize (x2 : ℝ) / u2 = y
      push_cast
      field_simp
      ring
    · have : (k.factorial : ℝ) ≠ 0 := by positivity
      simp [this]

theorem angle_bounds {n d : Nat} (hd : 0 < d) (h : 2 * n ≤ d) :
    0 ≤ Real.pi * n / d ∧ Real.pi * n / d ≤ Real.pi / 2 := by
  have hd' : (0 : ℝ) < d := by exact_mod_cast hd
  have h' : (2 : ℝ) * n ≤ d := by exact_mod_cast h
  refine ⟨by positivity, ?_⟩
  rw [div_le_div_iff₀ hd' two_pos]
  nlinarith [Real.pi_pos]

/-- What the Taylor sums leave out, in real numbers. -/
noncomputable def restBound (p : Nat) : ℝ := 2 * (2 ^ (2 * seriesTerms p) / ((2 * seriesTerms p).factorial : ℝ))

theorem restBound_le (p : Nat) : restBound p * 2 ^ p ≤ (taylorRest p : ℝ) := by
  unfold taylorRest restBound
  refine le_trans (le_of_eq ?_) (le_ceilDiv _ (by rw [factorial_eq]; exact Nat.factorial_pos _))
  rw [factorial_eq, enclosureUnit]
  push_cast
  ring

theorem tendsto_rest : Tendsto (fun p => (taylorRest p : ℝ) / 2 ^ p) atTop (𝓝 0) := by
  have h := (FloorSemiring.tendsto_pow_div_factorial_atTop (2 : ℝ)).const_mul 2
  rw [mul_zero] at h
  have h2 : Tendsto (fun p => 2 * seriesTerms p) atTop atTop := seriesTerms_tendsto.const_mul_atTop' two_pos
  refine tendsto_ceil (fun p => by rw [factorial_eq]; exact Nat.factorial_pos _) ((h.comp h2).congr fun p => ?_)
  have := (unit_pos p).ne'
  simp only [Function.comp, factorial_eq, enclosureUnit]
  push_cast
  field_simp

theorem two_le_terms (p : Nat) : 2 ≤ seriesTerms p := by unfold seriesTerms; omega

/-- The two Taylor remainders at the lower end of an angle's enclosure. -/
theorem rest_cos {x : ℝ} (h0 : 0 ≤ x) (h2 : x ≤ 2) (p : Nat) :
    |Real.cos x - ∑ j ∈ Finset.range (seriesTerms p), (-1) ^ j * x ^ (2 * j) / ((2 * j).factorial : ℝ)| ≤ restBound p := by
  refine (cos_series x h0 _ (h2.trans (by exact_mod_cast two_le_terms p))).trans ?_
  unfold restBound
  gcongr

theorem rest_sin {x : ℝ} (h0 : 0 ≤ x) (h2 : x ≤ 2) (p : Nat) :
    |Real.sin x - ∑ j ∈ Finset.range (seriesTerms p), (-1) ^ j * x ^ (2 * j + 1) / ((2 * j + 1).factorial : ℝ)| ≤
      restBound p := by
  refine (sin_series x h0 _ (h2.trans (by exact_mod_cast two_le_terms p))).trans ?_
  unfold restBound
  have hN := two_le_terms p
  set N := seriesTerms p
  have hN' : (2 : ℝ) ≤ 2 * N + 1 := by
    have : (2 : ℝ) ≤ N := by exact_mod_cast hN
    linarith
  refine mul_le_mul_of_nonneg_left ?_ two_pos.le
  rw [Nat.factorial_succ]
  push_cast
  calc x ^ (2 * N + 1) / ((2 * (N : ℝ) + 1) * ((2 * N).factorial : ℝ))
      ≤ 2 ^ (2 * N + 1) / ((2 * (N : ℝ) + 1) * ((2 * N).factorial : ℝ)) := by gcongr
    _ = 2 / (2 * (N : ℝ) + 1) * (2 ^ (2 * N) / ((2 * N).factorial : ℝ)) := by rw [pow_succ]; field_simp
    _ ≤ 1 * (2 ^ (2 * N) / ((2 * N).factorial : ℝ)) := by
      gcongr
      rw [div_le_one (by positivity)]; exact hN'
    _ = _ := one_mul _

/-- A function that moves no faster than its argument, from a sum near its value at the lower end of the angle's
enclosure: the widened quotient approximates it. -/
theorem approx_widen {g : ℝ → ℝ} (hg : ∀ x y, |g x - g y| ≤ |x - y|) {x : ℝ} (h0 : 0 ≤ x) (h2 : x ≤ 2)
    {a : Nat → Ival} (ha : Approximates a x) {q : Nat → Quotient} (hq : ∀ p, 0 < (q p).den)
    (hr : ∀ p, 0 ≤ (((a p).lo.toNat : Nat) : ℝ) / 2 ^ p → (((a p).lo.toNat : Nat) : ℝ) / 2 ^ p ≤ 2 →
      |g (((a p).lo.toNat : Nat) / 2 ^ p) - quotientValue (q p)| ≤ restBound p) :
    Approximates (fun p => ((q p).ival p).widen ((a p).hi - (a p).lo + taylorRest p)) (g x) := by
  have near (p : Nat) : |g x - quotientValue (q p)| * 2 ^ p ≤ ((a p).hi - (a p).lo + taylorRest p : Int) := by
    have hup := unit_pos p
    obtain ⟨e1, e2⟩ := ha.encl p
    have hx2 : 0 ≤ x * 2 ^ p := by positivity
    have hlo : ((a p).lo : ℝ) ≤ (a p).lo.toNat := by exact_mod_cast Int.self_le_toNat _
    have hlo' : (((a p).lo.toNat : Nat) : ℝ) ≤ x * 2 ^ p := by
      rcases le_total 0 (a p).lo with h | h
      · have : (((a p).lo.toNat : Nat) : ℝ) = (a p).lo := by exact_mod_cast Int.toNat_of_nonneg h
        rw [this]; exact e1
      · rw [Int.toNat_of_nonpos h]; simpa using hx2
    have h3 : |x - ((a p).lo.toNat : Nat) / 2 ^ p| * 2 ^ p ≤ (a p).hi - (a p).lo := by
      rw [abs_of_nonneg (by rw [sub_nonneg, div_le_iff₀ hup]; exact hlo'), sub_mul, div_mul_cancel₀ _ hup.ne']
      linarith
    have hX : (((a p).lo.toNat : Nat) : ℝ) / 2 ^ p ≤ 2 := by
      rw [div_le_iff₀ hup]
      exact hlo'.trans (mul_le_mul_of_nonneg_right h2 hup.le)
    have h4 := mul_le_mul_of_nonneg_right (hg x (((a p).lo.toNat : Nat) / 2 ^ p)) hup.le
    have h5 := (mul_le_mul_of_nonneg_right (hr p (by positivity) hX) hup.le).trans (restBound_le p)
    have h6 := mul_le_mul_of_nonneg_right (abs_sub_le (g x) (g (((a p).lo.toNat : Nat) / 2 ^ p)) (quotientValue (q p))) hup.le
    rw [add_mul] at h6
    push_cast
    linarith
  have encl (p : Nat) : Encloses p (((q p).ival p).widen ((a p).hi - (a p).lo + taylorRest p)) (g x) := by
    have hup := unit_pos p
    obtain ⟨e1, e2⟩ := encloses_quotient (p := p) (hq p)
    have h := near p
    push_cast at h
    have h1 := mul_le_mul_of_nonneg_right (le_abs_self (g x - quotientValue (q p))) hup.le
    have h2 := mul_le_mul_of_nonneg_right (neg_abs_le (g x - quotientValue (q p))) hup.le
    rw [neg_mul] at h2
    rw [sub_mul] at h1 h2
    constructor
    · simp only [Ival.widen]
      push_cast
      linarith
    · simp only [Ival.widen]
      push_cast
      linarith
  have w0 : Tendsto (fun p => 2 * ((((a p).hi : ℝ) - (a p).lo) / 2 ^ p + (taylorRest p : ℝ) / 2 ^ p) + 2 * (1 / 2 ^ p))
      atTop (𝓝 0) := by
    have h := ((ha.width.add tendsto_rest).const_mul 2).add (tendsto_inv_unit.const_mul 2)
    simpa using h
  refine .of_width encl (fun p => ?_) w0
  have h1 := lt_floor_div_add_one ((q p).num * (enclosureUnit p : Int)) (hq p)
  have h2 := ceilDiv_sub_one_le ((q p).num * (enclosureUnit p : Int)) (hq p)
  rw [← add_div, ← mul_div_assoc, ← mul_div_assoc, ← add_div, div_le_div_iff_of_pos_right (unit_pos p)]
  simp only [Ival.widen, Quotient.ival]
  push_cast at h1 h2 ⊢
  linarith

/-- The Taylor sums that `cosPi` and `sinPi` form at the lower end `X` of the angle's enclosure. -/
theorem taylorSum_eq (p X : Nat) (terms k : Nat) :
    quotientValue (taylorSum (X ^ 2) (enclosureUnit p ^ 2) terms k) =
      ∑ j ∈ Finset.range terms, (-1) ^ j * ((X : ℝ) / 2 ^ p) ^ (2 * j) * ((k.factorial : ℝ) / ((k + 2 * j).factorial : ℝ)) := by
  rw [(taylorSum_spec (pow_pos (unit_nat_pos p) 2) _ _ _).2]
  refine Finset.sum_congr rfl fun j _ => ?_
  rw [Nat.cast_pow, Nat.cast_pow, unit_cast, ← div_pow, ← pow_mul]

/-- `cosPi` approximates cos(πn/d) in the first quadrant. -/
theorem approx_cosPi {n d : Nat} (hd : 0 < d) (h : 2 * n ≤ d) :
    Approximates (fun p => cosPi p n d) (Real.cos (Real.pi * n / d)) := by
  obtain ⟨h0, h1⟩ := angle_bounds hd h
  refine (approx_widen Real.abs_cos_sub_cos_le h0 (by linarith [Real.pi_lt_four]) (approx_piTimes n hd)
    (q := fun p => taylorSum ((piTimes p n d).lo.toNat ^ 2) (enclosureUnit p ^ 2) (seriesTerms p) 0)
    (fun p => (taylorSum_spec (pow_pos (unit_nat_pos p) 2) _ _ 0).1) fun p g0 g2 => ?_).fraction
      (Real.cos_nonneg_of_mem_Icc ⟨by linarith [Real.pi_pos], h1⟩) (Real.cos_le_one _)
  refine le_trans (le_of_eq ?_) (rest_cos g0 g2 p)
  rw [taylorSum_eq]
  congr 2
  refine Finset.sum_congr rfl fun j _ => ?_
  rw [Nat.factorial_zero, Nat.cast_one, zero_add, mul_one_div]

/-- `sinPi` approximates sin(πn/d) in the first quadrant. -/
theorem approx_sinPi {n d : Nat} (hd : 0 < d) (h : 2 * n ≤ d) :
    Approximates (fun p => sinPi p n d) (Real.sin (Real.pi * n / d)) := by
  obtain ⟨h0, h1⟩ := angle_bounds hd h
  refine (approx_widen Real.abs_sin_sub_sin_le h0 (by linarith [Real.pi_lt_four]) (approx_piTimes n hd)
    (q := fun p => ⟨(piTimes p n d).lo.toNat *
        (taylorSum ((piTimes p n d).lo.toNat ^ 2) (enclosureUnit p ^ 2) (seriesTerms p) 1).num,
      enclosureUnit p * (taylorSum ((piTimes p n d).lo.toNat ^ 2) (enclosureUnit p ^ 2) (seriesTerms p) 1).den⟩)
    (fun p => Nat.mul_pos (unit_nat_pos p) (taylorSum_spec (pow_pos (unit_nat_pos p) 2) _ _ 1).1) fun p g0 g2 => ?_).fraction
      (Real.sin_nonneg_of_nonneg_of_le_pi h0 (by linarith [Real.pi_pos])) (Real.sin_le_one _)
  refine le_trans (le_of_eq ?_) (rest_sin g0 g2 p)
  have e := taylorSum_eq p (piTimes p n d).lo.toNat (seriesTerms p) 1
  have e2 (X : Nat) (q : Quotient) : quotientValue ⟨X * q.num, enclosureUnit p * q.den⟩ = (X : ℝ) / 2 ^ p * quotientValue q := by
    simp only [quotientValue]
    push_cast
    rw [unit_cast, mul_div_mul_comm]
  rw [e2, e, Finset.mul_sum]
  congr 2
  refine Finset.sum_congr rfl fun j _ => ?_
  rw [Nat.factorial_one, Nat.cast_one, add_comm 1, pow_succ]
  ring

end Sys2Proof.Laws
end

