-- ==== Sys2Proof/Laws/Rounding.lean ====
section
/-! SUPPORT. Rounding to binary32 (R13, R131): it keeps order, so an enclosure whose ends round to one word has that word as
its value's rounding; and it is constant around every real that is no boundary between two roundings, so a narrow
enough enclosure of such a real has ends that round to one word. -/

namespace Sys2Proof.Laws

open Sys2Proof.Machine Sys2Proof.Spec Filter Topology

/-- Real rounding of a quotient is the model's rounding of its numerator and denominator. -/
theorem roundUnits_div (num : Nat) {den : Nat} (hd : 0 < den) :
    roundUnits ((num : ℝ) / den) = roundMagnitude num den := by
  have hd' : (0 : ℝ) < den := by exact_mod_cast hd
  have e1 : ⌊(num : ℝ) / den⌋₊ = num / den := Nat.floor_div_eq_div _ _
  unfold roundUnits roundMagnitude
  simp only [e1]
  set t := Nat.log2 (num / den) - 23 with ht
  have hu : 0 < den * 2 ^ t := by positivity
  have hu' : (0 : ℝ) < (den * 2 ^ t : Nat) := by exact_mod_cast hu
  have e2 : (num : ℝ) / den / 2 ^ t = (num : ℝ) / (den * 2 ^ t : Nat) := by push_cast; rw [div_div]
  have e3 : ⌊(num : ℝ) / (den * 2 ^ t : Nat)⌋₊ = num / (den * 2 ^ t) := Nat.floor_div_eq_div _ _
  have e4 : (num : ℝ) / (den * 2 ^ t : Nat) - (num / (den * 2 ^ t) : Nat) =
      ((num % (den * 2 ^ t) : Nat) : ℝ) / (den * 2 ^ t : Nat) := by
    rw [eq_div_iff hu'.ne', sub_mul, div_mul_cancel₀ _ hu'.ne', sub_eq_iff_eq_add]
    exact_mod_cast (by rw [Nat.mul_comm (num / _), Nat.mod_add_div] :
      num = num % (den * 2 ^ t) + num / (den * 2 ^ t) * (den * 2 ^ t))
  simp only [e2, e3, e4]
  have c1 : (1 / 2 < ((num % (den * 2 ^ t) : Nat) : ℝ) / (den * 2 ^ t : Nat)) ↔
      den * 2 ^ t < 2 * (num % (den * 2 ^ t)) := by
    rw [div_lt_div_iff₀ two_pos hu']
    rw [← Nat.cast_lt (α := ℝ)]
    push_cast
    constructor <;> intro h <;> linarith
  have c2 : (((num % (den * 2 ^ t) : Nat) : ℝ) / (den * 2 ^ t : Nat) = 1 / 2) ↔
      2 * (num % (den * 2 ^ t)) = den * 2 ^ t := by
    rw [div_eq_div_iff hu'.ne' two_ne_zero]
    rw [← Nat.cast_inj (R := ℝ)]
    push_cast
    constructor <;> intro h <;> linarith
  simp only [c1, c2]

/-- Below the exponent range nothing is cut off: the integer part of `x / 2^t` keeps 24 bits. -/
theorem floor_scaled_bounds (x : ℝ) :
    ⌊x / 2 ^ (Nat.log2 ⌊x⌋₊ - 23)⌋₊ < 2 ^ 24 ∧
    (0 < Nat.log2 ⌊x⌋₊ - 23 → 2 ^ 23 ≤ ⌊x / 2 ^ (Nat.log2 ⌊x⌋₊ - 23)⌋₊) := by
  set t := Nat.log2 ⌊x⌋₊ - 23 with ht
  have e : ⌊x / 2 ^ t⌋₊ = ⌊x⌋₊ / 2 ^ t := by
    have := Nat.floor_div_natCast x (2 ^ t)
    push_cast at this
    exact this
  rw [e]
  constructor
  · rw [Nat.div_lt_iff_lt_mul (by positivity)]
    by_cases h0 : ⌊x⌋₊ = 0
    · rw [h0]; positivity
    · have h := Nat.lt_log2_self (n := ⌊x⌋₊)
      refine h.trans_le ?_
      rw [← pow_add]
      exact Nat.pow_le_pow_right two_pos (by omega)
  · intro hpos
    rw [Nat.le_div_iff_mul_le (by positivity), ← pow_add]
    have h0 : ⌊x⌋₊ ≠ 0 := by
      intro h
      rw [h, Nat.log2_zero] at ht
      omega
    refine le_trans (Nat.pow_le_pow_right two_pos (by omega)) (Nat.log2_self_le h0)

/-- Rounding to nearest even keeps order. -/
theorem roundUnits_mono {x y : ℝ} (hx : 0 ≤ x) (hxy : x ≤ y) : roundUnits x ≤ roundUnits y := by
  have hy := hx.trans hxy
  unfold roundUnits
  simp only
  set t := Nat.log2 ⌊x⌋₊ - 23 with ht
  set u := Nat.log2 ⌊y⌋₊ - 23 with hu
  have hfl : ⌊x⌋₊ ≤ ⌊y⌋₊ := Nat.floor_le_floor hxy
  have htu : t ≤ u := by
    have : Nat.log2 ⌊x⌋₊ ≤ Nat.log2 ⌊y⌋₊ := by
      rw [Nat.log2_eq_log_two, Nat.log2_eq_log_two]; exact Nat.log_mono_right hfl
    omega
  refine min_le_min le_rfl ?_
  have bx := floor_scaled_bounds x
  have by' := floor_scaled_bounds y
  rw [← ht] at bx
  rw [← hu] at by'
  rcases htu.eq_or_lt with h | h
  · rw [← h]
    rw [← h] at by'
    have hdiv : x / 2 ^ t ≤ y / 2 ^ t := by gcongr
    have hm : ⌊x / 2 ^ t⌋₊ ≤ ⌊y / 2 ^ t⌋₊ := Nat.floor_le_floor hdiv
    rcases hm.eq_or_lt with hm | hm
    · rw [← hm]
      have hr : x / 2 ^ t - ⌊x / 2 ^ t⌋₊ ≤ y / 2 ^ t - ⌊x / 2 ^ t⌋₊ := by linarith
      have himp : (1 / 2 < x / 2 ^ t - ⌊x / 2 ^ t⌋₊ ∨ (x / 2 ^ t - ⌊x / 2 ^ t⌋₊ = 1 / 2 ∧ ⌊x / 2 ^ t⌋₊ % 2 = 1)) →
          (1 / 2 < y / 2 ^ t - ⌊x / 2 ^ t⌋₊ ∨ (y / 2 ^ t - ⌊x / 2 ^ t⌋₊ = 1 / 2 ∧ ⌊x / 2 ^ t⌋₊ % 2 = 1)) := by
        rintro (h1 | ⟨h1, h2⟩)
        · exact .inl (h1.trans_le hr)
        · rcases (h1.symm.le.trans hr).eq_or_lt with h3 | h3
          · exact .inr ⟨h3.symm, h2⟩
          · exact .inl h3
      split <;> split <;> first | omega | (exfalso; tauto)
    · split <;> split <;> omega
  · have h1 := bx.1
    have h2 := by'.2 (by omega)
    have h3 : (t + 1) * 2 ^ 23 ≤ u * 2 ^ 23 := Nat.mul_le_mul_right _ h
    split <;> split <;> omega

/-- `roundUnits` takes one of the two neighbouring magnitudes whose values `x` lies between: the upper one past half way, the
even one half way, and infinity where the one taken is too large. -/
theorem roundUnits_between {x : ℝ} (hx : 0 ≤ x) : ∃ M : Nat,
    (scaledMagnitude M : ℝ) ≤ x ∧ x < scaledMagnitude (M + 1) ∧
    (2 * x < scaledMagnitude M + scaledMagnitude (M + 1) → roundUnits x = min infMagnitude M) ∧
    ((scaledMagnitude M + scaledMagnitude (M + 1) : ℝ) < 2 * x → roundUnits x = min infMagnitude (M + 1)) := by
  unfold roundUnits
  simp only
  obtain ⟨h1, h2⟩ := floor_scaled_bounds x
  set t := Nat.log2 ⌊x⌋₊ - 23 with ht
  set m := ⌊x / 2 ^ t⌋₊ with hm
  have h2t : (0 : ℝ) < 2 ^ t := by positivity
  have f1 : (m : ℝ) ≤ x / 2 ^ t := Nat.floor_le (by positivity)
  have f2 : x / 2 ^ t < (m : ℝ) + 1 := Nat.lt_floor_add_one _
  rw [le_div_iff₀ h2t] at f1
  rw [div_lt_iff₀ h2t] at f2
  have e1 : (scaledMagnitude (t * 2 ^ 23 + m) : ℝ) = m * 2 ^ t := by
    rw [scaledMagnitude_step h1.le h2]; push_cast; ring
  have e2 : (scaledMagnitude (t * 2 ^ 23 + m + 1) : ℝ) = (m + 1) * 2 ^ t := by
    rw [Nat.add_assoc, scaledMagnitude_step h1 fun h => (h2 h).trans (Nat.le_succ _)]; push_cast; ring
  refine ⟨t * 2 ^ 23 + m, by rw [e1]; exact f1, by rw [e2]; exact f2, fun h => ?_, fun h => ?_⟩
  · rw [e1, e2] at h
    have hlt : x / 2 ^ t - m < 1 / 2 := by
      rw [sub_lt_iff_lt_add, div_lt_iff₀ h2t]; linarith
    rw [if_neg (by rintro (h' | ⟨h', -⟩) <;> linarith), Nat.add_zero]
  · rw [e1, e2] at h
    have hlt : 1 / 2 < x / 2 ^ t - m := by
      rw [lt_sub_iff_add_lt, lt_div_iff₀ h2t]; linarith
    rw [if_pos (.inl hlt)]

/-- The magnitude a real lies just above is the only one. -/
theorem magnitude_unique {x : ℝ} {M K : Nat} (h1 : (scaledMagnitude M : ℝ) ≤ x) (h2 : x < scaledMagnitude (M + 1))
    (h3 : (scaledMagnitude K : ℝ) ≤ x) (h4 : x < scaledMagnitude (K + 1)) : M = K := by
  have a : scaledMagnitude M < scaledMagnitude (K + 1) := by exact_mod_cast h1.trans_lt h4
  have b : scaledMagnitude K < scaledMagnitude (M + 1) := by exact_mod_cast h3.trans_lt h2
  rw [scaledMagnitude_strictMono.lt_iff_lt] at a b
  omega

/-- The rounding of a real whose neighbours below and above are known. -/
theorem roundUnits_of {x : ℝ} {M : Nat} (h1 : (scaledMagnitude M : ℝ) ≤ x) (h2 : x < scaledMagnitude (M + 1)) :
    (2 * x < scaledMagnitude M + scaledMagnitude (M + 1) → roundUnits x = min infMagnitude M) ∧
    ((scaledMagnitude M + scaledMagnitude (M + 1) : ℝ) < 2 * x → roundUnits x = min infMagnitude (M + 1)) := by
  have hx : 0 ≤ x := le_trans (Nat.cast_nonneg _) h1
  obtain ⟨K, h3, h4, h5⟩ := roundUnits_between hx
  rw [magnitude_unique h1 h2 h3 h4]
  exact h5

/-- `u` units of 2^-149 lie half way between two neighbouring magnitudes. -/
def Midpoint (u : ℝ) : Prop := ∃ M : Nat, 2 * u = scaledMagnitude M + scaledMagnitude (M + 1)

/-- Around a positive real that is no midpoint rounding is constant. -/
theorem roundUnits_constant {u : ℝ} (hu : 0 < u) (hm : ¬ Midpoint u) :
    ∃ a b : ℝ, 0 ≤ a ∧ a < u ∧ u < b ∧ ∀ v, a ≤ v → v ≤ b → roundUnits v = roundUnits u := by
  have main (a b : ℝ) (ha : 0 ≤ a) (hau : a < u) (hub : u < b) (e : roundUnits a = roundUnits u)
      (e' : roundUnits b = roundUnits u) :
      ∃ a b : ℝ, 0 ≤ a ∧ a < u ∧ u < b ∧ ∀ v, a ≤ v → v ≤ b → roundUnits v = roundUnits u :=
    ⟨a, b, ha, hau, hub, fun v h1 h2 => le_antisymm ((roundUnits_mono (ha.trans h1) h2).trans_eq e')
      (e.symm.trans_le (roundUnits_mono ha h1))⟩
  obtain ⟨M, h1, h2, lower, upper⟩ := roundUnits_between hu.le
  have step (K : Nat) : (scaledMagnitude K : ℝ) < scaledMagnitude (K + 1) := by
    exact_mod_cast scaledMagnitude_succ_lt K
  have hS := step M
  have hM0 : (0 : ℝ) ≤ scaledMagnitude M := Nat.cast_nonneg _
  rcases lt_trichotomy (2 * u) (scaledMagnitude M + scaledMagnitude (M + 1)) with h | h | h
  · -- above: half the way on to the midpoint
    have hb := (roundUnits_of (x := (u + (scaledMagnitude M + scaledMagnitude (M + 1)) / 2) / 2) (M := M)
      (by linarith) (by linarith)).1 (by linarith)
    have e := lower h
    rcases h1.eq_or_lt with heq | hlt
    · -- below: the midpoint under M, as `u` is M itself
      obtain ⟨K, rfl⟩ : ∃ K, M = K + 1 := by
        refine Nat.exists_eq_succ_of_ne_zero fun h0 => ?_
        rw [h0] at heq
        have : scaledMagnitude 0 = 0 := by decide
        rw [this] at heq
        simp only [Nat.cast_zero] at heq
        linarith
      have hK := step K
      have hK0 : (0 : ℝ) ≤ scaledMagnitude K := Nat.cast_nonneg _
      have ha := (roundUnits_of (x := (3 * (scaledMagnitude (K + 1) : ℝ) + scaledMagnitude K) / 4) (M := K)
        (by linarith) (by linarith)).2 (by linarith)
      exact main _ _ (by linarith) (by linarith) (by linarith) (ha.trans e.symm) (hb.trans e.symm)
    · have ha := (roundUnits_of (x := (scaledMagnitude M : ℝ)) (M := M) le_rfl hS).1 (by linarith)
      exact main _ _ hM0 hlt (by linarith) (ha.trans e.symm) (hb.trans e.symm)
  · exact absurd ⟨M, h⟩ hm
  · have e := upper h
    have ha := (roundUnits_of (x := (u + (scaledMagnitude M + scaledMagnitude (M + 1)) / 2) / 2) (M := M)
      (by linarith) (by linarith)).2 (by linarith)
    have hS' := step (M + 1)
    have hb := (roundUnits_of (x := (scaledMagnitude (M + 1) : ℝ)) (M := M + 1) le_rfl hS').1 (by linarith)
    exact main _ _ (by linarith) (by linarith) h2 (ha.trans e.symm) (hb.trans e.symm)

theorem roundEnd_eq (p : Nat) (z : Int) : roundEnd p z = round32 ((z : ℝ) / 2 ^ p) := by
  have hu : |(z : ℝ) / 2 ^ p| * 2 ^ 149 = ((z.natAbs * 2 ^ 149 : Nat) : ℝ) / (enclosureUnit p : Nat) := by
    rw [abs_div, abs_of_pos (unit_pos p), unit_cast, Nat.cast_mul, Nat.cast_pow, Nat.cast_ofNat, Nat.cast_natAbs,
      Int.cast_abs, div_mul_eq_mul_div]
  unfold roundEnd round32
  rw [hu, roundUnits_div _ (unit_nat_pos p)]
  have : (z < 0) ↔ ((z : ℝ) / 2 ^ p < 0) := by
    rw [div_lt_iff₀ (unit_pos p), zero_mul]; exact_mod_cast Iff.rfl
  simp only [this]

theorem sign_ofSignMagnitude (neg : Bool) (m : Nat) : signBit (ofSignMagnitude neg m) = neg := by
  unfold signBit ofSignMagnitude
  rw [BitVec.getLsbD_append]
  cases neg <;> rfl

theorem roundUnits_lt (x : ℝ) : roundUnits x < 2 ^ 31 := by
  unfold roundUnits
  exact (min_le_left _ _).trans_lt (by simp [infMagnitude])

theorem round32_eq_iff (x y : ℝ) : round32 x = round32 y ↔
    ((x < 0 ↔ y < 0) ∧ roundUnits (|x| * 2 ^ 149) = roundUnits (|y| * 2 ^ 149)) := by
  constructor
  · intro h
    have hs := congrArg signBit h
    have hm := congrArg magnitude h
    simp only [round32, sign_ofSignMagnitude, magnitude_of _ (roundUnits_lt _), decide_eq_decide] at hs hm
    exact ⟨hs, hm⟩
  · rintro ⟨hs, hm⟩
    unfold round32
    simp only [hs, hm]

/-- Rounding keeps order: a real between two that round to one word rounds to it too. -/
theorem round32_between {l x r : ℝ} (h1 : l ≤ x) (h2 : x ≤ r) (h : round32 l = round32 r) : round32 l = round32 x := by
  rw [round32_eq_iff] at h ⊢
  obtain ⟨hs, hm⟩ := h
  by_cases hl : l < 0
  · have hr := hs.mp hl
    have hx : x < 0 := h2.trans_lt hr
    refine ⟨by simp [hl, hx], le_antisymm (hm.le.trans (roundUnits_mono (by positivity) ?_))
      (roundUnits_mono (by positivity) ?_)⟩
    · rw [abs_of_neg hx, abs_of_neg hr]; gcongr
    · rw [abs_of_neg hx, abs_of_neg hl]; gcongr
  · have hr : ¬ r < 0 := fun h => hl (hs.mpr h)
    have hl' := not_lt.mp hl
    have hx : ¬ x < 0 := not_lt.mpr (hl'.trans h1)
    refine ⟨by simp [hl, hx], le_antisymm (roundUnits_mono (by positivity) ?_)
      (le_trans (roundUnits_mono (by positivity) ?_) hm.ge)⟩
    · rw [abs_of_nonneg (not_lt.mp hx), abs_of_nonneg hl']; gcongr
    · rw [abs_of_nonneg (not_lt.mp hx), abs_of_nonneg (not_lt.mp hr)]; gcongr

/-- A decided enclosure: the word its ends round to is the exact value's rounding (R131). -/
theorem roundEnd_decided {p : Nat} {i : Ival} {x : ℝ} (h : Encloses p i x) (he : i.decided p = true) :
    roundEnd p i.lo = round32 x := by
  have hu := unit_pos p
  rw [Ival.decided, beq_iff_eq, roundEnd_eq, roundEnd_eq] at he
  rw [roundEnd_eq]
  exact round32_between (by rw [div_le_iff₀ hu]; exact h.1) (by rw [le_div_iff₀ hu]; exact h.2) he

/-- Around a real that is neither 0 nor a midpoint `round32` is constant. -/
theorem round32_eventually {x : ℝ} (h0 : x ≠ 0) (hm : ¬ Midpoint (|x| * 2 ^ 149)) {v : Nat → ℝ}
    (hv : Tendsto v atTop (𝓝 x)) : ∀ᶠ p in atTop, round32 (v p) = round32 x := by
  obtain ⟨a, b, -, hau, hub, hc⟩ := roundUnits_constant (by positivity : 0 < |x| * 2 ^ 149) hm
  have hab := (hv.abs.mul_const ((2 : ℝ) ^ 149))
  have sgn : ∀ᶠ p in atTop, (v p < 0 ↔ x < 0) := by
    rcases lt_or_gt_of_ne h0 with h | h
    · exact (hv.eventually_lt_const h).mono fun p hp => iff_of_true hp h
    · exact (hv.eventually_const_lt h).mono fun p hp => iff_of_false hp.le.not_gt h.le.not_gt
  filter_upwards [sgn, hab.eventually_const_lt hau, hab.eventually_lt_const hub] with p h1 h2 h3
  exact (round32_eq_iff _ _).mpr ⟨h1, hc _ h2.le h3.le⟩

/-- An approximation of a real that is neither 0 nor a midpoint is decided from some precision on. -/
theorem Approximates.eventually_decided {e : Nat → Ival} {x : ℝ} (h : Approximates e x) (h0 : x ≠ 0)
    (hm : ¬ Midpoint (|x| * 2 ^ 149)) : ∀ᶠ p in atTop, (e p).decided p = true := by
  filter_upwards [round32_eventually h0 hm h.lo, round32_eventually h0 hm h.hi] with p h1 h2
  rw [Ival.decided, beq_iff_eq, roundEnd_eq, roundEnd_eq, h1, h2]

/-- A real below 4 rounds to a finite binary32. -/
theorem round32_finite {x : ℝ} (h : |x| < 4) : isFinite32 (round32 x) = true := by
  have hle : roundUnits (|x| * 2 ^ 149) ≤ roundUnits (((2 ^ 151 : Nat) : ℝ) / (1 : Nat)) := by
    refine roundUnits_mono (by positivity) ?_
    calc |x| * 2 ^ 149 ≤ 4 * 2 ^ 149 := by gcongr
      _ = ((2 ^ 151 : Nat) : ℝ) / (1 : Nat) := by
        rw [Nat.cast_one, div_one, Nat.cast_pow, Nat.cast_ofNat, show (4 : ℝ) = 2 ^ 2 by norm_num, ← pow_add]
  rw [roundUnits_div _ one_pos] at hle
  have hc : roundMagnitude (2 ^ 151) 1 < infMagnitude := by decide +kernel
  unfold isFinite32 round32
  rw [magnitude_of _ (roundUnits_lt _), decide_eq_true_eq]
  exact hle.trans_lt hc

/-- The model's rounding of `num / den` units of 2^-149 under a sign, as the rounding of a real (R13). -/
theorem ofSignMagnitude_round {neg : Bool} {num den : Nat} (hd : 0 < den) {x : ℝ} (hn : neg = true ↔ x < 0)
    (hx : |x| * 2 ^ 149 = (num : ℝ) / den) : ofSignMagnitude neg (roundMagnitude num den) = round32 x := by
  unfold round32
  rw [hx, roundUnits_div _ hd]
  congr 1
  rw [Bool.eq_iff_iff, hn, decide_eq_true_iff]

end Sys2Proof.Laws
end

