-- ==== Sys2Proof/Laws/Boundary.lean ====
section
/-! SUPPORT. No exact coefficient of R124 to R128 lies half way between two binary32 values. A half way point is an odd number
over a power of 2 of at least 2^23 (R13), while an odd multiple of 16 times a coefficient is an algebraic integer:
sine and cosine of rational parts of π are half sums of roots of unity, and the powers of 2 in the denominators
of R124 and R125 are bounded. -/

namespace Sys2Proof.Laws

open Sys2Proof.Machine Sys2Proof.Spec

/-! ## Powers of 2 in algebraic integers -/

/-- The algebraic integers. -/
abbrev AlgInt : Type := integralClosure ℤ ℂ

/-- `z` divides an odd number times 2^k. -/
def DividesTwo (k : Nat) (z : AlgInt) : Prop := ∃ N : ℤ, Odd N ∧ z ∣ 2 ^ k * (N : AlgInt)

theorem DividesTwo.of_dvd {k : Nat} {a b : AlgInt} (h : DividesTwo k b) (hab : a ∣ b) : DividesTwo k a := by
  obtain ⟨N, hN, hd⟩ := h
  exact ⟨N, hN, hab.trans hd⟩

theorem DividesTwo.mul {k l : Nat} {a b : AlgInt} (ha : DividesTwo k a) (hb : DividesTwo l b) :
    DividesTwo (k + l) (a * b) := by
  obtain ⟨N, hN, hd⟩ := ha
  obtain ⟨M, hM, he⟩ := hb
  refine ⟨N * M, hN.mul hM, (mul_dvd_mul hd he).trans (dvd_of_eq ?_)⟩
  push_cast
  ring

theorem DividesTwo.mono {k l : Nat} {a : AlgInt} (h : DividesTwo k a) (hkl : k ≤ l) : DividesTwo l a := by
  obtain ⟨N, hN, hd⟩ := h
  exact ⟨N, hN, hd.trans (mul_dvd_mul_right (pow_dvd_pow 2 hkl) _)⟩

/-- A unit factor does not matter. -/
theorem DividesTwo.unit_mul {k : Nat} {u v z : AlgInt} (h : DividesTwo k z) (huv : u * v = 1) : DividesTwo k (u * z) := by
  refine h.of_dvd ⟨v, ?_⟩
  rw [mul_comm u z, mul_assoc, huv, mul_one]

/-- A root of unity of odd order. -/
theorem dividesTwo_odd {ω : AlgInt} {m : Nat} (hm : Odd m) (h : ω ^ m = 1) (h1 : ω ≠ 1) : DividesTwo 0 (1 - ω) := by
  refine ⟨m, by exact_mod_cast hm, ?_⟩
  have hg : ∑ k ∈ Finset.range m, ω ^ k = 0 := by
    have := mul_geom_sum ω m
    rw [h, sub_self] at this
    exact (mul_eq_zero.mp this).resolve_left (sub_ne_zero.mpr h1)
  have e : ((m : ℤ) : AlgInt) = ∑ k ∈ Finset.range m, (1 - ω ^ k) := by
    rw [Finset.sum_sub_distrib, hg, sub_zero]
    simp
  rw [pow_zero, one_mul, e]
  exact Finset.dvd_sum fun k _ => one_sub_dvd_one_sub_pow ω k

/-- Any root of unity but 1. -/
theorem dividesTwo_root {ω : AlgInt} (h1 : ω ≠ 1) : ∀ {m : Nat}, 0 < m → ω ^ m = 1 → DividesTwo 1 (1 - ω) := by
  intro m
  induction m using Nat.strong_induction_on with
  | _ m ih =>
    intro hm h
    rcases Nat.even_or_odd' m with ⟨n, rfl | rfl⟩
    · have h2 : ω ^ n * ω ^ n = 1 := by rw [← pow_add, ← two_mul]; exact h
      rcases mul_self_eq_one_iff.mp h2 with h3 | h3
      · exact ih n (by omega) (by omega) h3
      · refine ⟨1, odd_one, (one_sub_dvd_one_sub_pow ω n).trans (dvd_of_eq ?_)⟩
        rw [h3]; push_cast; ring
    · exact (dividesTwo_odd ⟨n, rfl⟩ h h1).mono (by omega)

/-- Any root of unity but 1 and -1, squared. -/
theorem dividesTwo_root_sq {ω : AlgInt} (h1 : ω ≠ 1) (h2 : ω ≠ -1) :
    ∀ {m : Nat}, 0 < m → ω ^ m = 1 → DividesTwo 1 ((1 - ω) ^ 2) := by
  intro m
  induction m using Nat.strong_induction_on with
  | _ m ih =>
    intro hm h
    have square {z : AlgInt} (hz : DividesTwo 0 z) : DividesTwo 1 (z ^ 2) := by
      rw [sq]; exact (hz.mul hz).mono (by omega)
    rcases Nat.even_or_odd' m with ⟨n, rfl | rfl⟩
    · have h3 : ω ^ n * ω ^ n = 1 := by rw [← pow_add, ← two_mul]; exact h
      rcases mul_self_eq_one_iff.mp h3 with h4 | h4
      · exact ih n (by omega) (by omega) h4
      rcases Nat.even_or_odd' n with ⟨j, rfl | rfl⟩
      · -- ω^j is a square root of -1
        have h5 : (ω ^ j) ^ 2 = -1 := by rw [← pow_mul, mul_comm]; exact h4
        refine ⟨1, odd_one, (pow_dvd_pow_of_dvd (one_sub_dvd_one_sub_pow ω j) 2).trans ⟨ω ^ j, ?_⟩⟩
        have : (1 - ω ^ j) ^ 2 = -2 * ω ^ j := by
          have e : (1 - ω ^ j) ^ 2 = 1 + (ω ^ j) ^ 2 - 2 * ω ^ j := by ring
          rw [e, h5]; ring
        rw [this, mul_assoc, ← sq, h5]
        push_cast
        ring
      · -- ω² has odd order
        have h5 : (ω ^ 2) ^ (2 * j + 1) = 1 := by rw [← pow_mul, mul_comm, pow_mul, h4]; ring
        have h6 : ω ^ 2 ≠ 1 := fun h => by
          rw [sq] at h
          rcases mul_self_eq_one_iff.mp h with h | h
          · exact h1 h
          · exact h2 h
        exact square ((dividesTwo_odd ⟨j, rfl⟩ h5 h6).of_dvd (one_sub_dvd_one_sub_pow ω 2))
    · exact square (dividesTwo_odd ⟨n, rfl⟩ h h1)

/-- Twice an algebraic integer, less an odd number, divides an odd number. -/
theorem dividesTwo_sub_odd (b : AlgInt) {N : ℤ} (hN : Odd N) : DividesTwo 0 (2 * b - N) := by
  obtain ⟨p, hp, hb⟩ : IsIntegral ℤ b := integralClosure.isIntegral b
  have hb' : Polynomial.aeval b p = 0 := by rw [Polynomial.aeval_def]; exact hb
  have hq := Polynomial.scaleRoots_aeval_eq_zero (r := (2 : ℤ)) hb'
  set q := p.scaleRoots 2 with hqd
  refine ⟨q.eval N, ?_, ?_⟩
  · rw [Polynomial.eval_eq_sum_range, Polynomial.natDegree_scaleRoots, Finset.sum_range_succ]
    have lead : q.coeff p.natDegree = 1 := by
      rw [hqd, Polynomial.coeff_scaleRoots_natDegree]; exact hp
    rw [lead, one_mul]
    refine Even.add_odd ?_ hN.pow
    refine Finset.sum_induction _ Even (fun _ _ => Even.add) Even.zero fun i hi => ?_
    have hi' : i < p.natDegree := Finset.mem_range.mp hi
    rw [hqd, Polynomial.coeff_scaleRoots]
    have : Even ((2 : ℤ) ^ (p.natDegree - i)) := (even_two (α := ℤ)).pow_of_ne_zero (by omega)
    exact (this.mul_left _).mul_right _
  · have h := Polynomial.sub_dvd_eval_sub (2 * b) (N : AlgInt) (q.map (algebraMap ℤ AlgInt))
    rw [Polynomial.eval_map, Polynomial.eval_map, ← Polynomial.aeval_def, ← Polynomial.aeval_def] at h
    have h2 : Polynomial.aeval (2 * b) q = 0 := by simpa using hq
    have h3 : Polynomial.aeval ((N : ℤ) : AlgInt) q = ((q.eval N : ℤ) : AlgInt) := by
      have := Polynomial.aeval_algebraMap_apply AlgInt N q
      simpa using this
    rw [h2, h3, zero_sub, dvd_neg] at h
    simpa using h

/-- The denominator of R124: 4 plus a product whose square has at most the third power of 2. -/
theorem dividesTwo_den {α β : AlgInt} (hα : DividesTwo 1 α) (hβ : DividesTwo 1 (β ^ 2)) : DividesTwo 3 (4 + α * β) := by
  have hA : DividesTwo 3 ((α * β) ^ 2) := by
    rw [mul_pow, sq α]; exact (hα.mul hα).mul hβ
  obtain ⟨N, hN, b, hb⟩ := id hA
  refine (hA.mul (dividesTwo_sub_odd b hN)).of_dvd ⟨N * (4 - α * β), ?_⟩
  have : (α * β) ^ 2 * (2 * b - N) = 2 * ((α * β) ^ 2 * b) - N * (α * β) ^ 2 := by ring
  rw [this, ← hb]
  ring

/-! ## Real numbers with few factors 2 in the denominator -/

/-- An odd multiple of 16·x is an algebraic integer. -/
def FewTwos (x : ℝ) : Prop := ∃ N : ℤ, Odd N ∧ IsIntegral ℤ ((16 * N : ℂ) * x)

theorem FewTwos.neg {x : ℝ} (h : FewTwos x) : FewTwos (-x) := by
  obtain ⟨N, hN, hi⟩ := h
  refine ⟨N, hN, ?_⟩
  have := hi.neg
  push_cast
  rwa [mul_neg]

/-- A quotient by twice a number with at most the third power of 2. -/
theorem fewTwos_div {x : ℝ} {U v : AlgInt} (hU : DividesTwo 3 U) (hx : (x : ℂ) * (2 * U) = v) : FewTwos x := by
  obtain ⟨N, hN, w, hw⟩ := hU
  refine ⟨N, hN, ?_⟩
  have e : (16 * N : ℂ) * x = ((v * w : AlgInt) : ℂ) := by
    have h := congrArg (Subtype.val : AlgInt → ℂ) hw
    have h8 : (2 : ℂ) ^ 3 * N = U * w := h
    push_cast
    rw [← hx]
    linear_combination 2 * (x : ℂ) * h8
  rw [e]
  exact (v * w).2

/-- A half way point is an odd number over a power of 2. -/
theorem Midpoint.form {u : ℝ} (h : Midpoint u) (hlt : u < 2 ^ 151) :
    ∃ m t : Nat, t ≤ 127 ∧ 2 * u = ((2 * m + 1 : Nat) : ℝ) * 2 ^ t := by
  obtain ⟨M, hM⟩ := h
  obtain ⟨t, m, hMt, h1, h2⟩ : ∃ t m, M = t * 2 ^ 23 + m ∧ m < 2 ^ 24 ∧ (0 < t → 2 ^ 23 ≤ m) :=
    ⟨M / 2 ^ 23 - 1, M - (M / 2 ^ 23 - 1) * 2 ^ 23, by omega, by omega, by omega⟩
  have e : 2 * u = ((2 * m + 1 : Nat) : ℝ) * 2 ^ t := by
    rw [hM, hMt, Nat.add_assoc, scaledMagnitude_step h1.le h2, scaledMagnitude_step h1 fun h => (h2 h).trans (Nat.le_succ _)]
    push_cast
    ring
  refine ⟨m, t, ?_, e⟩
  by_contra ht
  have hm := h2 (by omega)
  have h3 : ((2 ^ 24 : Nat) : ℝ) * 2 ^ 128 ≤ ((2 * m + 1 : Nat) : ℝ) * 2 ^ t := by
    refine mul_le_mul (by exact_mod_cast (by omega)) (pow_le_pow_right₀ one_le_two (by omega)) (by positivity) (by positivity)
  rw [← e] at h3
  have h4 : ((2 ^ 24 : Nat) : ℝ) * 2 ^ 128 = 2 * 2 ^ 151 := by
    rw [Nat.cast_pow, Nat.cast_ofNat, ← pow_add, ← pow_succ']
  rw [h4] at h3
  linarith

/-- Such a number below 4 is no half way point. -/
theorem FewTwos.not_midpoint {x : ℝ} (h : FewTwos x) (hx : |x| < 4) : ¬ Midpoint (|x| * 2 ^ 149) := by
  have habs : FewTwos |x| := by
    rcases abs_choice x with e | e
    · rw [e]; exact h
    · rw [e]; exact h.neg
  intro hm
  obtain ⟨m, t, ht, e⟩ := hm.form (by
    calc |x| * 2 ^ 149 < 4 * 2 ^ 149 := by gcongr
      _ = 2 ^ 151 := by rw [show (4 : ℝ) = 2 ^ 2 by norm_num, ← pow_add])
  obtain ⟨N, hN, hi⟩ := habs
  obtain ⟨s, hs⟩ : ∃ s, 150 = s + 5 + t := ⟨145 - t, by omega⟩
  have e2 : |x| * 2 ^ (s + 5) = ((2 * m + 1 : Nat) : ℝ) := by
    have h2 : |x| * 2 ^ (s + 5) * 2 ^ t = ((2 * m + 1 : Nat) : ℝ) * 2 ^ t := by
      rw [← e, mul_assoc, ← pow_add, ← hs, show (150 : Nat) = 149 + 1 by rfl, pow_succ]; ring
    exact mul_right_cancel₀ (by positivity) h2
  have hq : (16 * N : ℂ) * (|x| : ℝ) = (((N * (2 * m + 1) : ℤ) / 2 ^ (s + 1) : ℚ) : ℂ) := by
    have h3 : ((|x| : ℝ) : ℂ) * 2 ^ (s + 5) = ((2 * m + 1 : Nat) : ℂ) := by exact_mod_cast congrArg (Complex.ofReal) e2
    have h4 : (2 : ℂ) ^ (s + 1) ≠ 0 := pow_ne_zero _ two_ne_zero
    push_cast at h3 ⊢
    rw [eq_div_iff h4]
    linear_combination (N : ℂ) * h3
  rw [hq] at hi
  have hi' : IsIntegral ℤ (((N * (2 * m + 1) : ℤ) / 2 ^ (s + 1) : ℚ)) := by
    refine (isIntegral_algebraMap_iff (A := ℚ) (B := ℂ) (algebraMap ℚ ℂ).injective).mp ?_
    simpa using hi
  obtain ⟨y, hy⟩ := IsIntegrallyClosed.isIntegral_iff.mp hi'
  have hz : (y : ℚ) * 2 ^ (s + 1) = ((N * (2 * m + 1) : ℤ) : ℚ) := by
    have h4 : (2 : ℚ) ^ (s + 1) ≠ 0 := by positivity
    rw [← eq_div_iff h4]; simpa using hy
  have hz' : y * 2 ^ (s + 1) = N * (2 * m + 1) := by exact_mod_cast hz
  have odd : Odd (y * 2 ^ (s + 1)) := by
    rw [hz']; exact hN.mul ⟨m, by ring⟩
  have even : Even (y * 2 ^ (s + 1)) := ((even_two (α := ℤ)).pow_of_ne_zero (Nat.succ_ne_zero s)).mul_left y
  exact (Int.not_even_iff_odd.mpr odd) even

end Sys2Proof.Laws
end

