-- ==== Sys2Proof/Laws/Decode.lean ====
section
/-! SUPPORT. Header fields: what a field of a built header reads as, and that a header is made of its fields. -/

namespace Sys2Proof.Laws

/-! ## Fields of words put together -/

theorem extract_above {m n : Nat} (x : BitVec m) (y : BitVec n) (k w : Nat) :
    (x ++ y).extractLsb' (n + k) w = x.extractLsb' k w := by
  ext i hi
  simp only [BitVec.getElem_extractLsb', BitVec.getLsbD_append]
  rw [if_neg (by omega)]
  congr 1
  omega

theorem extract_within {m n : Nat} (x : BitVec m) (y : BitVec n) {s w : Nat} (h : s + w ≤ n) :
    (x ++ y).extractLsb' s w = y.extractLsb' s w := by
  ext i hi
  simp only [BitVec.getElem_extractLsb', BitVec.getLsbD_append]
  rw [if_pos (by omega)]

theorem extract_all {m : Nat} (x : BitVec m) : x.extractLsb' 0 m = x := by
  ext i hi
  simp

theorem extract_top {m n : Nat} (x : BitVec m) (y : BitVec n) : (x ++ y).extractLsb' n m = x :=
  (extract_above x y 0 m).trans (extract_all x)

theorem extract_bottom {m n : Nat} (x : BitVec m) (y : BitVec n) : (x ++ y).extractLsb' 0 n = y :=
  (extract_within x y (by omega)).trans (extract_all y)

theorem append_extract {a b c : Nat} (h : BitVec c) (s : Nat) :
    h.extractLsb' (s + b) a ++ h.extractLsb' s b = h.extractLsb' s (a + b) := by
  ext i hi
  rw [BitVec.getElem_append]
  simp only [BitVec.getElem_extractLsb', dite_eq_ite, ite_eq_left_iff, not_lt]
  intro h
  congr 1
  omega

/-! ## Fields of headers (R91) -/

/-- The OPC of every encoded header is its row's (R90, R92). -/
theorem opcode_encodeHeader (i : Instr) : (encodeHeader i).extractLsb' 28 4 = i.opc := by
  cases i with
  | prepare p r m f => exact (extract_above (0x1#4 ++ r) m 12 4).trans (extract_top _ _)
  | processBlock p r fs => exact (extract_above (0x2#4 ++ r) (BitVec.ofNat 16 fs.length) 12 4).trans (extract_top _ _)
  | readStage p r ch idx =>
    exact (extract_above (0x4#4 ++ r ++ ch.bit) (BitVec.ofFin (w := 2) idx) 26 4).trans
      ((extract_above (0x4#4 ++ r) ch.bit 25 4).trans (extract_top _ _))
  | setSettings p r fam ty s c =>
    exact (extract_above (0x8#4 ++ r ++ fam.bit ++ ty.bit) s 24 4).trans
      ((extract_above (0x8#4 ++ r ++ fam.bit) ty.bit 23 4).trans
        ((extract_above (0x8#4 ++ r) fam.bit 22 4).trans (extract_top _ _)))
  | release p r => exact extract_top _ _
  | readStatus p r => exact extract_top _ _
  | getSettings p r => exact extract_top _ _
  | reserved0 p r => exact extract_top _ _
  | reserved6 p r => exact extract_top _ _
  | reserved7 p r => exact extract_top _ _
  | reservedA p r => exact extract_top _ _
  | reservedB p r => exact extract_top _ _
  | reservedC p r => exact extract_top _ _
  | reservedD p r => exact extract_top _ _
  | reservedE p r => exact extract_top _ _
  | reservedF p r => exact extract_top _ _

theorem opcodeOf_encodeHeader (i : Instr) : opcodeOf (encodeHeader i) = i.opc.toNat := by
  rw [opcodeOf, opcode_encodeHeader]

theorem low_of_append (o : BitVec 4) (low : BitVec 28) : lowField (o ++ low) = low := extract_bottom o low

theorem count_of_append (o : BitVec 4) (r : BitVec 12) (m : BitVec 16) : countField (o ++ r ++ m) = m :=
  extract_bottom (o ++ r) m

theorem reserved_of_count (o : BitVec 4) (r : BitVec 12) (m : BitVec 16) :
    (o ++ r ++ m : Word).extractLsb' 16 12 = r :=
  (extract_above (o ++ r) m 0 12).trans (extract_bottom o r)

theorem stage_fields (o : BitVec 4) (r : BitVec 25) (c : BitVec 1) (i : BitVec 2) :
    (o ++ r ++ c ++ i : Word).extractLsb' 3 25 = r ∧ (o ++ r ++ c ++ i : Word).extractLsb' 2 1 = c ∧
    (o ++ r ++ c ++ i : Word).extractLsb' 0 2 = i :=
  ⟨(extract_above (o ++ r ++ c) i 1 25).trans ((extract_above (o ++ r) c 0 25).trans (extract_bottom o r)),
   (extract_above (o ++ r ++ c) i 0 1).trans (extract_bottom (o ++ r) c),
   extract_bottom (o ++ r ++ c) i⟩

theorem settings_fields (o : BitVec 4) (r : BitVec 22) (f t : BitVec 1) (s : BitVec 4) :
    (o ++ r ++ f ++ t ++ s : Word).extractLsb' 6 22 = r ∧ (o ++ r ++ f ++ t ++ s : Word).extractLsb' 5 1 = f ∧
    (o ++ r ++ f ++ t ++ s : Word).extractLsb' 4 1 = t ∧ (o ++ r ++ f ++ t ++ s : Word).extractLsb' 0 4 = s :=
  ⟨(extract_above (o ++ r ++ f ++ t) s 2 22).trans ((extract_above (o ++ r ++ f) t 1 22).trans
      ((extract_above (o ++ r) f 0 22).trans (extract_bottom o r))),
   (extract_above (o ++ r ++ f ++ t) s 1 1).trans ((extract_above (o ++ r ++ f) t 0 1).trans (extract_bottom (o ++ r) f)),
   (extract_above (o ++ r ++ f ++ t) s 0 1).trans (extract_bottom (o ++ r ++ f) t),
   extract_bottom (o ++ r ++ f ++ t) s⟩

/-! ## A header is made of its fields -/

theorem header_of_low (h : Word) : h.extractLsb' 28 4 ++ lowField h = h :=
  (append_extract (a := 4) (b := 28) h 0).trans (extract_all h)

theorem header_of_count (h : Word) : h.extractLsb' 28 4 ++ h.extractLsb' 16 12 ++ countField h = h :=
  (congrArg (· ++ countField h) (append_extract (a := 4) (b := 12) h 16)).trans
    ((append_extract (a := 16) (b := 16) h 0).trans (extract_all h))

theorem header_of_stage (h : Word) :
    h.extractLsb' 28 4 ++ h.extractLsb' 3 25 ++ h.extractLsb' 2 1 ++ h.extractLsb' 0 2 = h := by
  have e1 := append_extract (a := 4) (b := 25) h 3
  have e2 := append_extract (a := 29) (b := 1) h 2
  have e3 := append_extract (a := 30) (b := 2) h 0
  exact (congrArg (fun x => x ++ h.extractLsb' 2 1 ++ h.extractLsb' 0 2) e1).trans
    ((congrArg (· ++ h.extractLsb' 0 2) e2).trans (e3.trans (extract_all h)))

theorem header_of_settings (h : Word) :
    h.extractLsb' 28 4 ++ h.extractLsb' 6 22 ++ h.extractLsb' 5 1 ++ h.extractLsb' 4 1 ++ h.extractLsb' 0 4 = h := by
  have e1 := append_extract (a := 4) (b := 22) h 6
  have e2 := append_extract (a := 26) (b := 1) h 5
  have e3 := append_extract (a := 27) (b := 1) h 4
  have e4 := append_extract (a := 28) (b := 4) h 0
  exact (congrArg (fun x => x ++ h.extractLsb' 5 1 ++ h.extractLsb' 4 1 ++ h.extractLsb' 0 4) e1).trans
    ((congrArg (fun x => x ++ h.extractLsb' 4 1 ++ h.extractLsb' 0 4) e2).trans
      ((congrArg (· ++ h.extractLsb' 0 4) e3).trans (e4.trans (extract_all h))))

/-- An opcode number is the header's field. -/
theorem opcode_bits {h : Word} {n : Nat} (e : opcodeOf h = n) : h.extractLsb' 28 4 = BitVec.ofNat 4 n := by
  rw [← e, opcodeOf, BitVec.ofNat_toNat, BitVec.setWidth_eq]

/-- The header of each format, from its opcode and its fields (R91). -/
theorem low_words {h : Word} {n : Nat} (e : opcodeOf h = n) : BitVec.ofNat 4 n ++ lowField h = h := by
  rw [← opcode_bits e]; exact header_of_low h
theorem count_words {h : Word} {n : Nat} (e : opcodeOf h = n) :
    BitVec.ofNat 4 n ++ h.extractLsb' 16 12 ++ countField h = h := by
  rw [← opcode_bits e]; exact header_of_count h
theorem stage_words {h : Word} {n : Nat} (e : opcodeOf h = n) :
    BitVec.ofNat 4 n ++ h.extractLsb' 3 25 ++ h.extractLsb' 2 1 ++ h.extractLsb' 0 2 = h := by
  rw [← opcode_bits e]; exact header_of_stage h
theorem settings_words {h : Word} {n : Nat} (e : opcodeOf h = n) :
    BitVec.ofNat 4 n ++ h.extractLsb' 6 22 ++ h.extractLsb' 5 1 ++ h.extractLsb' 4 1 ++ h.extractLsb' 0 4 = h := by
  rw [← opcode_bits e]; exact header_of_settings h

theorem opcodeOf_lt (h : Word) : opcodeOf h < 16 := (h.extractLsb' 28 4).isLt

/-! ## One-bit fields -/

@[simp] theorem Channel.ofBit_bit (c : Channel) : Channel.ofBit c.bit = c := by cases c <;> rfl
@[simp] theorem FilterType.ofBit_bit (t : FilterType) : FilterType.ofBit t.bit = t := by cases t <;> rfl
@[simp] theorem Family.ofBit_bit (f : Family) : Family.ofBit f.bit = f := by cases f <;> rfl

theorem bit_cases (b : BitVec 1) : b = 0 ∨ b = 1 := by
  have : ∀ b : BitVec 1, b = 0 ∨ b = 1 := by decide
  exact this b

@[simp] theorem Channel.bit_ofBit (b : BitVec 1) : (Channel.ofBit b).bit = b := by
  rcases bit_cases b with rfl | rfl <;> rfl
@[simp] theorem FilterType.bit_ofBit (b : BitVec 1) : (FilterType.ofBit b).bit = b := by
  rcases bit_cases b with rfl | rfl <;> rfl
@[simp] theorem Family.bit_ofBit (b : BitVec 1) : (Family.ofBit b).bit = b := by
  rcases bit_cases b with rfl | rfl <;> rfl

/-! ## Frames -/

@[simp] theorem frameWords_length (fs : List Frame) : (frameWords fs).length = 2 * fs.length := by
  induction fs with
  | nil => rfl
  | cons f fs ih => simp only [frameWords, List.length_cons, ih]; omega

/-- Reading back the frames of a payload (R99). -/
theorem takeFrames_frameWords (fs : List Frame) (rest : List Word) :
    takeFrames fs.length (frameWords fs ++ rest) = some (fs, rest) := by
  induction fs with
  | nil => rfl
  | cons f fs ih => simp [frameWords, takeFrames, ih]

/-- What `takeFrames` reads is the front of the payload. -/
theorem takeFrames_eq {n : Nat} {ws rest : List Word} {fs : List Frame} (h : takeFrames n ws = some (fs, rest)) :
    fs.length = n ∧ ws = frameWords fs ++ rest := by
  induction n generalizing ws fs with
  | zero => simp only [takeFrames, Option.some.injEq, Prod.mk.injEq] at h; obtain ⟨rfl, rfl⟩ := h; exact ⟨rfl, rfl⟩
  | succ n ih =>
    match ws, h with
    | l :: r :: ws, h =>
      simp only [takeFrames, Option.map_eq_some_iff, Prod.mk.injEq] at h
      obtain ⟨⟨gs, rs⟩, h1, rfl, rfl⟩ := h
      obtain ⟨h2, rfl⟩ := ih h1
      exact ⟨by simp [h2], rfl⟩
    | [], h => simp [takeFrames] at h
    | [_], h => simp [takeFrames] at h

/-- Enough words make the frames. -/
theorem takeFrames_some {n : Nat} {ws : List Word} (h : ws.length = 2 * n) (rest : List Word) :
    ∃ fs, takeFrames n (ws ++ rest) = some (fs, rest) := by
  induction n generalizing ws with
  | zero => have := List.length_eq_zero_iff.mp h; subst this; exact ⟨[], rfl⟩
  | succ n ih =>
    match ws, h with
    | l :: r :: ws, h =>
      obtain ⟨fs, hfs⟩ := ih (ws := ws) (by simp only [List.length_cons] at h; omega)
      exact ⟨⟨l, r⟩ :: fs, by simp [takeFrames, hfs]⟩
    | [], h => simp at h
    | [_], h => simp at h; omega

/-- Too few words do not. -/
theorem takeFrames_none {n : Nat} {ws : List Word} (h : ws.length < 2 * n) : takeFrames n ws = none := by
  induction n generalizing ws with
  | zero => omega
  | succ n ih =>
    match ws, h with
    | l :: r :: ws, h =>
      simp only [List.length_cons] at h
      simp [takeFrames, ih (ws := ws) (by omega)]
    | [], _ => rfl
    | [_], _ => rfl

end Sys2Proof.Laws
end

