-- ==== Sys2Proof/Laws/Designer.lean ====
section
/-! SUPPORT. The reference design's enclosures hold the exact coefficients of the rules (R121 to R128) at every precision,
and tend to them. -/

namespace Sys2Proof.Laws

open Sys2Proof.Machine Sys2Proof.Spec

/-! ## The angle -/

theorem scaled_of_pos {w : Word} (h : 0 < scaled w) : scaled w = (scaledMagnitude (magnitude w) : Int) := by
  unfold scaled at h ⊢
  split at h
  · omega
  · next hs => simp [hs]

/-- `warpOf` approximates cosine and sine of the double angle, which is a rational part of π between 0 and π; where the cosine
is 0 both are exact. -/
theorem approx_warpOf {c f : Word} (h : cutoffValid c f = true) :
    0 < Real.pi * realOf c / realOf f ∧ Real.pi * realOf c / realOf f < Real.pi / 2 ∧
    ∃ n d : Nat, 0 < n ∧ n < d ∧ 2 * (Real.pi * realOf c / realOf f) = Real.pi * n / d ∧
      Approximates (fun p => (warpOf p c f).cos2) (Real.cos (Real.pi * n / d)) ∧
      Approximates (fun p => (warpOf p c f).sin2) (Real.sin (Real.pi * n / d)) ∧
      (Real.cos (Real.pi * n / d) = 0 → ∀ p, warpOf p c f = ⟨Ival.ofNat p 0, Ival.ofNat p 1⟩) := by
  simp only [cutoffValid, Bool.and_eq_true, decide_eq_true_eq] at h
  obtain ⟨⟨-, hc⟩, hcf⟩ := h
  have ec := scaled_of_pos hc
  have ef := scaled_of_pos (by omega : 0 < scaled f)
  unfold warpOf
  set m := scaledMagnitude (magnitude c)
  set d := scaledMagnitude (magnitude f)
  have hd0 : 0 < d := by omega
  have hm0' : (0 : ℝ) < m := by exact_mod_cast (by omega : 0 < m)
  have hd0' : (0 : ℝ) < d := by exact_mod_cast hd0
  have hmd' : (2 : ℝ) * m < d := by exact_mod_cast (by omega : 2 * m < d)
  have ha : Real.pi * realOf c / realOf f = Real.pi * m / d := by
    rw [realOf, realOf, ec, ef, Int.cast_natCast, Int.cast_natCast]
    field_simp
  have hlt : Real.pi * realOf c / realOf f < Real.pi / 2 := by
    rw [ha, div_lt_div_iff₀ hd0' two_pos]
    nlinarith [Real.pi_pos]
  refine ⟨by rw [ha]; positivity, hlt, 2 * m, d, by omega, by omega, by rw [ha]; push_cast; ring, ?_⟩
  have hn : ((2 * m : Nat) : ℝ) = 2 * m := by push_cast; ring
  simp only
  split
  · next h =>
    refine ⟨approx_cosPi hd0 (by omega), approx_sinPi hd0 (by omega), fun h0 => absurd h0 (ne_of_gt ?_)⟩
    refine Real.cos_pos_of_mem_Ioo ⟨?_, ?_⟩
    · have : (0 : ℝ) ≤ Real.pi * (2 * m : Nat) / d := by positivity
      linarith [Real.pi_pos]
    · have h' : (2 : ℝ) * (2 * m : Nat) < d := by exact_mod_cast h
      rw [div_lt_div_iff₀ hd0' two_pos]
      nlinarith [Real.pi_pos]
  split
  · next h =>
    have e : Real.pi * (2 * m : Nat) / d = Real.pi / 2 := by
      have : (d : ℝ) = 2 * (2 * m : Nat) := by exact_mod_cast h.symm
      rw [this]; push_cast; field_simp
    rw [e, Real.cos_pi_div_two, Real.sin_pi_div_two]
    exact ⟨by simpa using approx_ofNat 0, by simpa using approx_ofNat 1, fun _ _ => rfl⟩
  · next h1 h2 =>
    have e : Real.pi * (2 * m : Nat) / d = Real.pi - Real.pi * (d - 2 * m : Nat) / d := by
      rw [Nat.cast_sub (by omega)]; field_simp; ring
    rw [e, Real.cos_pi_sub, Real.sin_pi_sub]
    refine ⟨(approx_cosPi hd0 (by omega)).neg, approx_sinPi hd0 (by omega), fun h0 => absurd (neg_eq_zero.mp h0) (ne_of_gt ?_)⟩
    refine Real.cos_pos_of_mem_Ioo ⟨?_, ?_⟩
    · have : (0 : ℝ) ≤ Real.pi * (d - 2 * m : Nat) / d := by positivity
      linarith [Real.pi_pos]
    · have h' : (2 : ℝ) * (d - 2 * m : Nat) < d := by exact_mod_cast (by omega : 2 * (d - 2 * m) < d)
      rw [div_lt_div_iff₀ hd0' two_pos]
      nlinarith [Real.pi_pos]

/-! ## Sections -/

/-- The enclosures of a section approximate its exact coefficients. -/
structure ApproximatesSection (s : Nat → Section) (r : RealSection) : Prop where
  b0 : Approximates (fun p => (s p).b0) r.b0
  b1 : Approximates (fun p => (s p).b1) r.b1
  b2 : Approximates (fun p => (s p).b2) r.b2
  a1 : Approximates (fun p => (s p).a1) r.a1
  a2 : Approximates (fun p => (s p).a2) r.a2
  a0 : r.a0 = 1

theorem ApproximatesSection.encl {s : Nat → Section} {r : RealSection} (h : ApproximatesSection s r) (p : Nat) :
    EnclosesSection p (s p) r :=
  ⟨h.b0.encl p, h.b1.encl p, h.b2.encl p, h.a1.encl p, h.a2.encl p, h.a0⟩

/-! ## The double angle -/

/-- `SOS2` in the double angle: C and S are the cosine and sine of 2πq, `h` is 1/(2Q). -/
noncomputable def doubleSos2 (ty : FilterType) (C S h : ℝ) : RealSection :=
  let D := 1 + S * h
  match ty with
  | .lowPass => ⟨(1 - C) / (2 * D), (1 - C) / D, (1 - C) / (2 * D), 1, -(2 * C) / D, (1 - S * h) / D⟩
  | .highPass => ⟨(1 + C) / (2 * D), -((1 + C) / D), (1 + C) / (2 * D), 1, -(2 * C) / D, (1 - S * h) / D⟩

/-- `SOS1` in the double angle. -/
noncomputable def doubleSos1 (ty : FilterType) (C S : ℝ) : RealSection :=
  let D := 1 + S
  match ty with
  | .lowPass => ⟨(1 - C + S) / (2 * D), (1 - C + S) / (2 * D), 0, 1, -C / D, 0⟩
  | .highPass => ⟨(1 + C + S) / (2 * D), -((1 + C + S) / (2 * D)), 0, 1, -C / D, 0⟩

section
variable {a : ℝ}

/-- The rules' SOS2 in k = tan a is the same section in the double angle (R124). -/
theorem sos2_eq_double (ty : FilterType) {h : ℝ} (h0 : 0 < a) (h1 : a < Real.pi / 2) (hpos : 0 < h) :
    Spec.sos2 ty (Real.tan a) (1 / (2 * h)) = doubleSos2 ty (Real.cos (2 * a)) (Real.sin (2 * a)) h := by
  have hC : 0 < Real.cos a := Real.cos_pos_of_mem_Ioo ⟨by linarith, h1⟩
  have hS : 0 < Real.sin a := Real.sin_pos_of_pos_of_lt_pi h0 (by linarith [Real.pi_pos])
  have hs0 : 0 ≤ Real.sin (2 * a) := by rw [Real.sin_two_mul]; positivity
  have sq1 : Real.sin a ^ 2 + Real.cos a ^ 2 = 1 := Real.sin_sq_add_cos_sq a
  have hk : Real.tan a / (1 / (2 * h)) = 2 * h * Real.tan a := by field_simp
  have hpos' : 0 < 1 + Real.sin (2 * a) * h := by positivity
  have hD : 1 + Real.tan a / (1 / (2 * h)) + Real.tan a ^ 2 = (1 + Real.sin (2 * a) * h) / Real.cos a ^ 2 := by
    rw [hk, Real.tan_eq_sin_div_cos, Real.sin_two_mul]
    field_simp
    linarith
  have hN : 1 - Real.tan a / (1 / (2 * h)) + Real.tan a ^ 2 = (1 - Real.sin (2 * a) * h) / Real.cos a ^ 2 := by
    rw [hk, Real.tan_eq_sin_div_cos, Real.sin_two_mul]
    field_simp
    linarith
  have lowNum : 1 - Real.cos (2 * a) = 2 * Real.sin a ^ 2 := by rw [Real.cos_two_mul]; linarith
  have highNum : 1 + Real.cos (2 * a) = 2 * Real.cos a ^ 2 := by rw [Real.cos_two_mul]; linarith
  have ea1 : 2 * (Real.tan a ^ 2 - 1) / (1 + Real.tan a / (1 / (2 * h)) + Real.tan a ^ 2) =
      -(2 * Real.cos (2 * a)) / (1 + Real.sin (2 * a) * h) := by
    rw [hD, Real.tan_eq_sin_div_cos, Real.cos_two_mul]
    field_simp
    linarith
  have ea2 : (1 - Real.tan a / (1 / (2 * h)) + Real.tan a ^ 2) / (1 + Real.tan a / (1 / (2 * h)) + Real.tan a ^ 2) =
      (1 - Real.sin (2 * a) * h) / (1 + Real.sin (2 * a) * h) := by
    rw [hD, hN]; field_simp
  cases ty with
  | lowPass =>
    have eb0 : Real.tan a ^ 2 / (1 + Real.tan a / (1 / (2 * h)) + Real.tan a ^ 2) =
        (1 - Real.cos (2 * a)) / (2 * (1 + Real.sin (2 * a) * h)) := by
      rw [hD, lowNum, Real.tan_eq_sin_div_cos]; field_simp
    have eb1 : 2 * Real.tan a ^ 2 / (1 + Real.tan a / (1 / (2 * h)) + Real.tan a ^ 2) =
        (1 - Real.cos (2 * a)) / (1 + Real.sin (2 * a) * h) := by
      rw [hD, lowNum, Real.tan_eq_sin_div_cos]; field_simp
    simp only [Spec.sos2, doubleSos2, ea1, ea2, eb0, eb1]
  | highPass =>
    have eb0 : 1 / (1 + Real.tan a / (1 / (2 * h)) + Real.tan a ^ 2) =
        (1 + Real.cos (2 * a)) / (2 * (1 + Real.sin (2 * a) * h)) := by
      rw [hD, highNum]; field_simp
    have eb1 : -2 / (1 + Real.tan a / (1 / (2 * h)) + Real.tan a ^ 2) =
        -((1 + Real.cos (2 * a)) / (1 + Real.sin (2 * a) * h)) := by
      rw [hD, highNum]; field_simp
    simp only [Spec.sos2, doubleSos2, ea1, ea2, eb0, eb1]

/-- The same of SOS1 (R125). -/
theorem sos1_eq_double (ty : FilterType) (h0 : 0 < a) (h1 : a < Real.pi / 2) :
    Spec.sos1 ty (Real.tan a) = doubleSos1 ty (Real.cos (2 * a)) (Real.sin (2 * a)) := by
  have hC : 0 < Real.cos a := Real.cos_pos_of_mem_Ioo ⟨by linarith, h1⟩
  have hS : 0 < Real.sin a := Real.sin_pos_of_pos_of_lt_pi h0 (by linarith [Real.pi_pos])
  have sq1 : Real.sin a ^ 2 + Real.cos a ^ 2 = 1 := Real.sin_sq_add_cos_sq a
  have denEq : 1 + Real.sin (2 * a) = (Real.cos a + Real.sin a) ^ 2 := by rw [Real.sin_two_mul]; nlinarith
  have hD : 1 + Real.tan a = (Real.cos a + Real.sin a) / Real.cos a := by
    rw [Real.tan_eq_sin_div_cos]; field_simp
  have lowNum : 1 - Real.cos (2 * a) + Real.sin (2 * a) = 2 * Real.sin a * (Real.cos a + Real.sin a) := by
    rw [Real.cos_two_mul, Real.sin_two_mul]; nlinarith
  have highNum : 1 + Real.cos (2 * a) + Real.sin (2 * a) = 2 * Real.cos a * (Real.cos a + Real.sin a) := by
    rw [Real.cos_two_mul, Real.sin_two_mul]; nlinarith
  have ea1 : (Real.tan a - 1) / (1 + Real.tan a) = -Real.cos (2 * a) / (1 + Real.sin (2 * a)) := by
    rw [hD, denEq, Real.tan_eq_sin_div_cos, Real.cos_two_mul]
    field_simp
    nlinarith
  cases ty with
  | lowPass =>
    have eb0 : Real.tan a / (1 + Real.tan a) =
        (1 - Real.cos (2 * a) + Real.sin (2 * a)) / (2 * (1 + Real.sin (2 * a))) := by
      rw [hD, denEq, lowNum, Real.tan_eq_sin_div_cos]; field_simp
    simp only [Spec.sos1, doubleSos1, ea1, eb0]
  | highPass =>
    have eb0 : 1 / (1 + Real.tan a) = (1 + Real.cos (2 * a) + Real.sin (2 * a)) / (2 * (1 + Real.sin (2 * a))) := by
      rw [hD, denEq, highNum]; field_simp
    simp only [Spec.sos1, doubleSos1, neg_div, ea1, eb0]

end

section
variable {w : Nat → Warp} {C S : ℝ}

theorem approx_sos2 (ty : FilterType) {hq : Nat → Ival} {h : ℝ} (hc : Approximates (fun p => (w p).cos2) C)
    (hs : Approximates (fun p => (w p).sin2) S) (hh : Approximates hq h) (hC : |C| ≤ 1) (hS : 0 ≤ S) (hpos : 0 ≤ h) :
    ApproximatesSection (fun p => Machine.sos2 p ty (w p) (hq p)) (doubleSos2 ty C S h) := by
  obtain ⟨c1, c2⟩ := abs_le.mp hC
  have hone := approx_ofNat 1
  rw [Nat.cast_one] at hone
  have hsc := hs.mul hh hS hpos
  have hden := hone.add hsc
  have hden1 : 1 ≤ 1 + S * h := by nlinarith
  have ha1 := hc.double.neg.div hden hden1
  have ha2 := (hone.sub hsc).div hden hden1
  cases ty with
  | lowPass =>
    have hnum := (hone.sub hc).nonneg (by linarith)
    have hb0 := hnum.div hden.double (by linarith)
    exact ⟨hb0, hnum.div hden hden1, hb0, ha1, ha2, rfl⟩
  | highPass =>
    have hnum := (hone.add hc).nonneg (by linarith)
    have hb0 := hnum.div hden.double (by linarith)
    exact ⟨hb0, (hnum.div hden hden1).neg, hb0, ha1, ha2, rfl⟩

theorem approx_sos1 (ty : FilterType) (hc : Approximates (fun p => (w p).cos2) C)
    (hs : Approximates (fun p => (w p).sin2) S) (hC : |C| ≤ 1) (hS : 0 ≤ S) :
    ApproximatesSection (fun p => Machine.sos1 p ty (w p)) (doubleSos1 ty C S) := by
  obtain ⟨c1, c2⟩ := abs_le.mp hC
  have hone := approx_ofNat 1
  have hzero := approx_ofNat 0
  rw [Nat.cast_one] at hone
  rw [Nat.cast_zero] at hzero
  have hden := hone.add hs
  have ha1 := hc.neg.div hden (by linarith)
  cases ty with
  | lowPass =>
    have hb0 := (((hone.sub hc).add hs).nonneg (by linarith)).div hden.double (by linarith)
    exact ⟨hb0, hb0, hzero, ha1, hzero, rfl⟩
  | highPass =>
    have hb0 := (((hone.add hc).add hs).nonneg (by linarith)).div hden.double (by linarith)
    exact ⟨hb0, hb0.neg, hzero, ha1, hzero, rfl⟩

end

/-- The cosine of R126 lies in the first quadrant, and is that of a rational part of π. -/
theorem approx_halfInvQ {n i : Nat} (hi : i < n / 2) :
    ∃ m d : Nat, 0 < m ∧ 2 * m < d ∧ 0 < Real.cos (Real.pi * m / d) ∧
      Approximates (fun p => halfInvQ p n i) (Real.cos (Real.pi * m / d)) ∧
      qFactor n i = 1 / (2 * Real.cos (Real.pi * m / d)) := by
  have first {m d : Nat} (h : 2 * m < d) : 0 < Real.cos (Real.pi * m / d) := by
    have hd : (0 : ℝ) < d := by exact_mod_cast (by omega : 0 < d)
    have h' : (2 : ℝ) * m < d := by exact_mod_cast h
    refine Real.cos_pos_of_mem_Ioo ⟨?_, ?_⟩
    · have : 0 ≤ Real.pi * m / d := by positivity
      linarith [Real.pi_pos]
    · rw [div_lt_div_iff₀ hd two_pos]
      nlinarith [Real.pi_pos]
  unfold halfInvQ qFactor
  split
  · refine ⟨2 * i + 1, 2 * n, by omega, by omega, first (by omega), approx_cosPi (by omega) (by omega), ?_⟩
    rw [show (2 * (i : ℝ) + 1) * Real.pi / (2 * n) = Real.pi * (2 * i + 1 : Nat) / (2 * n : Nat) by push_cast; ring]
  · refine ⟨i + 1, n, by omega, by omega, first (by omega), approx_cosPi (by omega) (by omega), ?_⟩
    rw [show ((i : ℝ) + 1) * Real.pi / n = Real.pi * (i + 1 : Nat) / n by push_cast; ring]

end Sys2Proof.Laws
end

