-- ==== Sys2Proof/Laws/ExactRounding.lean ====
section
/-! SUPPORT. The reference design rounds every exact coefficient once (R129, R131): for the inputs of R122 some precision
decides every coefficient, and the word found there is the rounding of the exact real. -/

namespace Sys2Proof.Laws

open Sys2Proof.Machine Sys2Proof.Spec Filter

/-! ## Sine and cosine of rational parts of π -/

/-- The algebraic integers behind an angle πn/d: `z` is exp(iπn/d), `z'` its conjugate, `I` is i. -/
structure AngleRoots (C S : ℝ) (z z' I : AlgInt) (m : Nat) : Prop where
  pos : 0 < m
  inv : z * z' = 1
  iSq : I * I = -1
  root : z ^ m = 1
  zVal : (z : ℂ) = C + S * Complex.I
  zVal' : (z' : ℂ) = C - S * Complex.I
  iVal : (I : ℂ) = Complex.I

theorem angleRoots (n : Nat) {d : Nat} (hd : 0 < d) : ∃ z z' I : AlgInt,
    AngleRoots (Real.cos (Real.pi * n / d)) (Real.sin (Real.pi * n / d)) z z' I (2 * d) := by
  set θ := Real.pi * n / d with hθ
  have hd' : (d : ℂ) ≠ 0 := by exact_mod_cast hd.ne'
  have e1 : (Real.cos θ : ℂ) + Real.sin θ * Complex.I = Complex.exp (θ * Complex.I) := by
    rw [Complex.exp_mul_I, Complex.ofReal_cos, Complex.ofReal_sin]
  have e2 : (Real.cos θ : ℂ) - Real.sin θ * Complex.I = Complex.exp (-(θ * Complex.I)) := by
    rw [← neg_mul, Complex.exp_mul_I, Complex.cos_neg, Complex.sin_neg, Complex.ofReal_cos, Complex.ofReal_sin]
    ring
  have pow : Complex.exp (θ * Complex.I) ^ (2 * d) = 1 := by
    rw [← Complex.exp_nat_mul, Complex.exp_eq_one_iff]
    refine ⟨n, ?_⟩
    rw [hθ]
    push_cast
    field_simp
  have pow' : Complex.exp (-(θ * Complex.I)) ^ (2 * d) = 1 := by
    rw [Complex.exp_neg, inv_pow, pow, inv_one]
  have int (u : ℂ) (k : Nat) (hk : 0 < k) (h : u ^ k = 1) : IsIntegral ℤ u :=
    IsIntegral.of_pow hk (by rw [h]; exact isIntegral_one)
  refine ⟨⟨_, int _ _ (by omega) pow⟩, ⟨_, int _ _ (by omega) pow'⟩,
    ⟨Complex.I, int _ 4 (by omega) Complex.I_pow_four⟩, by omega, ?_, ?_, ?_, e1.symm, e2.symm, rfl⟩
  · refine Subtype.ext ?_
    show Complex.exp (θ * Complex.I) * Complex.exp (-(θ * Complex.I)) = 1
    rw [← Complex.exp_add, add_neg_cancel, Complex.exp_zero]
  · exact Subtype.ext Complex.I_mul_I
  · exact Subtype.ext pow

namespace AngleRoots
variable {C S : ℝ} {z z' I : AlgInt} {m : Nat} (h : AngleRoots C S z z' I m)
include h

/-- Twice the cosine. -/
theorem two_cos : ((z + z' : AlgInt) : ℂ) = 2 * C := by
  show (z : ℂ) + z' = _
  rw [h.zVal, h.zVal']; ring

/-- Twice the sine. -/
theorem two_sin : ((I * (z' - z) : AlgInt) : ℂ) = 2 * S := by
  show (I : ℂ) * (z' - z) = _
  rw [h.zVal, h.zVal', h.iVal]
  linear_combination (-2 * S : ℂ) * Complex.I_mul_I

theorem ne_real {x : ℝ} (hS : S ≠ 0) (e : (z : ℂ) = x) : False := by
  rw [h.zVal] at e
  exact hS (by simpa using congrArg Complex.im e)

theorem sq_ne_one (hS : S ≠ 0) : z ^ 2 ≠ 1 := fun e => by
  rw [sq] at e
  rcases mul_self_eq_one_iff.mp e with e | e
  · exact h.ne_real (x := 1) hS (by rw [e]; simp)
  · exact h.ne_real (x := -1) hS (by rw [e]; simp)

theorem dividesTwo_sin (hS : S ≠ 0) : DividesTwo 1 (I * (z' - z)) := by
  have r : (z ^ 2) ^ m = 1 := by rw [← pow_mul, mul_comm, pow_mul, h.root, one_pow]
  have := (dividesTwo_root (h.sq_ne_one hS) h.pos r).unit_mul (u := I * z') (v := -(I * z)) (by
    linear_combination (-(z * z')) * h.iSq + h.inv)
  have e : I * z' * (1 - z ^ 2) = I * (z' - z) := by linear_combination (-(I * z)) * h.inv
  rwa [e] at this

theorem dividesTwo_cos_sq (hC : C ≠ 0) (hS : S ≠ 0) : DividesTwo 1 ((z + z') ^ 2) := by
  have r : (-z ^ 2) ^ (2 * m) = 1 := by
    rw [show (-z ^ 2) ^ (2 * m) = (z ^ m) ^ 4 by rw [pow_mul, neg_sq]; ring, h.root, one_pow]
  have h1 : -z ^ 2 ≠ 1 := fun e => by
    have e' : z + z' = 0 := by
      linear_combination z' * (-e) + (-z) * h.inv
    have := h.two_cos
    rw [e'] at this
    refine hC ?_
    have h3 : (C : ℂ) = 0 := by simpa using this.symm
    exact_mod_cast h3
  have h2 : -z ^ 2 ≠ -1 := fun e => h.sq_ne_one hS (neg_inj.mp e)
  have := (dividesTwo_root_sq h1 h2 (by have := h.pos; omega) r).unit_mul (u := z' ^ 2) (v := z ^ 2) (by
    rw [← mul_pow, mul_comm, h.inv, one_pow])
  have e : z' ^ 2 * (1 - -z ^ 2) ^ 2 = (z + z') ^ 2 := by
    linear_combination (2 * z * z' + z ^ 2 * (z * z' + 1)) * h.inv
  rwa [e] at this

theorem dividesTwo_one_add_sin (hS : -1 < S) : DividesTwo 2 (2 + I * (z' - z)) := by
  have r : (I * z) ^ (4 * m) = 1 := by
    have h4 : I ^ 4 = 1 := by linear_combination (I * I - 1) * h.iSq
    rw [mul_pow, pow_mul, h4, one_pow, mul_comm 4, pow_mul, h.root, one_pow, one_mul]
  have h1 : I * z ≠ 1 := fun e => by
    have e' : (I : ℂ) * z = 1 := congrArg Subtype.val e
    rw [h.iVal, h.zVal] at e'
    have := congrArg Complex.re e'
    simp at this
    linarith
  have one := dividesTwo_root h1 (by have := h.pos; omega) r
  have := (one.mul one).unit_mul (u := I * z') (v := -(I * z)) (by
    linear_combination (-(z * z')) * h.iSq + h.inv)
  have e : I * z' * ((1 - I * z) * (1 - I * z)) = 2 + I * (z' - z) := by
    linear_combination (I * z - 2) * (z * z') * h.iSq - (I * z - 2) * h.inv
  rwa [e] at this

end AngleRoots

/-! ## Sections -/

theorem coe_linear (k l : ℤ) (V : AlgInt) : (((k : AlgInt) + l * V : AlgInt) : ℂ) = k + l * (V : ℂ) := by push_cast; rfl

/-- A quotient whose denominator, times `c`, is an algebraic integer with at most the third power of 2. -/
theorem fewTwos_quotient {num D : ℝ} {U v : AlgInt} (hU : DividesTwo 3 U) (c : ℝ) (hUD : (U : ℂ) = c * D) (hD : D ≠ 0)
    (hv : (v : ℂ) = 2 * c * num) : FewTwos (num / D) := by
  refine fewTwos_div (v := v) hU ?_
  have hD' : (D : ℂ) ≠ 0 := by exact_mod_cast hD
  rw [hUD, hv]
  push_cast
  field_simp

theorem FewTwos.zero : FewTwos 0 := ⟨1, odd_one, by simpa using isIntegral_zero⟩

/-- Some precision, and every one from it on, decides the coefficient. -/
theorem eventually_decided {e : Nat → Ival} {x : ℝ} (h : Approximates e x) (hf : FewTwos x) (hx : |x| < 4)
    (h0 : x = 0 → ∀ p, (e p).lo = (e p).hi) : ∀ᶠ p in atTop, (e p).decided p = true := by
  by_cases hz : x = 0
  · exact .of_forall fun p => by rw [Ival.decided, h0 hz p, beq_self_eq_true]
  · exact h.eventually_decided hz (hf.not_midpoint hx)

theorem abs_div_lt {num D : ℝ} (hn : |num| < 4) (hD : 1 ≤ D) : |num / D| < 4 := by
  have hD0 : 0 < D := by linarith
  rw [abs_div, abs_of_pos hD0, div_lt_iff₀ hD0]
  linarith

/-- The enclosures approximate the section's coefficients, which are small, and some precision decides them all. -/
structure Settles (s : Nat → Section) (r : RealSection) : Prop where
  approx : ApproximatesSection s r
  small : |r.b0| < 4 ∧ |r.b1| < 4 ∧ |r.b2| < 4 ∧ |r.a1| < 4 ∧ |r.a2| < 4
  decided : ∀ᶠ p in atTop, (s p).decided p = true

/-- A section settles when each of its coefficients has few factors 2, is small, and is enclosed exactly where it is 0. -/
theorem settles {s : Nat → Section} {r : RealSection} (h : ApproximatesSection s r)
    (few : FewTwos r.b0 ∧ FewTwos r.b1 ∧ FewTwos r.b2 ∧ FewTwos r.a1 ∧ FewTwos r.a2)
    (small : |r.b0| < 4 ∧ |r.b1| < 4 ∧ |r.b2| < 4 ∧ |r.a1| < 4 ∧ |r.a2| < 4)
    (zb0 : r.b0 = 0 → ∀ p, (s p).b0.lo = (s p).b0.hi) (zb1 : r.b1 = 0 → ∀ p, (s p).b1.lo = (s p).b1.hi)
    (zb2 : r.b2 = 0 → ∀ p, (s p).b2.lo = (s p).b2.hi) (za1 : r.a1 = 0 → ∀ p, (s p).a1.lo = (s p).a1.hi)
    (za2 : r.a2 = 0 → ∀ p, (s p).a2.lo = (s p).a2.hi) : Settles s r := by
  refine ⟨h, small, ?_⟩
  filter_upwards [eventually_decided h.b0 few.1 small.1 zb0, eventually_decided h.b1 few.2.1 small.2.1 zb1,
    eventually_decided h.b2 few.2.2.1 small.2.2.1 zb2, eventually_decided h.a1 few.2.2.2.1 small.2.2.2.1 za1,
    eventually_decided h.a2 few.2.2.2.2 small.2.2.2.2 za2] with p h0 h1 h2 h3 h4
  simp only [Section.decided, h0, h1, h2, h3, h4, Bool.and_self]

/-- The quotient of an exact 0 is exactly 0. -/
theorem div_zero_ends (p : Nat) {i j : Ival} (h : i.lo = 0 ∧ i.hi = 0) : (i.div p j).lo = (i.div p j).hi := by
  simp [Ival.div, ceilDiv, h.1, h.2]

section
variable {w : Nat → Warp} {C S : ℝ} {z z' I : AlgInt} {m : Nat}

theorem fewTwos_sos2 (ty : FilterType) {h : ℝ} {U : AlgInt} (r : AngleRoots C S z z' I m) (hU : DividesTwo 3 U)
    {c : Nat} (hUD : (U : ℂ) = ((2 * c : ℕ) : ℝ) * ((1 + S * h : ℝ) : ℂ)) (hD : 1 ≤ 1 + S * h) :
    let s := doubleSos2 ty C S h
    FewTwos s.b0 ∧ FewTwos s.b1 ∧ FewTwos s.b2 ∧ FewTwos s.a1 ∧ FewTwos s.a2 := by
  have hc := r.two_cos
  have hD0 : (1 + S * h) ≠ 0 := by linarith
  have q {num : ℝ} (v : AlgInt) (hv : (v : ℂ) = 2 * ((2 * c : ℕ) : ℝ) * num) : FewTwos (num / (1 + S * h)) :=
    fewTwos_quotient hU _ hUD hD0 hv
  have cos (k : ℤ) (l : ℤ) : (((k : AlgInt) + l * (z + z') : AlgInt) : ℂ) = k + l * (2 * C) := by
    rw [← hc, coe_linear]
  have q2 {num : ℝ} (v : AlgInt) (hv : (v : ℂ) = 2 * ((c : ℕ) : ℝ) * num) : FewTwos (num / (2 * (1 + S * h))) := by
    rw [show num / (2 * (1 + S * h)) = (num / 2) / (1 + S * h) by rw [div_div]]
    refine q v (hv.trans ?_)
    push_cast; ring
  have a1 : FewTwos (-(2 * C) / (1 + S * h)) := q _ ((cos 0 (-(4 * c))).trans (by push_cast; ring))
  have a2 : FewTwos ((1 - S * h) / (1 + S * h)) := 
    q _ ((coe_linear (8 * c) (-2) U).trans (by rw [hUD]; push_cast; ring))
  cases ty with
  | lowPass =>
    have b0 : FewTwos ((1 - C) / (2 * (1 + S * h))) := q2 _ ((cos (2 * c) (-c)).trans (by push_cast; ring))
    exact ⟨b0, q _ ((cos (4 * c) (-(2 * c))).trans (by push_cast; ring)), b0, a1, a2⟩
  | highPass =>
    have b0 : FewTwos ((1 + C) / (2 * (1 + S * h))) := q2 _ ((cos (2 * c) c).trans (by push_cast; ring))
    exact ⟨b0, (q _ ((cos (4 * c) (2 * c)).trans (by push_cast; ring))).neg, b0, a1, a2⟩

theorem fewTwos_sos1 (ty : FilterType) (r : AngleRoots C S z z' I m) (hS : 0 < S) :
    let s := doubleSos1 ty C S
    FewTwos s.b0 ∧ FewTwos s.b1 ∧ FewTwos s.b2 ∧ FewTwos s.a1 ∧ FewTwos s.a2 := by
  have hU : DividesTwo 3 (2 + I * (z' - z)) := (r.dividesTwo_one_add_sin (by linarith)).mono (by omega)
  have hUD : ((2 + I * (z' - z) : AlgInt) : ℂ) = ((2 : ℝ) : ℂ) * ((1 + S : ℝ) : ℂ) := by
    have := coe_linear 2 1 (I * (z' - z))
    rw [r.two_sin] at this
    push_cast at this ⊢
    rw [one_mul] at this
    rw [this]; ring
  have q {num : ℝ} (v : AlgInt) (hv : (v : ℂ) = 2 * ((2 : ℝ) : ℂ) * num) : FewTwos (num / (1 + S)) :=
    fewTwos_quotient hU _ hUD (by linarith) hv
  have lin (k l j : ℤ) : (((k : AlgInt) + l * (z + z') + j * (I * (z' - z)) : AlgInt) : ℂ) =
      k + l * (2 * C) + j * (2 * S) := by
    rw [← r.two_cos, ← r.two_sin]; push_cast; rfl
  have q2 {num : ℝ} (v : AlgInt) (hv : (v : ℂ) = 2 * num) : FewTwos (num / (2 * (1 + S))) := by
    rw [show num / (2 * (1 + S)) = (num / 2) / (1 + S) by rw [div_div]]
    refine q v (hv.trans ?_)
    push_cast; ring
  have a1 : FewTwos (-C / (1 + S)) := q _ ((lin 0 (-2) 0).trans (by push_cast; ring))
  cases ty with
  | lowPass =>
    have b0 : FewTwos ((1 - C + S) / (2 * (1 + S))) := q2 _ ((lin 2 (-1) 1).trans (by push_cast; ring))
    exact ⟨b0, b0, .zero, a1, .zero⟩
  | highPass =>
    have b0 : FewTwos ((1 + C + S) / (2 * (1 + S))) := q2 _ ((lin 2 1 1).trans (by push_cast; ring))
    exact ⟨b0, b0.neg, .zero, a1, .zero⟩

/-- The cosine and sine of the double angle, and what approximates them. -/
structure WarpFacts (w : Nat → Warp) (C S : ℝ) : Prop where
  circle : C ^ 2 + S ^ 2 = 1
  pos : 0 < S
  cos : Approximates (fun p => (w p).cos2) C
  sin : Approximates (fun p => (w p).sin2) S
  exact : C = 0 → ∀ p, w p = ⟨Ival.ofNat p 0, Ival.ofNat p 1⟩
  roots : ∃ (z z' I : AlgInt) (m : Nat), AngleRoots C S z z' I m

theorem WarpFacts.bounds (f : WarpFacts w C S) : -1 < C ∧ C < 1 ∧ S ≤ 1 := by
  have h1 := f.circle
  have h2 := f.pos
  refine ⟨?_, ?_, ?_⟩ <;> nlinarith

theorem settles_sos1 (ty : FilterType) (f : WarpFacts w C S) :
    Settles (fun p => Machine.sos1 p ty (w p)) (doubleSos1 ty C S) := by
  obtain ⟨c1, c2, s1⟩ := f.bounds
  have s0 := f.pos
  obtain ⟨z, z', I, m, r⟩ := f.roots
  have hD : 1 ≤ 1 + S := by linarith
  have hD2 : 1 ≤ 2 * (1 + S) := by linarith
  have exact0 (p : Nat) : (Ival.ofNat p 0).lo = (Ival.ofNat p 0).hi := rfl
  have za1 (h : -C / (1 + S) = 0) (p : Nat) :
      ((w p).cos2.neg.div p ((Ival.ofNat p 1).add (w p).sin2)).lo =
      ((w p).cos2.neg.div p ((Ival.ofNat p 1).add (w p).sin2)).hi := by
    have hC : C = 0 := by
      rcases div_eq_zero_iff.mp h with h | h <;> linarith
    refine div_zero_ends p ?_
    rw [f.exact hC p]
    simp [Ival.neg, Ival.ofNat]
  have ha1 : |-C / (1 + S)| < 4 := abs_div_lt (abs_lt.mpr ⟨by linarith, by linarith⟩) hD
  refine settles (approx_sos1 ty f.cos f.sin (abs_le.mpr ⟨c1.le, c2.le⟩) s0.le) (fewTwos_sos1 ty r s0) ?_ ?_ ?_
    (fun _ p => by cases ty <;> exact exact0 p) ?_ (fun _ p => by cases ty <;> exact exact0 p)
  · cases ty with
    | lowPass =>
      have hb : |(1 - C + S) / (2 * (1 + S))| < 4 := abs_div_lt (abs_lt.mpr ⟨by linarith, by linarith⟩) hD2
      exact ⟨hb, hb, by simp [doubleSos1], ha1, by simp [doubleSos1]⟩
    | highPass =>
      have hb : |(1 + C + S) / (2 * (1 + S))| < 4 := abs_div_lt (abs_lt.mpr ⟨by linarith, by linarith⟩) hD2
      exact ⟨hb, by rw [doubleSos1, abs_neg]; exact hb, by simp [doubleSos1], ha1, by simp [doubleSos1]⟩
  · intro h
    cases ty <;> rcases div_eq_zero_iff.mp h with h | h <;> linarith
  · intro h
    cases ty
    · rcases div_eq_zero_iff.mp (neg_eq_zero.mp h) with h | h <;> linarith
    · rcases div_eq_zero_iff.mp h with h | h <;> linarith
  · cases ty <;> exact za1

theorem settles_sos2 (ty : FilterType) {hq : Nat → Ival} {h : ℝ} (f : WarpFacts w C S) (hh : Approximates hq h)
    (h0 : 0 < h) (h1 : h ≤ 1) (hexact : h = 1 → ∀ p, hq p = Ival.ofNat p 1)
    (few : let s := doubleSos2 ty C S h
      FewTwos s.b0 ∧ FewTwos s.b1 ∧ FewTwos s.b2 ∧ FewTwos s.a1 ∧ FewTwos s.a2) :
    Settles (fun p => Machine.sos2 p ty (w p) (hq p)) (doubleSos2 ty C S h) := by
  obtain ⟨c1, c2, s1⟩ := f.bounds
  have s0 := f.pos
  have sh0 : 0 < S * h := mul_pos s0 h0
  have sh1 : S * h ≤ 1 := mul_le_one₀ s1 h0.le h1
  have hD : 1 ≤ 1 + S * h := by linarith
  have hD2 : 1 ≤ 2 * (1 + S * h) := by linarith
  have za1 (e : -(2 * C) / (1 + S * h) = 0) (p : Nat) :
      ((w p).cos2.double.neg.div p ((Ival.ofNat p 1).add ((w p).sin2.mul p (hq p)))).lo =
      ((w p).cos2.double.neg.div p ((Ival.ofNat p 1).add ((w p).sin2.mul p (hq p)))).hi := by
    have hC : C = 0 := by
      rcases div_eq_zero_iff.mp e with e | e <;> linarith
    refine div_zero_ends p ?_
    rw [f.exact hC p]
    simp [Ival.neg, Ival.double, Ival.add, Ival.ofNat]
  have za2 (e : (1 - S * h) / (1 + S * h) = 0) (p : Nat) :
      (((Ival.ofNat p 1).sub ((w p).sin2.mul p (hq p))).div p ((Ival.ofNat p 1).add ((w p).sin2.mul p (hq p)))).lo =
      (((Ival.ofNat p 1).sub ((w p).sin2.mul p (hq p))).div p ((Ival.ofNat p 1).add ((w p).sin2.mul p (hq p)))).hi := by
    have hsh : S * h = 1 := by
      rcases div_eq_zero_iff.mp e with e | e <;> linarith
    have hS : S = 1 := by nlinarith
    have hC : C = 0 := by
      have := f.circle
      rw [hS] at this
      exact pow_eq_zero_iff two_ne_zero |>.mp (by linarith)
    refine div_zero_ends p ?_
    have hu : (0 : Int) < enclosureUnit p := by exact_mod_cast unit_nat_pos p
    rw [f.exact hC p, hexact (by rw [hS, one_mul] at hsh; exact hsh) p]
    have hdiv : -((enclosureUnit p : Int) * enclosureUnit p) / enclosureUnit p = -(enclosureUnit p : Int) := by
      rw [← Int.neg_mul, Int.mul_ediv_cancel _ hu.ne']
    simp [Ival.sub, Ival.neg, Ival.add, Ival.mul, Ival.nonneg, Ival.ofNat, ceilDiv, Int.mul_ediv_cancel _ hu.ne', hdiv]
  have ha1 : |-(2 * C) / (1 + S * h)| < 4 := abs_div_lt (abs_lt.mpr ⟨by linarith, by linarith⟩) hD
  have ha2 : |(1 - S * h) / (1 + S * h)| < 4 := abs_div_lt (abs_lt.mpr ⟨by linarith, by linarith⟩) hD
  refine settles (approx_sos2 ty f.cos f.sin hh (abs_le.mpr ⟨c1.le, c2.le⟩) s0.le h0.le) few ?_ ?_ ?_ ?_ ?_ ?_
  · cases ty with
    | lowPass =>
      have hb : |(1 - C) / (2 * (1 + S * h))| < 4 := abs_div_lt (abs_lt.mpr ⟨by linarith, by linarith⟩) hD2
      exact ⟨hb, abs_div_lt (abs_lt.mpr ⟨by linarith, by linarith⟩) hD, hb, ha1, ha2⟩
    | highPass =>
      have hb : |(1 + C) / (2 * (1 + S * h))| < 4 := abs_div_lt (abs_lt.mpr ⟨by linarith, by linarith⟩) hD2
      refine ⟨hb, ?_, hb, ha1, ha2⟩
      rw [doubleSos2, abs_neg]
      exact abs_div_lt (abs_lt.mpr ⟨by linarith, by linarith⟩) hD
  · intro e
    cases ty <;> rcases div_eq_zero_iff.mp e with e | e <;> linarith
  · intro e
    cases ty
    · rcases div_eq_zero_iff.mp (neg_eq_zero.mp e) with e | e <;> linarith
    · rcases div_eq_zero_iff.mp e with e | e <;> linarith
  · intro e
    cases ty <;> rcases div_eq_zero_iff.mp e with e | e <;> linarith
  · cases ty <;> exact za1
  · cases ty <;> exact za2

/-- The section of Q = 1/2 (R128). -/
theorem settles_sos2_half (ty : FilterType) (f : WarpFacts w C S) :
    Settles (fun p => Machine.sos2 p ty (w p) (Ival.ofNat p 1)) (doubleSos2 ty C S 1) := by
  obtain ⟨z, z', I, m, r⟩ := f.roots
  have s0 := f.pos
  refine settles_sos2 ty f (by simpa using approx_ofNat 1) one_pos le_rfl (fun _ _ => rfl)
    (fewTwos_sos2 (c := 1) ty r ((r.dividesTwo_one_add_sin (by linarith)).mono (by omega)) ?_ (by linarith))
  have := coe_linear 2 1 (I * (z' - z))
  rw [r.two_sin] at this
  push_cast at this ⊢
  rw [one_mul] at this
  rw [this]; ring

/-- The sections of R126. -/
theorem settles_sos2_pair (ty : FilterType) (f : WarpFacts w C S) {n i : Nat} (hi : i < n / 2) :
    ∃ h : ℝ, 0 < h ∧ qFactor n i = 1 / (2 * h) ∧
      Settles (fun p => Machine.sos2 p ty (w p) (halfInvQ p n i)) (doubleSos2 ty C S h) := by
  obtain ⟨m', d, hm', hmd, hpos, happ, hq⟩ := approx_halfInvQ hi
  obtain ⟨z, z', I, m, r⟩ := f.roots
  obtain ⟨y, y', J, r2⟩ := angleRoots m' (by omega : 0 < d)
  have s0 := f.pos
  have hd' : (0 : ℝ) < d := by exact_mod_cast (by omega : 0 < d)
  have hm0 : (0 : ℝ) < m' := by exact_mod_cast hm'
  have hlt : Real.pi * m' / d < Real.pi := by
    rw [div_lt_iff₀ hd']
    have : (m' : ℝ) < d := by exact_mod_cast (by omega : m' < d)
    nlinarith [Real.pi_pos]
  have hsin : 0 < Real.sin (Real.pi * m' / d) := Real.sin_pos_of_pos_of_lt_pi (by positivity) hlt
  have hne : Real.cos (Real.pi * m' / d) ≠ 1 := fun e => by
    have := Real.sin_sq_add_cos_sq (Real.pi * m' / d)
    rw [e] at this
    nlinarith
  refine ⟨_, hpos, hq, settles_sos2 ty f happ hpos (Real.cos_le_one _) (fun e => absurd e hne)
    (fewTwos_sos2 (c := 2) ty r (dividesTwo_den (r.dividesTwo_sin s0.ne') (r2.dividesTwo_cos_sq hpos.ne' hsin.ne')) ?_ ?_)⟩
  · have e : ((4 + I * (z' - z) * (y + y') : AlgInt) : ℂ) = 4 + ((I * (z' - z) : AlgInt) : ℂ) * ((y + y' : AlgInt) : ℂ) := rfl
    rw [e, r.two_sin, r2.two_cos]
    push_cast
    ring
  · have := mul_pos s0 hpos
    linarith

end

/-! ## Designs -/

/-- The sections of a design, at every precision, settle on the exact sections of the rules. -/
def ListSettles (e : Nat → List Section) (rs : List RealSection) : Prop :=
  ∃ ss : List (Nat → Section), (∀ p, e p = ss.map fun s => s p) ∧ List.Forall₂ Settles ss rs

theorem ListSettles.append {e f : Nat → List Section} {rs qs : List RealSection} (h : ListSettles e rs)
    (g : ListSettles f qs) : ListSettles (fun p => e p ++ f p) (rs ++ qs) := by
  obtain ⟨ss, h1, h2⟩ := h
  obtain ⟨ts, g1, g2⟩ := g
  exact ⟨ss ++ ts, fun p => by simp only [h1, g1, List.map_append], List.rel_append h2 g2⟩

theorem ListSettles.cons {s : Nat → Section} {r : RealSection} {e : Nat → List Section} {rs : List RealSection}
    (h : Settles s r) (g : ListSettles e rs) : ListSettles (fun p => s p :: e p) (r :: rs) := by
  obtain ⟨ss, g1, g2⟩ := g
  exact ⟨s :: ss, fun p => by simp only [g1, List.map_cons], .cons h g2⟩

theorem ListSettles.tail {e : Nat → List Section} {rs : List RealSection} (h : ListSettles e rs) :
    ListSettles (fun p => (e p).tail) rs.tail := by
  obtain ⟨ss, h1, h2⟩ := h
  refine ⟨ss.tail, fun p => by simp only [h1, List.map_tail], ?_⟩
  cases h2 with
  | nil => exact .nil
  | cons _ h => exact h

section
variable {w : Nat → Warp} {C S a : ℝ}

theorem settles_butterworth (ty : FilterType) (f : WarpFacts w C S) (h0 : 0 < a) (h1 : a < Real.pi / 2)
    (hC : C = Real.cos (2 * a)) (hS : S = Real.sin (2 * a)) (n : Nat) :
    ListSettles (fun p => Machine.butterworth p ty (w p) n) (Spec.butterworth ty (Real.tan a) n) := by
  have pairs : ListSettles (fun p => butterworthPairs p ty (w p) n) ((qFactors n).map (Spec.sos2 ty (Real.tan a))) := by
    refine ⟨(List.range (n / 2)).map fun i p => Machine.sos2 p ty (w p) (halfInvQ p n i), fun p => ?_, ?_⟩
    · rw [List.map_map]; rfl
    · unfold qFactors
      rw [List.map_map, List.forall₂_map_left_iff, List.forall₂_map_right_iff, List.forall₂_same]
      intro i hi
      obtain ⟨h, hpos, hq, hs⟩ := settles_sos2_pair ty f (List.mem_range.mp hi)
      rw [Function.comp, hq, sos2_eq_double ty h0 h1 hpos, ← hC, ← hS]
      exact hs
  unfold Machine.butterworth Spec.butterworth
  split
  · exact pairs
  · rw [sos1_eq_double ty h0 h1, ← hC, ← hS]
    exact .cons (settles_sos1 ty f) pairs

theorem settles_linkwitzRiley (ty : FilterType) (f : WarpFacts w C S) (h0 : 0 < a) (h1 : a < Real.pi / 2)
    (hC : C = Real.cos (2 * a)) (hS : S = Real.sin (2 * a)) (n : Nat) :
    ListSettles (fun p => Machine.linkwitzRiley p ty (w p) n) (Spec.linkwitzRiley ty (Real.tan a) n) := by
  have em : (if n % 2 = 0 then n else n + 1) / 2 = (n + 1) / 2 := by split <;> omega
  have hb := settles_butterworth ty f h0 h1 hC hS ((n + 1) / 2)
  unfold Machine.linkwitzRiley Spec.linkwitzRiley
  simp only [em]
  split
  · exact hb.append hb
  · have e := sos2_eq_double ty h0 h1 one_pos
    rw [mul_one, ← hC, ← hS] at e
    rw [e, List.append_assoc]
    exact .cons (settles_sos2_half ty f) (hb.tail.append hb.tail)

end

theorem warpFacts {c f : Word} (h : cutoffValid c f = true) :
    WarpFacts (fun p => warpOf p c f) (Real.cos (2 * (Real.pi * realOf c / realOf f)))
      (Real.sin (2 * (Real.pi * realOf c / realOf f))) := by
  obtain ⟨h0, h1, n, d, hn, hnd, e, hc, hs, hx⟩ := approx_warpOf h
  rw [← e] at hc hs hx
  obtain ⟨z, z', I, r⟩ := angleRoots n (by omega : 0 < d)
  rw [← e] at r
  exact ⟨Real.cos_sq_add_sin_sq _, Real.sin_pos_of_pos_of_lt_pi (by linarith) (by linarith), hc, hs, hx, z, z', I, _, r⟩

/-- For the inputs of R122 the reference design's enclosures settle on the exact sections of the rules. -/
theorem design_settles (fam : Family) (ty : FilterType) {c f : Word} (order : Nat) (h : cutoffValid c f = true) :
    ListSettles (fun p => sectionsOf p fam ty c f order) (realDesign fam ty c f order) := by
  obtain ⟨h0, h1, -⟩ := approx_warpOf h
  cases fam with
  | butterworth => exact settles_butterworth ty (warpFacts h) h0 h1 rfl rfl order
  | linkwitzRiley => exact settles_linkwitzRiley ty (warpFacts h) h0 h1 rfl rfl order

/-! ## The precision that decides -/

theorem rounded_of_decided {p : Nat} {s : Section} {r : RealSection} (h : EnclosesSection p s r)
    (hd : s.decided p = true) : s.rounded p = r.rounded := by
  simp only [Section.decided, Bool.and_eq_true] at hd
  obtain ⟨⟨⟨⟨d0, d1⟩, d2⟩, d3⟩, d4⟩ := hd
  obtain ⟨e0, e1, e2, e3, e4, -⟩ := h
  simp only [Section.rounded, RealSection.rounded, roundEnd_decided e0 d0, roundEnd_decided e1 d1, roundEnd_decided e2 d2,
    roundEnd_decided e3 d3, roundEnd_decided e4 d4, f32One]

/-- A precision that decides every section gives the exact roundings. -/
theorem ListSettles.rounded {e : Nat → List Section} {rs : List RealSection} (h : ListSettles e rs) {p : Nat}
    (hd : (e p).all (Section.decided p) = true) : (e p).map (Section.rounded p) = rs.map RealSection.rounded := by
  obtain ⟨ss, h1, h2⟩ := h
  rw [h1] at hd ⊢
  clear h1
  induction h2 with
  | nil => rfl
  | cons hs _ ih =>
    simp only [List.map_cons, List.all_cons, Bool.and_eq_true] at hd ⊢
    rw [rounded_of_decided (hs.approx.encl p) hd.1, ih hd.2]

/-- From some precision on every section is decided. -/
theorem ListSettles.eventually {e : Nat → List Section} {rs : List RealSection} (h : ListSettles e rs) :
    ∀ᶠ p in atTop, (e p).all (Section.decided p) = true := by
  obtain ⟨ss, h1, h2⟩ := h
  simp only [h1]
  clear h1
  induction h2 with
  | nil => exact .of_forall fun p => rfl
  | cons hs _ ih =>
    filter_upwards [hs.decided, ih] with p a b
    simp only [List.map_cons, List.all_cons, a, b, Bool.and_self]

/-- The search ends at a precision that decides. -/
theorem roundFrom_some {e : Nat → List Section} : ∀ (k p : Nat), (e (p + k)).all (Section.decided (p + k)) = true →
    ∃ q, (e q).all (Section.decided q) = true ∧ roundFrom e p = some ((e q).map (Section.rounded q))
  | 0, p, h => ⟨p, h, by rw [roundFrom, if_pos (by simpa using h)]⟩
  | k + 1, p, h => by
    by_cases hp : (e p).all (Section.decided p) = true
    · exact ⟨p, hp, by rw [roundFrom, if_pos hp]⟩
    · obtain ⟨q, hq, e'⟩ := roundFrom_some k (p + 1) (by rwa [Nat.add_assoc, Nat.add_comm 1])
      exact ⟨q, hq, by rw [roundFrom, if_neg hp, e']⟩

/-- Where the enclosures settle, the search answers the exact roundings. -/
theorem ListSettles.roundFrom {e : Nat → List Section} {rs : List RealSection} (h : ListSettles e rs) (p : Nat) :
    Machine.roundFrom e p = some (rs.map RealSection.rounded) := by
  obtain ⟨N, hN⟩ := eventually_atTop.mp h.eventually
  obtain ⟨q, hq, e'⟩ := roundFrom_some N p (hN _ (by omega))
  rw [e', h.rounded hq]

/-- What the search answers is the rounding at some precision, whatever the enclosures. -/
theorem roundFrom_eq {e : Nat → List Section} {p : Nat} {l : List Coefs} (h : Machine.roundFrom e p = some l) :
    ∃ q, l = (e q).map (Section.rounded q) := by
  refine Machine.roundFrom.partial_correctness e (fun _ l => ∃ q, l = (e q).map (Section.rounded q)) (fun f ih p l h => ?_)
    p l h
  split at h
  · exact ⟨p, (Option.some.inj h).symm⟩
  · exact ih _ _ h

/-- The reference design is the rounding of its sections at some precision, whatever its inputs. -/
theorem referenceDesign_eq (fam : Family) (ty : FilterType) (c f : Word) (order : Nat) :
    ∃ p, referenceDesign fam ty c f order = (sectionsOf p fam ty c f order).map (Section.rounded p) := by
  unfold referenceDesign
  simp only
  split
  · exact ⟨_, rfl⟩
  · cases h : Machine.roundFrom (fun p => sectionsOf p fam ty c f order) (firstPrecision + 1) with
    | none => exact ⟨_, rfl⟩
    | some l => exact roundFrom_eq h

theorem ListSettles.small {e : Nat → List Section} {rs : List RealSection} (h : ListSettles e rs) :
    ∀ r ∈ rs, |r.b0| < 4 ∧ |r.b1| < 4 ∧ |r.b2| < 4 ∧ |r.a1| < 4 ∧ |r.a2| < 4 := by
  obtain ⟨ss, -, h2⟩ := h
  induction h2 with
  | nil => exact fun r hr => absurd hr List.not_mem_nil
  | cons hs _ ih =>
    intro r hr
    rcases List.mem_cons.mp hr with rfl | hr
    · exact hs.small
    · exact ih r hr

theorem ListSettles.encl {e : Nat → List Section} {rs : List RealSection} (h : ListSettles e rs) (p : Nat) :
    List.Forall₂ (EnclosesSection p) (e p) rs := by
  obtain ⟨ss, h1, h2⟩ := h
  rw [h1, List.forall₂_map_left_iff]
  exact h2.imp fun _ _ h => h.approx.encl p

end Sys2Proof.Laws
end

