-- ==== Sys2Proof/Laws/State.lean ====
section
/-! SUPPORT. What each update of State leaves alone, field by field. -/

namespace Sys2Proof.Machine

@[simp] theorem State.respond_left (s : State) (p : Port) (ws : List Word) : (s.respond p ws).left = s.left := by cases p <;> rfl
@[simp] theorem State.respond_right (s : State) (p : Port) (ws : List Word) : (s.respond p ws).right = s.right := by cases p <;> rfl
@[simp] theorem State.respond_settings (s : State) (p : Port) (ws : List Word) : (s.respond p ws).settings = s.settings := by cases p <;> rfl
@[simp] theorem State.respond_fs (s : State) (p : Port) (ws : List Word) : (s.respond p ws).fs = s.fs := by cases p <;> rfl
@[simp] theorem State.respond_maxblk (s : State) (p : Port) (ws : List Word) : (s.respond p ws).maxblk = s.maxblk := by cases p <;> rfl
@[simp] theorem State.respond_lifecycle (s : State) (p : Port) (ws : List Word) : (s.respond p ws).lifecycle = s.lifecycle := by cases p <;> rfl
@[simp] theorem State.respond_lastupd (s : State) (p : Port) (ws : List Word) : (s.respond p ws).lastupd = s.lastupd := by cases p <;> rfl
@[simp] theorem State.respond_ctlIn (s : State) (p : Port) (ws : List Word) : (s.respond p ws).ctlIn = s.ctlIn := by cases p <;> rfl
@[simp] theorem State.respond_strIn (s : State) (p : Port) (ws : List Word) : (s.respond p ws).strIn = s.strIn := by cases p <;> rfl
@[simp] theorem State.respond_turns (s : State) (p : Port) (ws : List Word) : (s.respond p ws).turns = s.turns := by cases p <;> rfl
@[simp] theorem State.respond_fresh (s : State) (p : Port) (ws : List Word) : (s.respond p ws).fresh = s.fresh := by cases p <;> rfl

@[simp] theorem State.setInput_left (s : State) (p : Port) (ws : List Word) : (s.setInput p ws).left = s.left := by cases p <;> rfl
@[simp] theorem State.setInput_right (s : State) (p : Port) (ws : List Word) : (s.setInput p ws).right = s.right := by cases p <;> rfl
@[simp] theorem State.setInput_settings (s : State) (p : Port) (ws : List Word) : (s.setInput p ws).settings = s.settings := by cases p <;> rfl
@[simp] theorem State.setInput_fs (s : State) (p : Port) (ws : List Word) : (s.setInput p ws).fs = s.fs := by cases p <;> rfl
@[simp] theorem State.setInput_maxblk (s : State) (p : Port) (ws : List Word) : (s.setInput p ws).maxblk = s.maxblk := by cases p <;> rfl
@[simp] theorem State.setInput_lifecycle (s : State) (p : Port) (ws : List Word) : (s.setInput p ws).lifecycle = s.lifecycle := by cases p <;> rfl
@[simp] theorem State.setInput_lastupd (s : State) (p : Port) (ws : List Word) : (s.setInput p ws).lastupd = s.lastupd := by cases p <;> rfl
@[simp] theorem State.setInput_ctlOut (s : State) (p : Port) (ws : List Word) : (s.setInput p ws).ctlOut = s.ctlOut := by cases p <;> rfl
@[simp] theorem State.setInput_strOut (s : State) (p : Port) (ws : List Word) : (s.setInput p ws).strOut = s.strOut := by cases p <;> rfl
@[simp] theorem State.setInput_turns (s : State) (p : Port) (ws : List Word) : (s.setInput p ws).turns = s.turns := by cases p <;> rfl
@[simp] theorem State.setInput_fresh (s : State) (p : Port) (ws : List Word) : (s.setInput p ws).fresh = s.fresh := by cases p <;> rfl

@[simp] theorem State.send_left (s : State) (p : Port) (ws : List Word) : (s.send p ws).left = s.left := by cases p <;> rfl
@[simp] theorem State.send_right (s : State) (p : Port) (ws : List Word) : (s.send p ws).right = s.right := by cases p <;> rfl
@[simp] theorem State.send_settings (s : State) (p : Port) (ws : List Word) : (s.send p ws).settings = s.settings := by cases p <;> rfl
@[simp] theorem State.send_fs (s : State) (p : Port) (ws : List Word) : (s.send p ws).fs = s.fs := by cases p <;> rfl
@[simp] theorem State.send_maxblk (s : State) (p : Port) (ws : List Word) : (s.send p ws).maxblk = s.maxblk := by cases p <;> rfl
@[simp] theorem State.send_lifecycle (s : State) (p : Port) (ws : List Word) : (s.send p ws).lifecycle = s.lifecycle := by cases p <;> rfl
@[simp] theorem State.send_lastupd (s : State) (p : Port) (ws : List Word) : (s.send p ws).lastupd = s.lastupd := by cases p <;> rfl
@[simp] theorem State.send_ctlOut (s : State) (p : Port) (ws : List Word) : (s.send p ws).ctlOut = s.ctlOut := by cases p <;> rfl
@[simp] theorem State.send_strOut (s : State) (p : Port) (ws : List Word) : (s.send p ws).strOut = s.strOut := by cases p <;> rfl
@[simp] theorem State.send_turns (s : State) (p : Port) (ws : List Word) : (s.send p ws).turns = s.turns := by cases p <;> rfl
@[simp] theorem State.send_fresh (s : State) (p : Port) (ws : List Word) : (s.send p ws).fresh = s.fresh := by cases p <;> rfl

@[simp] theorem State.install_settings (s : State) (secs : List Coefs) : (s.install secs).settings = s.settings := rfl
@[simp] theorem State.install_fs (s : State) (secs : List Coefs) : (s.install secs).fs = s.fs := rfl
@[simp] theorem State.install_maxblk (s : State) (secs : List Coefs) : (s.install secs).maxblk = s.maxblk := rfl
@[simp] theorem State.install_lifecycle (s : State) (secs : List Coefs) : (s.install secs).lifecycle = s.lifecycle := rfl
@[simp] theorem State.install_lastupd (s : State) (secs : List Coefs) : (s.install secs).lastupd = s.lastupd := rfl
@[simp] theorem State.install_ctlIn (s : State) (secs : List Coefs) : (s.install secs).ctlIn = s.ctlIn := rfl
@[simp] theorem State.install_strIn (s : State) (secs : List Coefs) : (s.install secs).strIn = s.strIn := rfl
@[simp] theorem State.install_ctlOut (s : State) (secs : List Coefs) : (s.install secs).ctlOut = s.ctlOut := rfl
@[simp] theorem State.install_strOut (s : State) (secs : List Coefs) : (s.install secs).strOut = s.strOut := rfl
@[simp] theorem State.install_turns (s : State) (secs : List Coefs) : (s.install secs).turns = s.turns := rfl
@[simp] theorem State.install_fresh (s : State) (secs : List Coefs) : (s.install secs).fresh = s.fresh := rfl

@[simp] theorem State.clearDelay_settings (s : State) : (s.clearDelay).settings = s.settings := rfl
@[simp] theorem State.clearDelay_fs (s : State) : (s.clearDelay).fs = s.fs := rfl
@[simp] theorem State.clearDelay_maxblk (s : State) : (s.clearDelay).maxblk = s.maxblk := rfl
@[simp] theorem State.clearDelay_lifecycle (s : State) : (s.clearDelay).lifecycle = s.lifecycle := rfl
@[simp] theorem State.clearDelay_lastupd (s : State) : (s.clearDelay).lastupd = s.lastupd := rfl
@[simp] theorem State.clearDelay_ctlIn (s : State) : (s.clearDelay).ctlIn = s.ctlIn := rfl
@[simp] theorem State.clearDelay_strIn (s : State) : (s.clearDelay).strIn = s.strIn := rfl
@[simp] theorem State.clearDelay_ctlOut (s : State) : (s.clearDelay).ctlOut = s.ctlOut := rfl
@[simp] theorem State.clearDelay_strOut (s : State) : (s.clearDelay).strOut = s.strOut := rfl
@[simp] theorem State.clearDelay_turns (s : State) : (s.clearDelay).turns = s.turns := rfl
@[simp] theorem State.clearDelay_fresh (s : State) : (s.clearDelay).fresh = s.fresh := rfl

@[simp] theorem State.consume_left (s : State) (p : Port) (ws : List Word) : (s.consume p ws).left = s.left := by cases p <;> rfl
@[simp] theorem State.consume_right (s : State) (p : Port) (ws : List Word) : (s.consume p ws).right = s.right := by cases p <;> rfl
@[simp] theorem State.consume_settings (s : State) (p : Port) (ws : List Word) : (s.consume p ws).settings = s.settings := by cases p <;> rfl
@[simp] theorem State.consume_fs (s : State) (p : Port) (ws : List Word) : (s.consume p ws).fs = s.fs := by cases p <;> rfl
@[simp] theorem State.consume_maxblk (s : State) (p : Port) (ws : List Word) : (s.consume p ws).maxblk = s.maxblk := by cases p <;> rfl
@[simp] theorem State.consume_lifecycle (s : State) (p : Port) (ws : List Word) : (s.consume p ws).lifecycle = s.lifecycle := by cases p <;> rfl
@[simp] theorem State.consume_lastupd (s : State) (p : Port) (ws : List Word) : (s.consume p ws).lastupd = s.lastupd := by cases p <;> rfl
@[simp] theorem State.consume_ctlOut (s : State) (p : Port) (ws : List Word) : (s.consume p ws).ctlOut = s.ctlOut := by cases p <;> rfl
@[simp] theorem State.consume_strOut (s : State) (p : Port) (ws : List Word) : (s.consume p ws).strOut = s.strOut := by cases p <;> rfl
@[simp] theorem State.consume_fresh (s : State) (p : Port) (ws : List Word) : (s.consume p ws).fresh = s.fresh := by cases p <;> rfl

@[simp] theorem State.spendTurn_left (s : State) : (s.spendTurn).left = s.left := by unfold State.spendTurn; split <;> rfl
@[simp] theorem State.spendTurn_right (s : State) : (s.spendTurn).right = s.right := by unfold State.spendTurn; split <;> rfl
@[simp] theorem State.spendTurn_settings (s : State) : (s.spendTurn).settings = s.settings := by unfold State.spendTurn; split <;> rfl
@[simp] theorem State.spendTurn_fs (s : State) : (s.spendTurn).fs = s.fs := by unfold State.spendTurn; split <;> rfl
@[simp] theorem State.spendTurn_maxblk (s : State) : (s.spendTurn).maxblk = s.maxblk := by unfold State.spendTurn; split <;> rfl
@[simp] theorem State.spendTurn_lifecycle (s : State) : (s.spendTurn).lifecycle = s.lifecycle := by unfold State.spendTurn; split <;> rfl
@[simp] theorem State.spendTurn_lastupd (s : State) : (s.spendTurn).lastupd = s.lastupd := by unfold State.spendTurn; split <;> rfl
@[simp] theorem State.spendTurn_ctlIn (s : State) : (s.spendTurn).ctlIn = s.ctlIn := by unfold State.spendTurn; split <;> rfl
@[simp] theorem State.spendTurn_strIn (s : State) : (s.spendTurn).strIn = s.strIn := by unfold State.spendTurn; split <;> rfl
@[simp] theorem State.spendTurn_ctlOut (s : State) : (s.spendTurn).ctlOut = s.ctlOut := by unfold State.spendTurn; split <;> rfl
@[simp] theorem State.spendTurn_strOut (s : State) : (s.spendTurn).strOut = s.strOut := by unfold State.spendTurn; split <;> rfl
@[simp] theorem State.spendTurn_turns (s : State) : (s.spendTurn).turns = s.turns := by unfold State.spendTurn; split <;> rfl

@[simp] theorem State.respond_output (s : State) (p : Port) (ws : List Word) : (s.respond p ws).output p = s.output p ++ ws := by
  cases p <;> rfl
theorem State.respond_output_other (s : State) {p q : Port} (h : q ≠ p) (ws : List Word) :
    (s.respond p ws).output q = s.output q := by cases p <;> cases q <;> first | rfl | exact absurd rfl h
@[simp] theorem State.respond_input (s : State) (p q : Port) (ws : List Word) : (s.respond p ws).input q = s.input q := by
  cases p <;> cases q <;> rfl
@[simp] theorem State.setInput_input (s : State) (p : Port) (ws : List Word) : (s.setInput p ws).input p = ws := by
  cases p <;> rfl
theorem State.setInput_input_other (s : State) {p q : Port} (h : q ≠ p) (ws : List Word) :
    (s.setInput p ws).input q = s.input q := by cases p <;> cases q <;> first | rfl | exact absurd rfl h
@[simp] theorem State.setInput_output (s : State) (p q : Port) (ws : List Word) : (s.setInput p ws).output q = s.output q := by
  cases p <;> cases q <;> rfl
@[simp] theorem State.setInput_setInput (s : State) (p : Port) (v w : List Word) :
    (s.setInput p v).setInput p w = s.setInput p w := by cases p <;> rfl
@[simp] theorem State.setInput_self (s : State) (p : Port) : s.setInput p (s.input p) = s := by cases p <;> rfl
@[simp] theorem State.install_left (s : State) (secs : List Coefs) : (s.install secs).left = s.left.install secs := rfl
@[simp] theorem State.install_right (s : State) (secs : List Coefs) : (s.install secs).right = s.right.install secs := rfl
@[simp] theorem State.clearDelay_left (s : State) : s.clearDelay.left = s.left.clear := rfl
@[simp] theorem State.clearDelay_right (s : State) : s.clearDelay.right = s.right.clear := rfl
@[simp] theorem State.consume_turns (s : State) (p : Port) (ws : List Word) : (s.consume p ws).turns = s.turns.tail := by
  cases p <;> rfl
@[simp] theorem State.consume_input (s : State) (p : Port) (ws : List Word) : (s.consume p ws).input p = ws := by
  cases p <;> rfl
theorem State.consume_input_other (s : State) {p q : Port} (h : q ≠ p) (ws : List Word) :
    (s.consume p ws).input q = s.input q := by cases p <;> cases q <;> first | rfl | exact absurd rfl h
theorem State.spendTurn_of_turns (s : State) {p : Port} {ts : List Port} (h : s.turns = p :: ts) : s.spendTurn = s := by
  unfold State.spendTurn; rw [h]

end Sys2Proof.Machine
end

