-- ==== Sys2Proof/Laws/Ops.lean ====
section
/-! SUPPORT. Everything each shared operation can do, said once: the update, the delay registers, the chain, the frames of a
block, what a command can answer, and which command a step takes. -/

namespace Sys2Proof.Machine

/-! ## Slots -/

/-- A fact about the four slots is four facts. -/
theorem forall_slot {P : Fin 4 → Prop} : (∀ i, P i) ↔ P 0 ∧ P 1 ∧ P 2 ∧ P 3 := by
  constructor
  · intro h; exact ⟨h 0, h 1, h 2, h 3⟩
  · rintro ⟨h0, h1, h2, h3⟩ i
    have : i = 0 ∨ i = 1 ∨ i = 2 ∨ i = 3 := by omega
    rcases this with rfl | rfl | rfl | rfl <;> assumption

@[simp] theorem Chain.get_zero (c : Chain) : c.get 0 = c.st0 := rfl
@[simp] theorem Chain.get_one (c : Chain) : c.get 1 = c.st1 := rfl
@[simp] theorem Chain.get_two (c : Chain) : c.get 2 = c.st2 := rfl
@[simp] theorem Chain.get_three (c : Chain) : c.get 3 = c.st3 := rfl

theorem Chain.ext_get {a b : Chain} (h : ∀ i, a.get i = b.get i) : a = b := by
  obtain ⟨h0, h1, h2, h3⟩ := forall_slot.mp h
  cases a
  rw [Chain.mk.injEq]
  exact ⟨h0, h1, h2, h3⟩

@[simp] theorem Chain.clear_get (c : Chain) (i : Fin 4) : c.clear.get i = (c.get i).clear := by
  revert i; rw [forall_slot]; exact ⟨rfl, rfl, rfl, rfl⟩

@[simp] theorem Chain.install_get (c : Chain) (secs : List Coefs) (i : Fin 4) :
    (c.install secs).get i = (c.get i).install secs[i.val]? := by
  revert i; rw [forall_slot]; exact ⟨rfl, rfl, rfl, rfl⟩

@[simp] theorem Stage.clear_coef (st : Stage) : st.clear.coef = st.coef := rfl
@[simp] theorem Stage.clear_bypass (st : Stage) : st.clear.bypass = st.bypass := rfl
@[simp] theorem Stage.clear_s1 (st : Stage) : st.clear.s1 = 0 := rfl
@[simp] theorem Stage.clear_s2 (st : Stage) : st.clear.s2 = 0 := rfl
@[simp] theorem Stage.install_s1 (st : Stage) (o : Option Coefs) : (st.install o).s1 = st.s1 := by cases o <;> rfl
@[simp] theorem Stage.install_s2 (st : Stage) (o : Option Coefs) : (st.install o).s2 = st.s2 := by cases o <;> rfl
@[simp] theorem Stage.install_bypass (st : Stage) (o : Option Coefs) : (st.install o).bypass = o.isNone := by
  cases o <;> rfl
@[simp] theorem Stage.install_coef (st : Stage) (o : Option Coefs) :
    (st.install o).coef = o.getD identityCoefs := by cases o <;> rfl

/-- An install reads nothing of what it replaces, and it replaces all of the configuration. -/
theorem Chain.install_install (c : Chain) (secs : List Coefs) : (c.install secs).install secs = c.install secs := by
  apply Chain.ext_get
  intro i
  simp only [Chain.install_get]
  cases secs[i.val]? <;> rfl

/-! ## The update -/

/-- The sequence an update accepts is the design function's, and it has passed the four checks (R170). -/
theorem designOutcome_ok {cfg : Config} {v : Settings} {f : Word} {secs : List Coefs} :
    designOutcome cfg v f = .ok secs ↔
      slopeValid v.slope = true ∧ cutoffValid v.cutoff f = true ∧
      secs = cfg.designFn v.family v.type v.cutoff f (orderOf v.slope) ∧
      secs.all sectionFinite = true ∧ secs.all sectionStable = true := by
  unfold designOutcome
  constructor
  · intro h
    split at h
    · cases h
    · split at h
      · cases h
      · dsimp only at h
        split at h
        · cases h
        · split at h
          · cases h
          · cases h
            simp_all
  · rintro ⟨h1, h2, rfl, h3, h4⟩
    simp [h1, h2, h3, h4]

/-- An update that installs nothing answers one of the two rejection codes (R170, R172). -/
theorem designOutcome_error {cfg : Config} {v : Settings} {f : Word} {u : UpdateCode}
    (h : designOutcome cfg v f = .error u) : u = .rejectedInvalidParameter ∨ u = .rejectedNumericInstability := by
  unfold designOutcome at h
  split at h
  · cases h; simp
  · split at h
    · cases h; simp
    · dsimp only at h
      split at h
      · cases h; simp
      · split at h
        · cases h; simp
        · cases h

theorem update_ok {cfg : Config} {s : State} {secs : List Coefs} (h : designOutcome cfg s.settings s.fs = .ok secs) :
    update cfg s = ({ s.install secs with lastupd := .installed }, .installed) := by
  simp only [update, h]

/-- The two things an update can do (R170). -/
theorem update_cases (cfg : Config) (s : State) :
    (∃ secs, designOutcome cfg s.settings s.fs = .ok secs ∧
      update cfg s = ({ s.install secs with lastupd := .installed }, .installed)) ∨
    (∃ u, (u = .rejectedInvalidParameter ∨ u = .rejectedNumericInstability) ∧
      designOutcome cfg s.settings s.fs = .error u ∧ update cfg s = ({ s with lastupd := u }, u)) := by
  cases h : designOutcome cfg s.settings s.fs with
  | ok secs => exact .inl ⟨secs, rfl, by simp only [update, h]⟩
  | error u => exact .inr ⟨u, designOutcome_error h, rfl, by simp only [update, h]⟩

/-- An update writes the chains' configuration and LASTUPD, and no other state element (R168, R172). -/
theorem update_frame (cfg : Config) (s : State) :
    update cfg s = ({ s with left := (update cfg s).1.left, right := (update cfg s).1.right, lastupd := (update cfg s).2 },
      (update cfg s).2) := by
  rcases update_cases cfg s with ⟨secs, -, h⟩ | ⟨u, -, -, h⟩ <;> rw [h] <;> rfl

@[simp] theorem update_settings (cfg : Config) (s : State) : (update cfg s).1.settings = s.settings := by rw [update_frame]
@[simp] theorem update_fs (cfg : Config) (s : State) : (update cfg s).1.fs = s.fs := by rw [update_frame]
@[simp] theorem update_maxblk (cfg : Config) (s : State) : (update cfg s).1.maxblk = s.maxblk := by rw [update_frame]
@[simp] theorem update_lifecycle (cfg : Config) (s : State) : (update cfg s).1.lifecycle = s.lifecycle := by
  rw [update_frame]
@[simp] theorem update_ctlIn (cfg : Config) (s : State) : (update cfg s).1.ctlIn = s.ctlIn := by rw [update_frame]
@[simp] theorem update_strIn (cfg : Config) (s : State) : (update cfg s).1.strIn = s.strIn := by rw [update_frame]
@[simp] theorem update_ctlOut (cfg : Config) (s : State) : (update cfg s).1.ctlOut = s.ctlOut := by rw [update_frame]
@[simp] theorem update_strOut (cfg : Config) (s : State) : (update cfg s).1.strOut = s.strOut := by rw [update_frame]
@[simp] theorem update_turns (cfg : Config) (s : State) : (update cfg s).1.turns = s.turns := by rw [update_frame]
@[simp] theorem update_fresh (cfg : Config) (s : State) : (update cfg s).1.fresh = s.fresh := by rw [update_frame]
theorem update_lastupd (cfg : Config) (s : State) : (update cfg s).1.lastupd = (update cfg s).2 := by rw [update_frame]

/-- An update always leaves a code other than the reset one (R45, R171). -/
theorem update_code_ne (cfg : Config) (s : State) : (update cfg s).2 ≠ .noUpdate := by
  rcases update_cases cfg s with ⟨secs, -, h⟩ | ⟨u, hu, -, h⟩ <;> rw [h]
  · simp
  · rcases hu with rfl | rfl <;> simp

/-- An update touches no delay register (R168, R172). -/
theorem update_delay (cfg : Config) (s : State) (ch : Channel) (i : Fin 4) :
    (((update cfg s).1.chain ch).get i).s1 = ((s.chain ch).get i).s1 ∧
    (((update cfg s).1.chain ch).get i).s2 = ((s.chain ch).get i).s2 := by
  rcases update_cases cfg s with ⟨secs, -, h⟩ | ⟨u, -, -, h⟩ <;> cases ch <;> simp [h, State.chain]

/-- The words already answered are no input of an update. -/
theorem update_respond (cfg : Config) (s : State) (p : Port) (ws : List Word) :
    update cfg (s.respond p ws) = ((update cfg s).1.respond p ws, (update cfg s).2) := by
  have e : designOutcome cfg (s.respond p ws).settings (s.respond p ws).fs = designOutcome cfg s.settings s.fs := by
    rw [State.respond_settings, State.respond_fs]
  unfold update
  rw [e]
  cases designOutcome cfg s.settings s.fs <;> cases p <;> rfl

/-- How many stages are active when the first n are (R46). -/
theorem Chain.active_of_prefix {c : Chain} {n : Nat} (hn : n ≤ 4)
    (h : ∀ i : Fin 4, (c.get i).bypass = decide (n ≤ i.val)) : c.active = n := by
  obtain ⟨h0, h1, h2, h3⟩ := forall_slot.mp h
  rw [Chain.get_zero] at h0
  rw [Chain.get_one] at h1
  rw [Chain.get_two] at h2
  rw [Chain.get_three] at h3
  unfold Chain.active
  rw [h0, h1, h2, h3]
  interval_cases n <;> rfl

/-- The stability check in the words of R165. -/
theorem sectionStable_iff (c : Coefs) :
    sectionStable c = true ↔ |scaled c.a2| < 2 ^ 149 ∧ |scaled c.a1| < 2 ^ 149 + scaled c.a2 := by
  simp only [sectionStable, Bool.and_eq_true, decide_eq_true_eq, Int.natCast_natAbs]
  rw [← Int.natCast_natAbs (scaled c.a2)]
  constructor <;> rintro ⟨a, b⟩ <;> exact ⟨by exact_mod_cast a, b⟩

/-! ## The cascade -/

/-- A stage pass changes no coefficient and no bypass flag (R39, R190). -/
theorem Stage.pass_sameConfig (cfg : Config) (st : Stage) (x : Word) (k : Nat) :
    (st.pass cfg x k).stage.SameConfig st := by
  unfold Stage.pass; split <;> exact ⟨rfl, rfl⟩

/-- A bypassed stage passes the sample and changes nothing (R192, R193, R194). -/
theorem Stage.pass_of_bypass (cfg : Config) {st : Stage} (h : st.bypass = true) (x : Word) (k : Nat) :
    st.pass cfg x k = { y := x, stage := st, fresh := k } := by
  unfold Stage.pass; rw [if_pos h]

/-- An active stage takes a stage step (R190). -/
theorem Stage.pass_of_active (cfg : Config) {st : Stage} (h : st.bypass = false) (x : Word) (k : Nat) :
    st.pass cfg x k =
      { y := (cfg.stageFn st.coef st.s1 st.s2 x k).y
        stage := { st with s1 := (cfg.stageFn st.coef st.s1 st.s2 x k).s1, s2 := (cfg.stageFn st.coef st.s1 st.s2 x k).s2 }
        fresh := k + 1 } := by
  unfold Stage.pass; simp [h]

/-- Each slot after a chain pass is that slot after a stage pass of some sample (R192). -/
theorem Chain.pass_get (cfg : Config) (c : Chain) (x : Word) (k : Nat) (i : Fin 4) :
    ∃ y j, ((c.pass cfg x k).chain).get i = ((c.get i).pass cfg y j).stage := by
  revert i; rw [forall_slot]; exact ⟨⟨_, _, rfl⟩, ⟨_, _, rfl⟩, ⟨_, _, rfl⟩, ⟨_, _, rfl⟩⟩

theorem Chain.pass_sameConfig (cfg : Config) (c : Chain) (x : Word) (k : Nat) (i : Fin 4) :
    (((c.pass cfg x k).chain).get i).SameConfig (c.get i) := by
  obtain ⟨y, j, h⟩ := Chain.pass_get cfg c x k i
  rw [h]; exact Stage.pass_sameConfig ..

theorem Chain.pass_holds (cfg : Config) (c : Chain) (x : Word) (k : Nat) (i : Fin 4) (hb : (c.get i).bypass = true) :
    ((c.pass cfg x k).chain).get i = c.get i := by
  obtain ⟨y, j, h⟩ := Chain.pass_get cfg c x k i
  rw [h, Stage.pass_of_bypass cfg hb]

theorem Chain.pass_of_bypass (cfg : Config) {c : Chain} (h : ∀ i : Fin 4, (c.get i).bypass = true) (x : Word) (k : Nat) :
    c.pass cfg x k = { y := x, chain := c, fresh := k } := by
  obtain ⟨h0, h1, h2, h3⟩ := forall_slot.mp h
  rw [Chain.get_zero] at h0
  rw [Chain.get_one] at h1
  rw [Chain.get_two] at h2
  rw [Chain.get_three] at h3
  simp only [Chain.pass, Stage.pass_of_bypass cfg h0, Stage.pass_of_bypass cfg h1, Stage.pass_of_bypass cfg h2,
    Stage.pass_of_bypass cfg h3]

theorem Stage.SameConfig.trans {a b c : Stage} (h : a.SameConfig b) (g : b.SameConfig c) : a.SameConfig c :=
  ⟨h.1.trans g.1, h.2.trans g.2⟩

theorem Stage.SameConfig.symm {a b : Stage} (h : a.SameConfig b) : b.SameConfig a := ⟨h.1.symm, h.2.symm⟩

/-! ## Commands -/

/-- An accepted command: the state it leaves before its response, its update code and its payload (R200, R220, R225, R240,
R245, R250, R255). -/
inductive Accepted : Instr → State → State → UpdateCode → List Word → Prop where
  | prepare {m : BitVec 16} {f : Word} {s : State} : fsValid f = true → m ≠ 0 →
      Accepted (.prepare .stream 0 m f) s
        { (update machineConfig ({ s with fs := f, maxblk := m }.clearDelay)).1 with lifecycle := .prepared }
        (update machineConfig ({ s with fs := f, maxblk := m }.clearDelay)).2 []
  | processBlock {frames : List Frame} {s : State} {o : BlockPass} : s.lifecycle ≠ .stopped →
      frames.length ≤ s.maxblk.toNat →
      o = passFrames machineConfig frames (update machineConfig s).1.left (update machineConfig s).1.right s.fresh →
      Accepted (.processBlock .stream 0 frames) s
        { (update machineConfig s).1 with left := o.left, right := o.right, fresh := o.fresh, lifecycle := .running }
        (update machineConfig s).2 o.samples
  | release {s : State} : Accepted (.release .stream 0) s { s with lifecycle := .stopped } .noUpdate []
  | readStage {ch : Channel} {i : Fin 4} {s : State} :
      Accepted (.readStage .stream 0 ch i) s s .noUpdate ((s.chain ch).get i).words
  | readStatus {s : State} : Accepted (.readStatus .stream 0) s s .noUpdate
      [stateWord s.left.active s.lastupd s.lifecycle, s.fs, zext32 s.maxblk]
  | setSettings {fam : Family} {ty : FilterType} {slope : BitVec 4} {cutoff : Word} {s : State} :
      Accepted (.setSettings .control 0 fam ty slope cutoff) s
        { s with settings := { cutoff := cutoff, type := ty, family := fam, slope := slope } } .noUpdate []
  | getSettings {s : State} : Accepted (.getSettings .control 0) s s .noUpdate [setWord s.settings, s.settings.cutoff]

theorem State.answered_eq_respond (s : State) (p : Port) (w : Word) : s.answered p w = s.respond p [w] := by
  cases p <;> rfl

theorem reject_eq (p : Port) (opc : BitVec 4) (r : ResultCode) (s : State) :
    reject p opc r s = .next (s.answered p (statusWord opc .noUpdate r)) := by
  rw [reject, State.answered_eq_respond]

theorem decoderRejects_false {home port : Port} {c : Bool} :
    decoderRejects home port c = false ↔ port = home ∧ c = true := by
  unfold decoderRejects; cases home <;> cases port <;> cases c <;> decide

/-- Everything a command can answer: the rejection, or its effect and then its response (R103, R270). -/
theorem exec_cases (i : Instr) (s : State) :
    (∃ r : ResultCode, r ≠ .okay ∧ exec i s = .next (s.answered i.port (statusWord i.opc .noUpdate r))) ∨
    (∃ (t : State) (u : UpdateCode) (payload : List Word), Accepted i s t u payload ∧
      exec i s = .next (t.respond i.port (statusWord i.opc u .okay :: payload))) := by
  have illegal {h p : Port} {c : Bool} (hd : ¬ decoderRejects h p c = true) : p = h ∧ c = true :=
    decoderRejects_false.mp (by simpa using hd)
  cases i with
  | prepare p r m f =>
    simp only [exec, execPrepare, prepareWith]
    split
    · exact .inl ⟨.illegalCommand, by decide, reject_eq ..⟩
    · rename_i h
      obtain ⟨rfl, hr⟩ := illegal h
      obtain rfl : r = 0 := by simpa using hr
      split
      · exact .inl ⟨.invalidParameter, by decide, reject_eq ..⟩
      · rename_i h
        simp only [Bool.or_eq_true, Bool.not_eq_true', not_or, beq_iff_eq, Bool.not_eq_false] at h
        exact .inr ⟨_, _, _, .prepare h.1 h.2, rfl⟩
  | processBlock p r fs =>
    simp only [exec, execProcessBlock, processBlockWith]
    split
    · exact .inl ⟨.illegalCommand, by decide, reject_eq ..⟩
    · rename_i h
      obtain ⟨rfl, hr⟩ := illegal h
      obtain rfl : r = 0 := by simpa using hr
      split
      · exact .inl ⟨.hostProtocolError, by decide, reject_eq ..⟩
      · rename_i h
        simp only [not_or, not_lt] at h
        exact .inr ⟨_, _, _, .processBlock h.1 h.2 rfl, by rw [update_fresh]; rfl⟩
  | release p r =>
    simp only [exec, execRelease]
    split
    · exact .inl ⟨.illegalCommand, by decide, reject_eq ..⟩
    · rename_i h
      obtain ⟨rfl, hr⟩ := illegal h
      obtain rfl : r = 0 := by simpa using hr
      exact .inr ⟨_, _, _, .release, rfl⟩
  | readStage p r ch i =>
    simp only [exec, execReadStage]
    split
    · exact .inl ⟨.illegalCommand, by decide, reject_eq ..⟩
    · rename_i h
      obtain ⟨rfl, hr⟩ := illegal h
      obtain rfl : r = 0 := by simpa using hr
      exact .inr ⟨_, _, _, .readStage, rfl⟩
  | readStatus p r =>
    simp only [exec, execReadStatus]
    split
    · exact .inl ⟨.illegalCommand, by decide, reject_eq ..⟩
    · rename_i h
      obtain ⟨rfl, hr⟩ := illegal h
      obtain rfl : r = 0 := by simpa using hr
      exact .inr ⟨_, _, _, .readStatus, rfl⟩
  | setSettings p r fam ty slope c =>
    simp only [exec, execSetSettings]
    split
    · exact .inl ⟨.illegalCommand, by decide, reject_eq ..⟩
    · rename_i h
      obtain ⟨rfl, hr⟩ := illegal h
      obtain rfl : r = 0 := by simpa using hr
      exact .inr ⟨_, _, _, .setSettings, rfl⟩
  | getSettings p r =>
    simp only [exec, execGetSettings]
    split
    · exact .inl ⟨.illegalCommand, by decide, reject_eq ..⟩
    · rename_i h
      obtain ⟨rfl, hr⟩ := illegal h
      obtain rfl : r = 0 := by simpa using hr
      exact .inr ⟨_, _, _, .getSettings, rfl⟩
  | reserved0 p l => exact .inl ⟨.illegalCommand, by decide, reject_eq ..⟩
  | reserved6 p l => exact .inl ⟨.illegalCommand, by decide, reject_eq ..⟩
  | reserved7 p l => exact .inl ⟨.illegalCommand, by decide, reject_eq ..⟩
  | reservedA p l => exact .inl ⟨.illegalCommand, by decide, reject_eq ..⟩
  | reservedB p l => exact .inl ⟨.illegalCommand, by decide, reject_eq ..⟩
  | reservedC p l => exact .inl ⟨.illegalCommand, by decide, reject_eq ..⟩
  | reservedD p l => exact .inl ⟨.illegalCommand, by decide, reject_eq ..⟩
  | reservedE p l => exact .inl ⟨.illegalCommand, by decide, reject_eq ..⟩
  | reservedF p l => exact .inl ⟨.illegalCommand, by decide, reject_eq ..⟩

/-- Every command answers a next state: nothing faults and nothing is refused (R277, R278). -/
theorem exec_next (i : Instr) (s : State) : ∃ t, exec i s = .next t := by
  rcases exec_cases i s with ⟨r, -, h⟩ | ⟨t, u, payload, -, h⟩
  · exact ⟨_, h⟩
  · exact ⟨_, h⟩

/-- What an accepted command answers. -/
theorem Accepted.exec_eq {i : Instr} {s t : State} {u : UpdateCode} {payload : List Word}
    (h : Accepted i s t u payload) : exec i s = .next (t.respond i.port (statusWord i.opc u .okay :: payload)) := by
  cases h with
  | prepare h1 h2 =>
    simp only [exec, execPrepare, prepareWith]
    rw [if_neg (by decide), if_neg (by simpa [h1] using h2)]
    rfl
  | processBlock h1 h2 h3 =>
    subst h3
    simp only [exec, execProcessBlock, processBlockWith]
    rw [if_neg (by decide), if_neg (by simp [h1, h2]), update_fresh]
    rfl
  | release => rfl
  | readStage => rfl
  | readStatus => rfl
  | setSettings => rfl
  | getSettings => rfl

/-- The words already answered change neither what a command answers nor the state it leaves. -/
theorem exec_respond (i : Instr) (s : State) : ∃ (t : State) (answer : List Word),
    exec i s = .next (t.respond i.port answer) ∧ (∀ q, t.output q = s.output q) ∧
    ∀ (p : Port) (ws : List Word), exec i (s.respond p ws) = .next ((t.respond p ws).respond i.port answer) := by
  cases i with
  | prepare q r m f =>
    simp only [exec, execPrepare, prepareWith]
    by_cases h : decoderRejects .stream q (r == 0) = true
    · exact ⟨s, [statusWord 0x1 .noUpdate .illegalCommand], by simp only [if_pos h]; exact ⟨rfl, fun _ => trivial, fun _ _ => rfl⟩⟩
    · simp only [if_neg h]
      by_cases h2 : (!fsValid f || m == 0) = true
      · exact ⟨s, [statusWord 0x1 .noUpdate .invalidParameter], by simp only [if_pos h2]; exact ⟨rfl, fun _ => trivial, fun _ _ => rfl⟩⟩
      · simp only [if_neg h2]
        refine ⟨_, _, rfl, fun q => by cases q <;> simp [State.output], fun p ws => ?_⟩
        have e : ({ s.respond p ws with fs := f, maxblk := m } : State).clearDelay =
            ({ s with fs := f, maxblk := m } : State).clearDelay.respond p ws := by cases p <;> rfl
        rw [e, update_respond]
        cases p <;> rfl
  | processBlock q r fs =>
    simp only [exec, execProcessBlock, processBlockWith]
    by_cases h : decoderRejects .stream q (r == 0) = true
    · exact ⟨s, [statusWord 0x2 .noUpdate .illegalCommand], by simp only [if_pos h]; exact ⟨rfl, fun _ => trivial, fun _ _ => rfl⟩⟩
    · simp only [if_neg h, State.respond_lifecycle, State.respond_maxblk]
      by_cases h2 : s.lifecycle = .stopped ∨ s.maxblk.toNat < fs.length
      · exact ⟨s, [statusWord 0x2 .noUpdate .hostProtocolError], by simp only [if_pos h2]; exact ⟨rfl, fun _ => trivial, fun _ _ => rfl⟩⟩
      · simp only [if_neg h2]
        refine ⟨_, _, rfl, fun q => by cases q <;> simp [State.output], fun p ws => ?_⟩
        rw [update_respond]
        cases p <;> rfl
  | release q r =>
    simp only [exec, execRelease]
    split
    · exact ⟨s, _, rfl, fun _ => rfl, fun _ _ => rfl⟩
    · exact ⟨_, _, rfl, fun q => by cases q <;> rfl, fun p ws => by cases p <;> rfl⟩
  | readStage q r ch i =>
    simp only [exec, execReadStage]
    split
    · exact ⟨s, _, rfl, fun _ => rfl, fun _ _ => rfl⟩
    · exact ⟨s, _, rfl, fun _ => rfl, fun p ws => by cases p <;> cases ch <;> rfl⟩
  | readStatus q r =>
    simp only [exec, execReadStatus]
    split
    · exact ⟨s, _, rfl, fun _ => rfl, fun _ _ => rfl⟩
    · exact ⟨s, _, rfl, fun _ => rfl, fun p ws => by cases p <;> rfl⟩
  | setSettings q r fam ty slope c =>
    simp only [exec, execSetSettings]
    split
    · exact ⟨s, _, rfl, fun _ => rfl, fun _ _ => rfl⟩
    · exact ⟨_, _, rfl, fun q => by cases q <;> rfl, fun p ws => by cases p <;> rfl⟩
  | getSettings q r =>
    simp only [exec, execGetSettings]
    split
    · exact ⟨s, _, rfl, fun _ => rfl, fun _ _ => rfl⟩
    · exact ⟨s, _, rfl, fun _ => rfl, fun p ws => by cases p <;> rfl⟩
  | reserved0 q l => exact ⟨s, _, rfl, fun _ => rfl, fun _ _ => rfl⟩
  | reserved6 q l => exact ⟨s, _, rfl, fun _ => rfl, fun _ _ => rfl⟩
  | reserved7 q l => exact ⟨s, _, rfl, fun _ => rfl, fun _ _ => rfl⟩
  | reservedA q l => exact ⟨s, _, rfl, fun _ => rfl, fun _ _ => rfl⟩
  | reservedB q l => exact ⟨s, _, rfl, fun _ => rfl, fun _ _ => rfl⟩
  | reservedC q l => exact ⟨s, _, rfl, fun _ => rfl, fun _ _ => rfl⟩
  | reservedD q l => exact ⟨s, _, rfl, fun _ => rfl, fun _ _ => rfl⟩
  | reservedE q l => exact ⟨s, _, rfl, fun _ => rfl, fun _ _ => rfl⟩
  | reservedF q l => exact ⟨s, _, rfl, fun _ => rfl, fun _ _ => rfl⟩

/-- An accepted command has written no response yet: that comes with `respond`. -/
theorem Accepted.output_eq {i : Instr} {s t : State} {u : UpdateCode} {payload : List Word}
    (h : Accepted i s t u payload) (p : Port) : t.output p = s.output p := by
  cases h <;> cases p <;> simp [State.output]

/-- The fields of a status word (R104). -/
theorem statusWord_fields (o : BitVec 4) (u : UpdateCode) (r : ResultCode) :
    (statusWord o u r).extractLsb' 28 4 = o ∧ (statusWord o u r).extractLsb' 6 22 = 0 ∧
    (statusWord o u r).extractLsb' 2 2 = 0 ∧ (statusWord o u r).extractLsb' 4 2 = u.code ∧
    (statusWord o u r).extractLsb' 0 2 = r.code := by
  revert o; cases u <;> cases r <;> decide

/-! ## The next command -/

theorem State.ready_iff {s : State} {p : Port} : s.ready p = true ↔ ∃ r, decode p (s.input p) = .ok r := by
  unfold State.ready
  cases h : decode p (s.input p) <;> simp

/-- The command a step takes was decoded from the front of a port's words, which it consumes (R33, R74, R313). -/
theorem nextCommand_some {s s' : State} {i : Instr} (h : nextCommand s = some (i, s')) :
    ∃ (p : Port) (rest : List Word), decode p (s.input p) = .ok (i, rest) ∧
      (s' = s.consume p rest ∨ s' = s.spendTurn.consume p rest) := by
  unfold nextCommand at h
  split at h
  · cases h
  · rename_i c _ hc _
    cases h
    exact ⟨.control, c.2, hc, .inl rfl⟩
  · rename_i d _ hd
    cases h
    exact ⟨.stream, d.2, hd, .inl rfl⟩
  · rename_i c d hc hd
    split at h
    · cases h; exact ⟨.control, c.2, hc, .inr rfl⟩
    · cases h; exact ⟨.stream, d.2, hd, .inr rfl⟩

/-- No command is taken exactly when neither port holds a complete one (R312, R313). -/
theorem nextCommand_none {s : State} : nextCommand s = none ↔ ∀ p, s.ready p = false := by
  have hp : (∀ p, s.ready p = false) ↔ s.ready .control = false ∧ s.ready .stream = false :=
    ⟨fun h => ⟨h _, h _⟩, fun h p => by cases p <;> simp [h.1, h.2]⟩
  rw [hp]
  unfold nextCommand State.ready State.input
  cases decode .control s.ctlIn <;> cases decode .stream s.strIn <;> cases s.turn <;> simp

/-- A port that alone holds a complete command is served. -/
theorem nextCommand_alone {s : State} {p : Port} {i : Instr} {rest : List Word} (h : decode p (s.input p) = .ok (i, rest))
    (ho : ∀ q, q ≠ p → s.ready q = false) : nextCommand s = some (i, s.consume p rest) := by
  unfold nextCommand
  cases p with
  | control =>
    have := ho .stream (by decide)
    unfold State.ready State.input at this
    change decode .control s.ctlIn = _ at h
    rw [h]
    cases h2 : decode .stream s.strIn with
    | ok r => rw [h2] at this; cases this
    | error e => rfl
  | stream =>
    have := ho .control (by decide)
    unfold State.ready State.input at this
    change decode .stream s.strIn = _ at h
    rw [h]
    cases h2 : decode .control s.ctlIn with
    | ok r => rw [h2] at this; cases this
    | error e => rfl

/-- A port whose turn it is, is served if it holds a complete command (R74). -/
theorem nextCommand_turn {s : State} {p : Port} {i : Instr} {rest : List Word} {ts : List Port}
    (h : decode p (s.input p) = .ok (i, rest)) (ht : s.turns = p :: ts) : nextCommand s = some (i, s.consume p rest) := by
  unfold nextCommand State.turn
  rw [State.spendTurn_of_turns s ht, ht]
  cases p with
  | control =>
    change decode .control s.ctlIn = _ at h
    rw [h]
    cases h2 : decode .stream s.strIn <;> rfl
  | stream =>
    change decode .stream s.strIn = _ at h
    rw [h]
    cases h2 : decode .control s.ctlIn <;> rfl

/-- The two things a step can do. -/
theorem step_cases (s : State) :
    ((∀ p, s.ready p = false) ∧ step s = .next s) ∨
    (∃ (p : Port) (i : Instr) (rest : List Word) (s' : State), decode p (s.input p) = .ok (i, rest) ∧
      (s' = s.consume p rest ∨ s' = s.spendTurn.consume p rest) ∧ step s = exec i s') := by
  cases h : nextCommand s with
  | none => exact .inl ⟨nextCommand_none.mp h, by simp only [step, h]⟩
  | some c =>
    obtain ⟨p, rest, h1, h2⟩ := nextCommand_some (i := c.1) (s' := c.2) h
    exact .inr ⟨p, c.1, rest, c.2, h1, h2, by simp only [step, h]⟩

end Sys2Proof.Machine
end

