-- ==== Sys2Proof/Laws/PerInstr.lean ====
section
/-! SUPPORT. One fact per constructor of Instr, about the shape of its encoding. -/

namespace Sys2Proof.Laws.EncodingShape

/-- The words of a well-formed command: as many as its header announces (R96), under its row's OPC (R90, R92). -/
def Statement (i : Instr) : Prop :=
  i.WellFormed → (encode i).length = commandLength (encodeHeader i) ∧ opcodeOf (encodeHeader i) = i.opc.toNat

theorem of_payload {i : Instr} (h : i.WellFormed → (encodePayload i).length = payloadLength (encodeHeader i)) :
    Statement i := fun w =>
  ⟨by rw [encode, List.length_cons, h w, commandLength, Nat.add_comm], opcodeOf_encodeHeader i⟩

theorem payloadLength_encode (i : Instr) : payloadLength (encodeHeader i) =
    match i.opc.toNat with
    | 1 => 1
    | 2 => 2 * (countField (encodeHeader i)).toNat
    | 8 => 1
    | _ => 0 := by
  rw [payloadLength, opcodeOf_encodeHeader]
  all_goals rfl

theorem prepare (p : Port) (r : BitVec 12) (m : BitVec 16) (f : Word) : Statement (.prepare p r m f) :=
  of_payload fun _ => (payloadLength_encode (.prepare p r m f)).symm
theorem processBlock (p : Port) (r : BitVec 12) (fs : List Frame) : Statement (.processBlock p r fs) :=
  of_payload fun w => by
    have w : fs.length ≤ 65535 := w
    refine Eq.trans ?_ (payloadLength_encode _).symm
    show (frameWords fs).length = 2 * (countField (0x2#4 ++ r ++ BitVec.ofNat 16 fs.length)).toNat
    rw [frameWords_length, count_of_append, BitVec.toNat_ofNat, Nat.mod_eq_of_lt (by omega)]
theorem release (p : Port) (r : BitVec 28) : Statement (.release p r) :=
  of_payload fun _ => (payloadLength_encode (.release p r)).symm
theorem readStage (p : Port) (r : BitVec 25) (c : Channel) (x : Fin 4) : Statement (.readStage p r c x) :=
  of_payload fun _ => (payloadLength_encode (.readStage p r c x)).symm
theorem readStatus (p : Port) (r : BitVec 28) : Statement (.readStatus p r) :=
  of_payload fun _ => (payloadLength_encode (.readStatus p r)).symm
theorem setSettings (p : Port) (r : BitVec 22) (fam : Family) (ty : FilterType) (s : BitVec 4) (c : Word) :
    Statement (.setSettings p r fam ty s c) := of_payload fun _ => (payloadLength_encode (.setSettings p r fam ty s c)).symm
theorem getSettings (p : Port) (r : BitVec 28) : Statement (.getSettings p r) :=
  of_payload fun _ => (payloadLength_encode (.getSettings p r)).symm
theorem reserved0 (p : Port) (l : BitVec 28) : Statement (.reserved0 p l) :=
  of_payload fun _ => (payloadLength_encode (.reserved0 p l)).symm
theorem reserved6 (p : Port) (l : BitVec 28) : Statement (.reserved6 p l) :=
  of_payload fun _ => (payloadLength_encode (.reserved6 p l)).symm
theorem reserved7 (p : Port) (l : BitVec 28) : Statement (.reserved7 p l) :=
  of_payload fun _ => (payloadLength_encode (.reserved7 p l)).symm
theorem reservedA (p : Port) (l : BitVec 28) : Statement (.reservedA p l) :=
  of_payload fun _ => (payloadLength_encode (.reservedA p l)).symm
theorem reservedB (p : Port) (l : BitVec 28) : Statement (.reservedB p l) :=
  of_payload fun _ => (payloadLength_encode (.reservedB p l)).symm
theorem reservedC (p : Port) (l : BitVec 28) : Statement (.reservedC p l) :=
  of_payload fun _ => (payloadLength_encode (.reservedC p l)).symm
theorem reservedD (p : Port) (l : BitVec 28) : Statement (.reservedD p l) :=
  of_payload fun _ => (payloadLength_encode (.reservedD p l)).symm
theorem reservedE (p : Port) (l : BitVec 28) : Statement (.reservedE p l) :=
  of_payload fun _ => (payloadLength_encode (.reservedE p l)).symm
theorem reservedF (p : Port) (l : BitVec 28) : Statement (.reservedF p l) :=
  of_payload fun _ => (payloadLength_encode (.reservedF p l)).symm

end Sys2Proof.Laws.EncodingShape
end

