-- ==== Sys2Proof/Tests/Slice0.lean ====
section
/-! SUPPORT. The model's own tests, and for every obligation with hypotheses a witness that meets them. Expected words come
from the spec: the rules' examples and 95_test_vectors.md. -/

namespace Sys2Proof.Tests

open Sys2Proof.Machine

/-! ## Well-formedness and legality -/

theorem test_wf_largest : Instr.WellFormed (.processBlock .stream 0 (List.replicate 65535 ⟨0, 0⟩)) := by
  rw [Instr.WellFormed, Instr.frameCount, List.length_replicate]

/-- R113: a block of 65536 frames fits no encoding. -/
theorem test_wf_refuses_frames : ¬ Instr.WellFormed (.processBlock .stream 0 (List.replicate 65536 ⟨0, 0⟩)) := by
  rw [Instr.WellFormed, Instr.frameCount, List.length_replicate]; decide

/-- R271, its three conditions: a reserved OPC, the other port, a reserved header bit. -/
theorem test_legal_refuses_reserved : ¬ Instr.Legal (.reserved0 .stream 0) := by decide
theorem test_legal_refuses_port : ¬ Instr.Legal (.setSettings .stream 0 .butterworth .lowPass 1 0x447A0000) := by decide
theorem test_legal_refuses_bit : ¬ Instr.Legal (.prepare .stream 1 4 0x473B8000) := by decide
theorem test_legal_accepts : Instr.Legal (.getSettings .control 0) := by decide

/-! ## Decoding: one word written out bit by bit for every constructor (R91 to R95, R100, R101) -/

theorem test_decode_reserved0 : decode .stream [0b00000000000000000000000000000000] = .ok (.reserved0 .stream 0, []) := by
  decide
theorem test_decode_prepare : decode .stream [0b00010000000000000000001000000000, 0x472C4400] =
    .ok (.prepare .stream 0 512 0x472C4400, []) := by decide
theorem test_decode_processBlock :
    decode .stream [0b00100000000000000000000000000010, 0x3F800000, 0, 0, 0x3F800000, 0x30000000] =
    .ok (.processBlock .stream 0 [⟨0x3F800000, 0⟩, ⟨0, 0x3F800000⟩], [0x30000000]) := by decide
theorem test_decode_release : decode .stream [0b00110000000000000000000000000000] = .ok (.release .stream 0, []) := by decide
theorem test_decode_readStage : decode .stream [0b01000000000000000000000000000110] =
    .ok (.readStage .stream 0 .right 2, []) := by decide
theorem test_decode_readStatus : decode .stream [0b01010000000000000000000000000000] = .ok (.readStatus .stream 0, []) := by
  decide
theorem test_decode_reserved6 : decode .stream [0b01100000000000000000000000000000] = .ok (.reserved6 .stream 0, []) := by
  decide
theorem test_decode_reserved7 : decode .control [0b01110000000000000000000000000000] = .ok (.reserved7 .control 0, []) := by
  decide
theorem test_decode_setSettings : decode .control [0b10000000000000000000000000010111, 0x46BB8000] =
    .ok (.setSettings .control 0 .butterworth .lowPass 7 0x46BB8000, []) := by decide
theorem test_decode_getSettings : decode .control [0b10010000000000000000000000000000] =
    .ok (.getSettings .control 0, []) := by decide
theorem test_decode_reservedA : decode .stream [0b10100000000000000000000000000000] = .ok (.reservedA .stream 0, []) := by
  decide
theorem test_decode_reservedB : decode .stream [0b10110000000000000000000000000000] = .ok (.reservedB .stream 0, []) := by
  decide
theorem test_decode_reservedC : decode .stream [0b11000000000000000000000000000000] = .ok (.reservedC .stream 0, []) := by
  decide
theorem test_decode_reservedD : decode .stream [0b11010000000000000000000000000000] = .ok (.reservedD .stream 0, []) := by
  decide
theorem test_decode_reservedE : decode .stream [0b11100000000000000000000000000000] = .ok (.reservedE .stream 0, []) := by
  decide
theorem test_decode_reservedF : decode .stream [0b11110000000000000000000000000000] = .ok (.reservedF .stream 0, []) := by
  decide

/-- R113 in the assembler's text: what it refuses, and by which name. -/
theorem test_assemble_slope :
    assemble "ctl: set_settings slope=16, type=lp, family=bw, cutoff=1000.0" = .error .slopeTooLarge := by decide
theorem test_assemble_maxblk : assemble "str: prepare fs=48000.0, maxblk=65536" = .error .maxblkTooLarge := by decide
theorem test_assemble_stage : assemble "str: read_stage ch=0, idx=4" = .error .noSuchStage := by decide
theorem test_assemble_line : assemble "ctl: prepare fs=48000.0, maxblk=4" = .error .notALine := by decide

/-- R112: an exact pattern, and a comment. -/
theorem test_assemble_bits : assemble "str: process_block (bits(0x80000000), bits(0x00000001)) ; -0.0, subnormal" =
    .ok (.processBlock .stream 0 [⟨0x80000000, 0x00000001⟩]) := by decide

/-- 95_test_vectors.md program P9: a decimal exponent. -/
theorem test_assemble_exponent : assemble "ctl: set_settings slope=0, type=hp, family=bw, cutoff=1e-30" =
    .ok (.setSettings .control 0 .butterworth .highPass 0 0x0DA24260) := by decide

/-! ## States for the tests -/

/-- The first words of what an answer holds on a port. -/
def sent (p : Port) (a : Answer) : Option (List Word) :=
  match a with
  | .next s => some (s.output p)
  | .fault _ => none
  | .refused _ => none

/-- The state reset leaves, with words waiting on the stream port. -/
def waiting (ws : List Word) : State := State.reset.send .stream ws

/-- The default section at 48 kHz (R133, 95_test_vectors.md section 3.3). -/
def highPass : Coefs := ⟨0x3F7040C4, 0xBF7040C4, 0, 0x3F800000, 0xBF608188, 0⟩

/-- A chain with the default section active in stage 0. -/
def oneActive : Chain := { Chain.reset with st0 := { coef := highPass, bypass := false, s1 := 0, s2 := 0 } }

/-- The state after `prepare fs=48000.0, maxblk=4` at reset, its response taken (95_test_vectors.md program P1). -/
def prepared : State :=
  { State.reset with
    left := oneActive, right := oneActive, fs := 0x473B8000, maxblk := 4, lifecycle := .prepared, lastupd := .installed }

/-- The same with settings of the test's own. -/
def preparedWith (slope : BitVec 4) (cutoff : Word) : State :=
  { prepared with settings := { cutoff := cutoff, type := .lowPass, family := .butterworth, slope := slope } }

/-- A configuration whose every section is the identity. -/
def plain : Config :=
  { machineConfig with designFn := fun _ _ _ _ n => List.replicate ((n + 1) / 2) identityCoefs }

/-- A configuration whose every section holds a NaN. -/
def broken : Config :=
  { machineConfig with designFn := fun _ _ _ _ _ => [{ identityCoefs with b0 := 0x7FC00000 }] }

/-! ## Instructions: one step each, with the words of the spec's examples -/

/-- R220: at reset, `prepare fs=48000.0, maxblk=4` installs the default design. -/
theorem test_prepare : step (waiting [0x10000004, 0x473B8000]) = .next { prepared with strOut := [0x10000010] } := by
  have h : machineConfig.designFn Settings.reset.family Settings.reset.type Settings.reset.cutoff 0x473B8000
      (Machine.orderOf Settings.reset.slope) = [highPass] := by decide +kernel
  have d : designOutcome machineConfig Settings.reset 0x473B8000 = .ok [highPass] := by
    rw [designOutcome_ok]
    exact ⟨by decide, by decide +kernel, h.symm, by decide +kernel, by decide +kernel⟩
  have u (s : State) (h1 : s.settings = Settings.reset) (h2 : s.fs = 0x473B8000) :
      update machineConfig s = ({ s.install [highPass] with lastupd := .installed }, .installed) :=
    update_ok (by rw [h1, h2]; exact d)
  have e : nextCommand (waiting [0x10000004, 0x473B8000]) = some (.prepare .stream 0 4 0x473B8000, State.reset) := by
    decide
  have a := (Accepted.prepare (m := 4) (f := 0x473B8000) (s := State.reset) (by decide +kernel) (by decide)).exec_eq
  rw [u _ rfl rfl] at a
  unfold step
  rw [e]
  exact a.trans rfl

/-- R221: a MAXBLK of 0 is rejected. -/
theorem test_prepare_rejected : sent .stream (step (waiting [0x10000000, 0x473B8000])) = some [0x10000001] := by decide

/-- R200: a frame into the default section. -/
theorem test_processBlock : sent .stream (exec (.processBlock .stream 0 [⟨0x3F800000, 0⟩]) prepared) =
    some [0x20000010, 0x3F7040C4, 0x00000000] := by decide +kernel

/-- R226: no block before PREPARE; its payload is consumed (R204). -/
theorem test_processBlock_stopped :
    step (waiting [0x20000001, 0x3F800000, 0, 0x30000000]) =
      .next { waiting [0x30000000] with strOut := [0x20000002] } := by rfl

theorem test_release : exec (.release .stream 0) prepared =
    .next { prepared with lifecycle := .stopped, strOut := [0x30000000] } := by rfl

/-- 95_test_vectors.md program P10: RELEASE with bit 0 set. -/
theorem test_release_reserved : sent .stream (step (waiting [0x30000001])) = some [0x30000003] := by decide

/-- R250, its example. -/
theorem test_readStage : sent .stream (exec (.readStage .stream 0 .left 0) prepared) =
    some [0x40000000, 0x3F7040C4, 0xBF7040C4, 0x00000000, 0x3F800000, 0xBF608188, 0x00000000, 0x00000000] := by decide

/-- 95_test_vectors.md section 3.5: READ_STAGE of a bypassed slot. -/
theorem test_readStage_bypassed : sent .stream (step (waiting [0x40000006])) =
    some [0x40000000, 0x3F800000, 0, 0, 0x3F800000, 0, 0, 1] := by decide

/-- R255, its example, while RUNNING. -/
theorem test_readStatus : sent .stream (exec (.readStatus .stream 0) { prepared with lifecycle := .running }) =
    some [0x50000000, 0x00000112, 0x473B8000, 0x00000004] := by decide

/-- 95_test_vectors.md program P10: READ_STATUS with bit 8 set. -/
theorem test_readStatus_reserved : sent .stream (step (waiting [0x50000100])) = some [0x50000003] := by decide

/-- R240: slope 15 and a NaN cutoff are stored. -/
theorem test_setSettings : step (State.reset.send .control [0x8000003F, 0x7FC00000]) =
    .next { State.reset with
      settings := { cutoff := 0x7FC00000, type := .lowPass, family := .linkwitzRiley, slope := 15 }
      ctlOut := [0x80000000] } := by rfl

/-- R102: SET_SETTINGS on the stream port. -/
theorem test_setSettings_port : step (waiting [0x80000011, 0x447A0000]) =
    .next { State.reset with strOut := [0x80000003] } := by rfl

/-- 95_test_vectors.md section 3.5: the stored bits come back. -/
theorem test_getSettings : sent .control (exec (.getSettings .control 0)
    { State.reset with settings := { cutoff := 0x7FC00000, type := .lowPass, family := .linkwitzRiley, slope := 15 } }) =
    some [0x90000000, 0x0000003F, 0x7FC00000] := by decide

theorem test_getSettings_reserved : sent .control (step (State.reset.send .control [0x90000001])) = some [0x90000003] := by
  decide

/-- R100: reserved opcodes, on either port. -/
theorem test_reserved0 : step (waiting [0x00000000]) = .next { State.reset with strOut := [0x00000003] } := by rfl
theorem test_reserved6 : sent .stream (step (waiting [0x60000000])) = some [0x60000003] := by decide
theorem test_reserved7 : sent .stream (step (waiting [0x70000000])) = some [0x70000003] := by decide
theorem test_reservedA : sent .stream (step (waiting [0xA0000000])) = some [0xA0000003] := by decide
theorem test_reservedB : sent .stream (step (waiting [0xB0000000])) = some [0xB0000003] := by decide
theorem test_reservedC : sent .stream (step (waiting [0xC0000000])) = some [0xC0000003] := by decide
theorem test_reservedD : sent .stream (step (waiting [0xD0000000])) = some [0xD0000003] := by decide
theorem test_reservedE : sent .stream (step (waiting [0xE0000000])) = some [0xE0000003] := by decide
theorem test_reservedF : sent .control (step (State.reset.send .control [0xFFFFFFFF])) = some [0xF0000003] := by decide

/-- R313: the stream port is stuck on half a PREPARE, and the control port's command still runs. -/
theorem test_stuck_port : step ((waiting [0x10000004]).send .control [0x90000000]) =
    .next { waiting [0x10000004] with ctlOut := [0x90000000, 0x00000000, 0x447A0000] } := by rfl

/-- R312: nothing waits, nothing happens. -/
theorem test_idle : step State.reset = .next State.reset := by rfl

theorem test_withFetchWord : step (State.reset.withFetchWord 32 0x50000000) =
    .next { State.reset with strOut := [0x50000000, 0, 0, 0] } := by rfl

/-- R161: the labels and section counts at both ends. -/
theorem test_mapping : [0, 1, 6, 7].map (fun s : BitVec 4 => (slopeLabel s, sectionCount (Machine.orderOf s))) =
    [(6, 1), (12, 1), (42, 4), (48, 4)] := by decide

/-! ## Witnesses: states and operands that meet the obligations' hypotheses -/

theorem witness_DecodeOfEncode :
    (Instr.processBlock .stream 0 (List.replicate 65535 ⟨0, 0⟩)).WellFormed ∧ (Instr.reservedF .control 0xFFFFFFF).WellFormed :=
  ⟨test_wf_largest, by decide⟩

theorem witness_EncodeOfDecode : decode .control [0x80000011, 0x447A0000, 5] =
    .ok (.setSettings .control 0 .butterworth .lowPass 1 0x447A0000, [5]) := by decide

/-- A payload of each length R96 names: two words in all, one, and 1 + 2·N at N = 0 and N = 1. -/
theorem witness_HeaderFixesLength :
    let n (h : Word) := if h.extractLsb' 28 4 = 1 ∨ h.extractLsb' 28 4 = 8 then 2
      else if h.extractLsb' 28 4 = 2 then 1 + 2 * (h.extractLsb' 0 16).toNat else 1
    1 + ([7] : List Word).length = n 0x10000004 ∧ 1 + ([7] : List Word).length = n 0x8000003F ∧
    1 + ([] : List Word).length = n 0x20000000 ∧ 1 + ([7, 8] : List Word).length = n 0x20010001 ∧
    1 + ([] : List Word).length = n 0x30000000 ∧ 1 + ([] : List Word).length = n 0xF0000002 := by decide

theorem witness_IncompleteCommandIsNotRead :
    ([] : List Word).length < payloadLength 0x10000004 ∧ ([1, 2, 3] : List Word).length < payloadLength 0x20000002 := by decide

/-- Each clause at the edge of its field: 15 and 16, 65535 and 65536, 65536 frames, channel 2 and stage 4. -/
theorem witness_AssemblerNeverClamps :
    AsmLine.command (.prepare (.bits 0x473B8000) 0) = .ok (.prepare .stream 0 0 0x473B8000) ∧
    (15 ≤ 15 ∧ ¬ 16 ≤ 15) ∧ (65535 ≤ 65535 ∧ ¬ 65536 ≤ 65535) ∧
    65535 < (List.replicate 65536 ((Literal.bits 0, Literal.bits 0))).length ∧
    ((1 < 2 ∨ 3 < 0) ∧ (1 < 0 ∨ 3 < 4)) := by
  refine ⟨by decide, by decide, by decide, ?_, by decide⟩
  rw [List.length_replicate]; decide

theorem witness_ByteLinkDeliversWords : ([1, 2, 3] : List Byte).length < 4 := by decide

/-- A command on one port alone, and one on each with the control port's turn. -/
theorem witness_StepRunsTheDecodedCommand :
    (decode .stream ((waiting [0x30000000]).input .stream) = .ok (.release .stream 0, []) ∧
      ∀ q, q ≠ .stream → (waiting [0x30000000]).ready q = false) ∧
    (∃ s : State, decode .control (s.input .control) = .ok (.getSettings .control 0, []) ∧ s.ready .stream = true ∧
      s.turns = [.control]) := by
  refine ⟨⟨by decide, fun q h => by cases q; rfl; exact absurd rfl h⟩,
    ⟨{ (waiting [0x30000000]).send .control [0x90000000] with turns := [.control] }, by decide, by decide, rfl⟩⟩

/-- Nothing sent, and half a command. -/
theorem witness_StepWaitsForWords :
    (∀ p, State.reset.ready p = false) ∧ (∀ p, (waiting [0x10000004]).ready p = false) := by
  constructor <;> intro p <;> cases p <;> decide

theorem witness_EitherPortCanBeNext :
    ∃ s : State, decode .control (s.input .control) = .ok (.getSettings .control 0, []) ∧
      decode .stream (s.input .stream) = .ok (.release .stream 0, []) :=
  ⟨(waiting [0x30000000]).send .control [0x90000000], by decide, by decide⟩

theorem witness_StepKeepsEachPortsOrder : step State.reset = .next State.reset ∧
    step (waiting [0x00000000]) = .next { State.reset with strOut := [0x00000003] } := ⟨test_idle, test_reserved0⟩

theorem witness_PlacedWordRuns : decodeTableWord 32 0x10000004 = some (.prepare .stream 0 4 0) ∧
    decodeTableWord 32 0x8000003F = some (.setSettings .control 0 .linkwitzRiley .lowPass 15 0) := by decide

/-- A prepared state meets the invariant, and so does reset. -/
theorem prepared_inv : prepared.Inv where
  channels := fun _ => ⟨rfl, rfl⟩
  activeFirst := by unfold Chain.ActivePrefix; decide
  configured := by
    rw [forall_slot]
    exact ⟨⟨rfl, by decide, by decide +kernel⟩, rfl, rfl, rfl⟩
  fsHeld := .inr (by decide +kernel)
  maxblkHeld := by decide
  prepared := by decide
  lastupdHeld := by decide
  bypassedFirst := by decide

theorem witness_StepKeepsInvariant : prepared.Inv ∧
    step { prepared with strIn := [0x30000000] } = .next { prepared with lifecycle := .stopped, strOut := [0x30000000] } :=
  ⟨prepared_inv, rfl⟩

/-- The prepared state of program P1, with its response, is reached. -/
theorem prepared_reachable : State.Reachable { prepared with strOut := [0x10000010] } :=
  .step (.send .stream [0x10000004, 0x473B8000] .reset) test_prepare

theorem witness_ChannelIdentity : State.Reachable { prepared with strOut := [0x10000010] } ∧
    prepared.left.SameConfig prepared.right ∧
    step { prepared with strIn := [0x30000000] } = .next { prepared with lifecycle := .stopped, strOut := [0x30000000] } :=
  ⟨prepared_reachable, fun _ => ⟨rfl, rfl⟩, rfl⟩

theorem witness_ReachableStatesMeetInvariant : State.Reachable { prepared with strOut := [0x10000010] } := prepared_reachable

/-- Slope 8; and the cutoffs of 95_test_vectors.md section 3.2: ±0, a NaN, an infinity and exactly FS/2. -/
theorem witness_UpdateRejectsInvalidParameter :
    7 < (preparedWith 8 0x447A0000).settings.slope.toNat ∧
    ([0x00000000, 0x80000000, 0x7FC00000, 0x7F800000, 0x46BB8000] : List Word).all (fun c =>
      decide (¬ (isFinite32 (preparedWith 0 c).settings.cutoff = true ∧ 0 < scaled (preparedWith 0 c).settings.cutoff ∧
        2 * scaled (preparedWith 0 c).settings.cutoff < scaled (preparedWith 0 c).fs))) = true := by decide +kernel

/-- Slope 7 at the largest cutoff below FS/2 fails the stability check (R165); a design function that returns a NaN fails the
finiteness check. -/
theorem witness_UpdateRejectsInstability :
    ((preparedWith 7 0x46BB7FFF).settings.slope.toNat ≤ 7 ∧ cutoffValid 0x46BB7FFF 0x473B8000 = true ∧
      ∃ c ∈ machineConfig.designFn .butterworth .lowPass 0x46BB7FFF 0x473B8000 8, sectionFinite c = false ∨
        ¬ (|scaled c.a2| < 2 ^ 149 ∧ |scaled c.a1| < 2 ^ 149 + scaled c.a2)) ∧
    (∃ c ∈ broken.designFn .butterworth .lowPass 0x447A0000 0x473B8000 1, sectionFinite c = false) := by
  refine ⟨⟨by decide, by decide +kernel, ?_⟩, _, List.mem_singleton.mpr rfl, by decide⟩
  have h : ∃ c ∈ machineConfig.designFn .butterworth .lowPass 0x46BB7FFF 0x473B8000 8, sectionStable c = false := by decide +kernel
  obtain ⟨c, hc, h⟩ := h
  exact ⟨c, hc, .inr fun g => by rw [(sectionStable_iff c).mpr g] at h; cases h⟩

theorem witness_UpdateInstalls :
    (preparedWith 7 0x447A0000).settings.slope.toNat ≤ 7 ∧ cutoffValid 0x447A0000 0x473B8000 = true ∧
    (∀ c ∈ machineConfig.designFn .butterworth .lowPass 0x447A0000 0x473B8000 8,
      sectionFinite c = true ∧ sectionStable c = true) := by
  refine ⟨by decide, by decide +kernel, ?_⟩
  decide +kernel

theorem plain_lawful : plain.Lawful := by
  intro fam ty cutoff fs order h1 h8
  refine ⟨List.length_replicate, fun c hc => ?_⟩
  rw [List.eq_of_mem_replicate hc]; rfl

theorem plain_installs (slope : BitVec 4) (h : slope.toNat ≤ 7) : ∃ t, update plain (preparedWith slope 0x447A0000) =
    (t, .installed) := by
  have d : designOutcome plain (preparedWith slope 0x447A0000).settings (preparedWith slope 0x447A0000).fs =
      .ok (List.replicate ((Machine.orderOf slope + 1) / 2) identityCoefs) := by
    rw [designOutcome_ok]
    refine ⟨decide_eq_true h, (by decide +kernel : cutoffValid 0x447A0000 0x473B8000 = true), rfl, ?_, ?_⟩ <;>
      · rw [List.all_eq_true]
        intro c hc
        rw [List.eq_of_mem_replicate hc]
        decide
  exact ⟨_, update_ok d⟩

/-- The lowest and the highest slope index. -/
theorem witness_SlopeSetsActiveStages : plain.Lawful ∧ (∃ t, update plain (preparedWith 0 0x447A0000) = (t, .installed)) ∧
    (∃ t, update plain (preparedWith 7 0x447A0000) = (t, .installed)) :=
  ⟨plain_lawful, plain_installs 0 (by decide), plain_installs 7 (by decide)⟩

theorem witness_RejectedUpdateKeepsTheRest : (update machineConfig State.reset).2 ≠ .installed := by decide +kernel

theorem witness_InstallIsIdempotent : ∃ t, update plain (preparedWith 3 0x447A0000) = (t, .installed) :=
  plain_installs 3 (by decide)

/-- An ordinary cutoff, the largest below FS/2, and FS/4, where k = 1. -/
theorem witness_DesignEnclosesTheRules : cutoffValid 0x447A0000 0x473B8000 = true ∧
    cutoffValid 0x46BB7FFF 0x473B8000 = true ∧ cutoffValid 0x463B8000 0x473B8000 = true := by decide +kernel

theorem witness_DesignRoundsOnce : cutoffValid 0x447A0000 0x473B8000 = true ∧ cutoffValid 0x46BB7FFF 0x473B8000 = true ∧
    cutoffValid 0x463B8000 0x473B8000 = true := witness_DesignEnclosesTheRules

/-- The precision tried first decides the default design and that of the largest cutoff below FS/2. -/
theorem test_firstPrecision :
    (sectionsOf firstPrecision .butterworth .highPass 0x447A0000 0x473B8000 1).all (Section.decided firstPrecision) = true ∧
    (sectionsOf firstPrecision .butterworth .lowPass 0x46BB7FFF 0x473B8000 8).all (Section.decided firstPrecision) = true := by
  decide +kernel

/-- The design does not depend on the precision found: at 60 bits the default section is decided too, and the same. -/
theorem test_otherPrecision :
    (sectionsOf 60 .butterworth .highPass 0x447A0000 0x473B8000 1).map (fun s => (s.decided 60, s.rounded 60)) =
      [(true, highPass)] := by decide +kernel

theorem witness_ExactDesignIsStable : cutoffValid 0x447A0000 0x473B8000 = true ∧
    (Spec.realDesign .butterworth .highPass 0x447A0000 0x473B8000 1).length = 1 :=
  ⟨by decide +kernel, by simp [Spec.realDesign, Spec.butterworth, Spec.qFactors]⟩

theorem witness_ReferenceDesignIsFinite : cutoffValid 0x447A0000 0x473B8000 = true ∧
    highPass ∈ referenceDesign .butterworth .highPass 0x447A0000 0x473B8000 1 := by decide +kernel

/-- The least value that rounds to infinity and the one below it; and the least magnitude. -/
theorem witness_RoundsToNearestEven : 0 < 1 ∧
    roundMagnitude ((2 ^ 25 - 1) * 2 ^ 252) 1 = infMagnitude ∧ roundMagnitude ((2 ^ 25 - 1) * 2 ^ 252 - 1) 1 < infMagnitude ∧
    roundMagnitude 3 2 = 2 ∧ roundMagnitude 1 2 = 0 ∧ 0 < infMagnitude := by decide +kernel

/-- R205: the second-order section's first two impulse response words. -/
theorem test_secondOrder :
    let c : Coefs := ⟨0x3B8052DA, 0x3C0052DA, 0x3B8052DA, 0x3F800000, 0xBFE85D19, 0x3F54BCC8⟩
    let o := referenceStage c 0 0 0x3F800000 0
    [o.y, (referenceStage c o.s1 o.s2 0 1).y] = [0x3B8052DA, 0x3C74CC9A] := by decide +kernel

/-- Finite operands with a sum, a difference and a product that are not 0 and ones that are; an infinity with a finite operand
and with another of each sign; and a NaN. -/
theorem witness_ArithmeticRoundsOnce : isFinite32 0x3F800000 = true ∧ isFinite32 0x80000000 = true ∧
    isInf32 0x7F800000 = true ∧ isInf32 0xFF800000 = true ∧ isNaN32 0x7FC00000 = true ∧
    f32Add 0 0x3F800000 0xBF800000 = 0 ∧ f32Add 0 0x80000000 0x80000000 = 0x80000000 ∧
    f32Mul 0 0x3F800000 0x80000000 = 0x80000000 := by decide +kernel

/-- Half way cases go to the even neighbour (R13): 1 + 2^-24 down, 1 + 2^-23 + 2^-24 up, 1 - 2^-25 up; and the smallest
subnormal squared is +0.0. -/
theorem test_arithmetic : f32Add 0 0x3F800000 0x33800000 = 0x3F800000 ∧ f32Add 0 0x3F800001 0x33800000 = 0x3F800002 ∧
    f32Sub 0 0x3F800000 0x33000000 = 0x3F800000 ∧ f32Mul 0 0x00000001 0x00000001 = 0 := by decide +kernel

/-- A signalling NaN input makes all three results NaN; a NaN in s2 makes the new s1 NaN. -/
theorem witness_StageNaNsAreQuiet (draw : Nat) : isNaN32 (referenceStage highPass 0 0 0x7F800001 draw).y = true ∧
    isNaN32 (referenceStage highPass 0 0 0x7F800001 draw).s1 = true ∧
    isNaN32 (referenceStage highPass 0 0 0x7F800001 draw).s2 = true :=
  ⟨isNaN_add _ (.inl (isNaN_mul _ (.inr (by decide)))),
    isNaN_add _ (.inl (isNaN_sub _ (.inl (isNaN_mul _ (.inr (by decide)))))),
    isNaN_sub _ (.inl (isNaN_mul _ (.inr (by decide))))⟩

theorem witness_NaNsPersist : isNaN32 0x7F800001 = true ∧ isNaN32 0xFFFFFFFF = true ∧ isNaN32 0x7F800000 = false := by decide

theorem witness_BypassIsIdentity :
    (∀ i : Fin 4, (Chain.reset.get i).bypass = true ∧ (Chain.reset.get i).bypass = true) ∧ Stage.reset.bypass = true := by decide

/-- R190, R192, by hand: slot 0 gives 2·1 + 1 = 3 and slot 2 gives 3·3 = 9 (in the other order the chain would give 7); slot 0's
s2 moves to its s1, and the bypassed slots hold. -/
theorem test_two_active_slots :
    let c : Chain := { st0 := ⟨⟨0x40000000, 0, 0, 0x3F800000, 0, 0⟩, false, 0x3F800000, 0x40A00000⟩, st1 := Stage.reset
                       st2 := ⟨⟨0x40400000, 0, 0, 0x3F800000, 0, 0⟩, false, 0, 0⟩, st3 := ⟨identityCoefs, true, 7, 8⟩ }
    let o := passFrames machineConfig [⟨0x3F800000, 0x7F800001⟩] c Chain.reset 0
    o.samples = [0x41100000, 0x7F800001] ∧ o.fresh = 2 ∧ (o.left.st0.s1, o.left.st0.s2) = (0x40A00000, 0) ∧
    o.left.st3 = c.st3 := by decide +kernel

theorem witness_BypassedStagesHold : (oneActive.get 3).bypass = true ∧ (oneActive.get 0).bypass = false := by decide

/-- Equal left samples and different right ones; chains that differ in the bits of a NaN. -/
theorem witness_ChannelsAreIndependent :
    ([⟨1, 2⟩] : List Frame).length = ([⟨1, 3⟩] : List Frame).length ∧
    ([⟨1, 2⟩] : List Frame).map Frame.left = ([⟨1, 3⟩] : List Frame).map Frame.left ∧
    ([⟨2, 1⟩] : List Frame).map Frame.right = ([⟨3, 1⟩] : List Frame).map Frame.right ∧
    Chain.NaNEq { oneActive with st1 := { Stage.reset with s1 := 0x7FC00000 } }
      { oneActive with st1 := { Stage.reset with s1 := 0xFFC00001 } } := by
  refine ⟨rfl, rfl, rfl, ?_⟩
  unfold Chain.NaNEq
  rw [forall_slot]
  refine ⟨⟨⟨rfl, rfl⟩, .inl rfl, .inl rfl⟩, ⟨⟨rfl, rfl⟩, .inr ⟨by decide, by decide⟩, .inl rfl⟩,
    ⟨⟨rfl, rfl⟩, .inl rfl, .inl rfl⟩, ⟨⟨rfl, rfl⟩, .inl rfl, .inl rfl⟩⟩

theorem witness_EqualChannelsAgree : oneActive.NaNEq oneActive ∧
    ∀ f ∈ ([⟨0x3F800000, 0x3F800000⟩, ⟨7, 7⟩] : List Frame), f.left = f.right :=
  ⟨fun _ => ⟨⟨rfl, rfl⟩, .inl rfl, .inl rfl⟩, by decide⟩

/-- The smallest positive FS, with the smallest and the largest MAXBLK. -/
theorem witness_PrepareCompletes : isFinite32 0x00000001 = true ∧ 0 < scaled 0x00000001 ∧ (1 : BitVec 16) ≠ 0 ∧
    (0xFFFF : BitVec 16) ≠ 0 := by decide

/-- Each clause: a NaN, an infinity, ±0, a negative FS, and MAXBLK = 0. -/
theorem witness_PrepareRejectsOperands : isNaN32 0x7FC00000 = true ∧ isInf32 0x7F800000 = true ∧ scaled 0x00000000 ≤ 0 ∧
    scaled 0x80000000 ≤ 0 ∧ scaled 0xBF800000 ≤ 0 ∧ (0 : BitVec 16) = 0 := by decide +kernel

/-- N = MAXBLK, in PREPARED and in RUNNING. -/
theorem witness_ProcessBlockCompletes : prepared.lifecycle ≠ .stopped ∧
    (List.replicate 4 (⟨0, 0⟩ : Frame)).length ≤ prepared.maxblk.toNat ∧
    ({ prepared with lifecycle := .running } : State).lifecycle ≠ .stopped := by decide

/-- Each clause: STOPPED, and N = MAXBLK + 1. -/
theorem witness_ProcessBlockRejects : State.reset.lifecycle = .stopped ∧
    prepared.maxblk.toNat < (List.replicate 5 (⟨0, 0⟩ : Frame)).length := by decide

theorem witness_EmptyBlockAppliesSettings : prepared.lifecycle ≠ .stopped := by decide

/-- Each clause: a reserved opcode, the wrong port, a reserved bit. -/
theorem witness_IllegalCommandsRejected :
    (Instr.reserved0 .stream 0).homePort ≠ some (Instr.reserved0 .stream 0).port ∧
    (Instr.getSettings .stream 0).homePort ≠ some (Instr.getSettings .stream 0).port ∧
    (Instr.readStage .stream 1 .left 0).reservedClear = false := by decide

/-- Each clause on UPD: a rejected command, an accepted one that runs no update, and the update's three outcomes: the design at
reset (1, `test_prepare`), a cutoff that is not below FS/2 (2), and an unstable section (3). -/
theorem witness_EveryCommandAnswers :
    sent .stream (exec (.processBlock .stream 0 []) State.reset) = some [0x20000002] ∧
    sent .stream (exec (.release .stream 0) State.reset) = some [0x30000000] ∧
    sent .stream (exec (.prepare .stream 0 4 0x44FA0000) State.reset) = some [0x10000020] ∧
    sent .stream (exec (.prepare .stream 0 4 0x473B8000) (preparedWith 7 0x46BB7FFF)) = some [0x10000030] :=
  ⟨by decide, by decide, by decide +kernel, by decide +kernel⟩

theorem witness_RejectionChangesNothing :
    exec (.reserved0 .stream 0) State.reset = .next { State.reset with strOut := [0x00000003] } ∧
    ({ State.reset with strOut := [0x00000003] } : State).output .stream = State.reset.output .stream ++ 0x00000003 :: [] ∧
    (0x00000003 : Word).extractLsb' 0 2 ≠ 0 := ⟨rfl, rfl, by decide⟩

/-- Each clause of the match: an accepted and a rejected PREPARE and PROCESS_BLOCK, a RELEASE, and another command. -/
theorem witness_LifecycleTransitions :
    (∃ t, exec (.prepare .stream 0 1 1) State.reset = .next t) ∧ (Instr.prepare .stream 0 1 1).Legal ∧
    fsValid 1 = true ∧ (∃ t, exec (.processBlock .stream 0 []) prepared = .next t) ∧
    exec (.processBlock .stream 0 []) State.reset = .next { State.reset with strOut := [0x20000002] } ∧
    (∃ t, exec (.release .stream 0) prepared = .next t) ∧ (∃ t, exec (.release .stream 1) prepared = .next t) :=
  ⟨exec_next _ _, by decide, by decide +kernel, exec_next _ _, rfl, exec_next _ _, exec_next _ _⟩

theorem witness_PortsAreSplit : (∃ t, exec (.setSettings .control 0 .butterworth .lowPass 1 0) State.reset = .next t) ∧
    (Instr.setSettings .control 0 .butterworth .lowPass 1 0).port = .control ∧
    (∃ t, exec (.release .stream 0) State.reset = .next t) ∧ (Instr.release .stream 0).port = .stream :=
  ⟨exec_next _ _, rfl, exec_next _ _, rfl⟩

theorem witness_OnlyPrepareAndBlocksWrite : (∃ t, exec (.processBlock .stream 0 []) prepared = .next t) ∧
    (Instr.processBlock .stream 0 []).opc ≠ 0x1 ∧ (∃ t, exec (.release .stream 0) prepared = .next t) ∧
    (Instr.release .stream 0).opc ≠ 0x1 ∧ (Instr.release .stream 0).opc ≠ 0x2 :=
  ⟨exec_next _ _, by decide, exec_next _ _, by decide, by decide⟩

/-- A readback on the command's own port, and one on the other. -/
theorem witness_ReadbacksAreInvisible : Readback (.readStatus .stream 0) ∧ Readback (.getSettings .control 0) ∧
    (∃ t, exec (.readStatus .stream 0) prepared = .next t) ∧ (∃ t, exec (.getSettings .control 0) prepared = .next t) ∧
    (∃ u, exec (.processBlock .stream 0 [⟨1, 2⟩]) prepared = .next u) :=
  ⟨trivial, trivial, exec_next _ _, exec_next _ _, exec_next _ _⟩

theorem witness_PrepareIsIdempotent : ∃ t u, exec (.prepare .stream 0 4 0x473B8000) State.reset = .next t ∧
    exec (.prepare .stream 0 4 0x473B8000) t = .next u := by
  obtain ⟨t, ht⟩ := exec_next (.prepare .stream 0 4 0x473B8000) State.reset
  obtain ⟨u, hu⟩ := exec_next (.prepare .stream 0 4 0x473B8000) t
  exact ⟨t, u, ht, hu⟩

theorem witness_EveryStepMakesProgress : (waiting [0x30000000]).ready .stream = true ∧
    (State.reset.send .control [0x90000000]).ready .control = true := by decide

end Sys2Proof.Tests
end

section
/-! The channel identity invariant (R37): each operation that writes the chains keeps it, so every command, every step and
every run does. -/

namespace Sys2Proof.Machine

/-! ## The invariant and the operations on chains -/

theorem Chain.SameConfig.refl (c : Chain) : c.SameConfig c := fun _ => ⟨rfl, rfl⟩

theorem Chain.SameConfig.symm {c d : Chain} (h : c.SameConfig d) : d.SameConfig c := fun i => (h i).symm

theorem Chain.SameConfig.trans {c d e : Chain} (h : c.SameConfig d) (g : d.SameConfig e) : c.SameConfig e :=
  fun i => (h i).trans (g i)

/-- Clearing the delay registers (R220) leaves the configuration. -/
theorem Chain.clear_sameConfig (c : Chain) : c.clear.SameConfig c := fun i => by
  rw [Chain.clear_get]
  exact ⟨rfl, rfl⟩

/-- The configuration an install leaves is the sequence's alone, so any two chains agree after it (R168). -/
theorem Chain.install_sameConfig_install (c d : Chain) (secs : List Coefs) :
    (c.install secs).SameConfig (d.install secs) := fun i => by
  simp only [Chain.install_get, Stage.SameConfig, Stage.install_coef, Stage.install_bypass, and_self]

/-- The frames of a block change no coefficient and no bypass flag of either chain (R39). -/
theorem passFrames_sameConfig (cfg : Config) (fs : List Frame) (l r : Chain) (k : Nat) :
    (passFrames cfg fs l r k).left.SameConfig l ∧ (passFrames cfg fs l r k).right.SameConfig r := by
  induction fs generalizing l r k with
  | nil => exact ⟨.refl l, .refl r⟩
  | cons f rest ih =>
    obtain ⟨hl, hr⟩ := ih (l.pass cfg f.left k).chain (r.pass cfg f.right (l.pass cfg f.left k).fresh).chain
      (r.pass cfg f.right (l.pass cfg f.left k).fresh).fresh
    exact ⟨hl.trans (Chain.pass_sameConfig cfg l _ _), hr.trans (Chain.pass_sameConfig cfg r _ _)⟩

/-- An update installs into both chains at once, or leaves both alone (R168, R172). -/
theorem update_keeps_sameConfig (cfg : Config) {s : State} (h : s.left.SameConfig s.right) :
    (update cfg s).1.left.SameConfig (update cfg s).1.right := by
  rcases update_cases cfg s with ⟨secs, -, hu⟩ | ⟨u, -, -, hu⟩ <;> rw [hu]
  · exact Chain.install_sameConfig_install s.left s.right secs
  · exact h

/-! ## Commands, steps and runs -/

theorem Accepted.keeps_sameConfig {i : Instr} {s t : State} {u : UpdateCode} {payload : List Word}
    (ha : Accepted i s t u payload) (h : s.left.SameConfig s.right) : t.left.SameConfig t.right := by
  cases ha with
  | prepare =>
    apply update_keeps_sameConfig
    exact (Chain.clear_sameConfig s.left).trans (h.trans (Chain.clear_sameConfig s.right).symm)
  | processBlock _ _ ho =>
    subst ho
    obtain ⟨hl, hr⟩ := passFrames_sameConfig machineConfig _ (update machineConfig s).1.left
      (update machineConfig s).1.right s.fresh
    exact hl.trans ((update_keeps_sameConfig machineConfig h).trans hr.symm)
  | release => exact h
  | readStage => exact h
  | readStatus => exact h
  | setSettings => exact h
  | getSettings => exact h

theorem exec_keeps_sameConfig {i : Instr} {s t : State} (h : s.left.SameConfig s.right) (he : exec i s = .next t) :
    t.left.SameConfig t.right := by
  rcases exec_cases i s with ⟨r, -, hr⟩ | ⟨v, u, payload, ha, hr⟩ <;> cases hr.symm.trans he
  · rw [State.answered_eq_respond, State.respond_left, State.respond_right]
    exact h
  · rw [State.respond_left, State.respond_right]
    exact ha.keeps_sameConfig h

theorem step_keeps_sameConfig {s t : State} (h : s.left.SameConfig s.right) (hs : step s = .next t) :
    t.left.SameConfig t.right := by
  rcases step_cases s with ⟨-, hw⟩ | ⟨p, i, rest, s', -, hc, hx⟩
  · cases hw.symm.trans hs
    exact h
  · refine exec_keeps_sameConfig ?_ (hx.symm.trans hs)
    rcases hc with rfl | rfl <;> simpa using h

theorem State.Reachable.sameConfig {s : State} (hs : s.Reachable) : s.left.SameConfig s.right := by
  induction hs with
  | reset => exact .refl Chain.reset
  | step _ hstep ih => exact step_keeps_sameConfig ih hstep
  | send p ws _ ih => rwa [State.send_left, State.send_right]
  | turns _ _ ih => exact ih

/-- Settles O18: reset has the invariant and every step keeps it, since only an install writes a configuration, and it writes
both chains alike. -/
theorem channelIdentity : Obligations.ChannelIdentity :=
  ⟨fun _ hs => hs.sameConfig, fun _ _ => step_keeps_sameConfig⟩

end Sys2Proof.Machine
end

section
/-! How many words a command consumes, as its header alone says (R96). -/

namespace Sys2Proof.Laws

/-- The lengths of R96, under the header's own fields. -/
theorem commandLength_eq (h : Word) : commandLength h =
    if h.extractLsb' 28 4 = 1 ∨ h.extractLsb' 28 4 = 8 then 2
    else if h.extractLsb' 28 4 = 2 then 1 + 2 * (h.extractLsb' 0 16).toNat else 1 := by
  unfold commandLength payloadLength
  split
  next e => rw [opcode_bits e, if_pos (by decide)]
  next e => rw [opcode_bits e, if_neg (by decide), if_pos (by decide), countField]
  next e => rw [opcode_bits e, if_pos (by decide)]
  next h1 h2 h8 =>
    have hne (o : BitVec 4) (ho : opcodeOf h ≠ o.toNat) : h.extractLsb' 28 4 ≠ o :=
      fun e => ho (congrArg BitVec.toNat e)
    rw [if_neg (not_or.mpr ⟨hne 1 h1, hne 8 h8⟩), if_neg (hne 2 h2)]

/-- Under an OPC without payload the decoder reads the header alone. -/
theorem decodeCommand_of_noPayload (p : Port) {h : Word} (h1 : opcodeOf h ≠ 1) (h2 : opcodeOf h ≠ 2)
    (h8 : opcodeOf h ≠ 8) (ws : List Word) :
    ∃ i : Instr, decodeCommand p h ws = some (i, ws) ∧ i.port = p ∧ i.opc = h.extractLsb' 28 4 := by
  have hlt := opcodeOf_lt h
  generalize e : opcodeOf h = n at h1 h2 h8 hlt
  simp only [decodeCommand, e]
  interval_cases n
  any_goals contradiction
  all_goals exact ⟨_, rfl, rfl, (opcode_bits e).symm⟩

/-- A payload of the announced length is all there, so the decoder reads one command under the header's OPC and leaves the
words after the payload. -/
theorem decodeCommand_of_payload (p : Port) {h : Word} {ws : List Word} (hl : ws.length = payloadLength h)
    (rest : List Word) :
    ∃ i : Instr, decodeCommand p h (ws ++ rest) = some (i, rest) ∧ i.port = p ∧ i.opc = h.extractLsb' 28 4 := by
  unfold payloadLength at hl
  split at hl
  next e =>
    obtain ⟨fs, rfl⟩ := List.length_eq_one_iff.mp hl
    simp only [decodeCommand, e]
    exact ⟨_, rfl, rfl, (opcode_bits e).symm⟩
  next e =>
    obtain ⟨frames, hf⟩ := takeFrames_some hl rest
    simp only [decodeCommand, e, hf]
    exact ⟨_, rfl, rfl, (opcode_bits e).symm⟩
  next e =>
    obtain ⟨cutoff, rfl⟩ := List.length_eq_one_iff.mp hl
    simp only [decodeCommand, e]
    exact ⟨_, rfl, rfl, (opcode_bits e).symm⟩
  next h1 h2 h8 =>
    obtain rfl := List.eq_nil_of_length_eq_zero hl
    exact decodeCommand_of_noPayload p h1 h2 h8 rest

/-- Settles O3: the lengths named are the ones the header announces, and an announced payload is read whole, by cases on
the OPC. -/
theorem headerFixesLength : Obligations.HeaderFixesLength := by
  intro p h payload rest opc n hn
  have hl : 1 + payload.length = commandLength h := hn.trans (commandLength_eq h).symm
  obtain ⟨i, hd, hp, ho⟩ := decodeCommand_of_payload p (Nat.add_left_cancel hl) rest
  exact ⟨i, by rw [List.cons_append, decode, hd], hp, ho⟩

end Sys2Proof.Laws
end

section
/-! The readback commands' words in the arithmetic of their fields (R106 to R109), and the encoding examples (R114). -/

namespace Sys2Proof.Machine

/-! ## Words put together -/

theorem toNat_append_add {m n : Nat} (x : BitVec m) (y : BitVec n) :
    (x ++ y).toNat = x.toNat * 2 ^ n + y.toNat := by
  rw [BitVec.toNat_append, ← Nat.shiftLeft_add_eq_or_of_lt y.isLt, Nat.shiftLeft_eq]

/-- FLAGS (R107). -/
theorem flagsWord_eq (b : Bool) : flagsWord b = if b then 1 else 0 := by cases b <;> rfl

/-- `zext_32` keeps the number (R12). -/
theorem zext32_eq (v : BitVec 16) : zext32 v = BitVec.ofNat 32 v.toNat := by
  apply BitVec.eq_of_toNat_eq
  have hv := v.isLt
  simp only [zext32, toNat_append_add, BitVec.toNat_ofNat]
  omega

/-- STATE (R106): ACTIVE fits its three bits. -/
theorem stateWord_eq {active : Nat} (ha : active < 8) (u : UpdateCode) (l : Lifecycle) :
    stateWord active u l = BitVec.ofNat 32 (active * 256 + u.code.toNat * 16 + l.code.toNat) := by
  apply BitVec.eq_of_toNat_eq
  have hu := u.code.isLt
  have hl := l.code.isLt
  simp only [stateWord, toNat_append_add, BitVec.toNat_ofNat]
  omega

/-- SETWORD (R108). -/
theorem setWord_eq (v : Settings) :
    setWord v = BitVec.ofNat 32 (v.slope.toNat + 16 * v.type.bit.toNat + 32 * v.family.bit.toNat) := by
  apply BitVec.eq_of_toNat_eq
  have hs := v.slope.isLt
  have ht := v.type.bit.isLt
  have hf := v.family.bit.isLt
  simp only [setWord, toNat_append_add, BitVec.toNat_ofNat]
  omega

theorem countP_cons_toNat {α : Type} (p : α → Bool) (a : α) (as : List α) :
    (a :: as).countP p = (p a).toNat + as.countP p := by
  rw [List.countP_cons, Nat.add_comm]
  cases p a <;> rfl

/-- ACTIVE counts the slots that are not bypassed (R46). -/
theorem Chain.active_eq_countP (c : Chain) :
    c.active = ([0, 1, 2, 3] : List (Fin 4)).countP fun i => !(c.get i).bypass := by
  simp only [countP_cons_toNat, List.countP_nil, Chain.get_zero, Chain.get_one, Chain.get_two, Chain.get_three,
    Chain.active, Nat.add_assoc, Nat.add_zero]

theorem Chain.active_le (c : Chain) : c.active ≤ 4 := by
  rw [Chain.active_eq_countP]
  exact List.countP_le_length

/-! ## Answers -/

/-- Settles O47: an accepted READ_STAGE answers the slot's words, FLAGS by its bypass flag. -/
theorem readStageAnswers : Obligations.ReadStageAnswers := by
  intro ch i s st
  have hst : (s.chain ch).get i = st := by cases ch <;> rfl
  rw [Accepted.readStage.exec_eq, hst, Stage.words, flagsWord_eq, Instr.opc]
  rfl

/-- Settles O48: an accepted READ_STATUS answers STATE, FS and MAXBLK, and at most four stages are active, so that ACTIVE
fits its field. -/
theorem readStatusAnswers : Obligations.ReadStatusAnswers := by
  intro s active lastupd lifecycle
  have ha : s.left.active < 8 := by have := s.left.active_le; omega
  have hu : s.lastupd.code.toNat = lastupd := by dsimp only [lastupd]; cases s.lastupd <;> rfl
  have hl : s.lifecycle.code.toNat = lifecycle := by dsimp only [lifecycle]; cases s.lifecycle <;> rfl
  rw [Accepted.readStatus.exec_eq, stateWord_eq ha, hu, hl, zext32_eq, Chain.active_eq_countP]
  rfl

/-- Settles O50: an accepted GET_SETTINGS answers SETWORD and CUTOFF. -/
theorem getSettingsAnswers : Obligations.GetSettingsAnswers := by
  intro s ty fam
  have ht : s.settings.type.bit.toNat = ty := by dsimp only [ty]; cases s.settings.type <;> rfl
  have hf : s.settings.family.bit.toNat = fam := by dsimp only [fam]; cases s.settings.family <;> rfl
  rw [Accepted.getSettings.exec_eq, setWord_eq, ht, hf]
  rfl

/-! ## The encoding examples -/

/-- Settles O5, by running the assembler and the encoder on each line. -/
theorem encodingExamples : Obligations.EncodingExamples := by
  unfold Obligations.EncodingExamples
  and_intros <;> decide

end Sys2Proof.Machine
end

section
/-! The reference design rounds the exact sections (R131). -/

namespace Sys2Proof.Laws

open Sys2Proof.Machine Sys2Proof.Spec

/-- Where the enclosures settle, the reference design's two ways to a result agree: the precision tried first, when it
decides, and the search, which always ends, both give the exact roundings. -/
theorem referenceDesign_of_settles {fam : Family} {ty : FilterType} {c f : Word} {order : Nat} {rs : List RealSection}
    (h : ListSettles (fun p => sectionsOf p fam ty c f order) rs) :
    referenceDesign fam ty c f order = rs.map RealSection.rounded := by
  unfold referenceDesign
  simp only
  split
  next hd => exact h.rounded hd
  next => rw [h.roundFrom (firstPrecision + 1), Option.getD_some]

/-- Settles O28: for the inputs of R122 the enclosures settle on the rules' exact sections, so the reference design is their
rounding. -/
theorem designRoundsOnce : Obligations.DesignRoundsOnce :=
  fun fam ty _ _ order hv => referenceDesign_of_settles (design_settles fam ty order hv)

end Sys2Proof.Laws
end

section
/-! The update (R162 to R170), for any design function: the rejection of a parameter, what an install leaves, and a second
install. -/

namespace Sys2Proof.Machine

/-! ## The two checks of the parameters -/

theorem slopeValid_iff (slope : BitVec 4) : slopeValid slope = true ↔ slope.toNat ≤ 7 := decide_eq_true_iff

/-- The cutoff check in the words of R163. -/
theorem cutoffValid_iff (c fs : Word) :
    cutoffValid c fs = true ↔ isFinite32 c = true ∧ 0 < scaled c ∧ 2 * scaled c < scaled fs := by
  simp only [cutoffValid, Bool.and_eq_true, decide_eq_true_eq, and_assoc]

/-- Whatever the design function, a parameter that fails its check decides the outcome (R162, R163). -/
theorem designOutcome_of_invalidParameter (cfg : Config) {v : Settings} {f : Word}
    (h : ¬ (slopeValid v.slope = true ∧ cutoffValid v.cutoff f = true)) :
    designOutcome cfg v f = .error .rejectedInvalidParameter := by
  unfold designOutcome
  cases hs : slopeValid v.slope
  case false => rfl
  case true =>
    cases hc : cutoffValid v.cutoff f
    case false => rfl
    case true => exact absurd ⟨hs, hc⟩ h

theorem update_error {cfg : Config} {s : State} {u : UpdateCode} (h : designOutcome cfg s.settings s.fs = .error u) :
    update cfg s = ({ s with lastupd := u }, u) := by
  simp only [update, h]

/-- Settles O20: the slope or the cutoff fails its check, and the outcome is then an error before the design function is
asked. -/
theorem updateRejectsInvalidParameter : Obligations.UpdateRejectsInvalidParameter := by
  intro cfg s h
  refine update_error (designOutcome_of_invalidParameter cfg fun ⟨hs, hc⟩ => ?_)
  rcases h with hslope | hcutoff
  · exact absurd ((slopeValid_iff _).mp hs) (Nat.not_le.mpr hslope)
  · exact hcutoff ((cutoffValid_iff _ _).mp hc)

/-! ## Install -/

/-- The slots of either chain after an install, whatever LASTUPD is then (R166, R168). -/
theorem installed_slot (s : State) (secs : List Coefs) (u : UpdateCode) (ch : Channel) (i : Fin 4) :
    (({ s.install secs with lastupd := u } : State).chain ch).get i = ((s.chain ch).get i).install secs[i.val]? := by
  cases ch <;> exact Chain.install_get _ secs i

/-- Settles O22: all four checks pass, so the update installs the design function's sequence, slot by slot. -/
theorem updateInstalls : Obligations.UpdateInstalls := by
  intro cfg s hslope hcutoff secs hsecs
  have hok : designOutcome cfg s.settings s.fs = .ok secs :=
    designOutcome_ok.mpr ⟨(slopeValid_iff _).mpr hslope, hcutoff, rfl,
      List.all_eq_true.mpr fun c hc => (hsecs c hc).1, List.all_eq_true.mpr fun c hc => (hsecs c hc).2⟩
  refine ⟨_, update_ok hok, rfl, fun ch i => ?_⟩
  rw [installed_slot]
  cases secs[i.val]? <;> rfl

/-! ## A second install -/

theorem State.install_install (s : State) (secs : List Coefs) : (s.install secs).install secs = s.install secs := by
  simp only [State.install, Chain.install_install]

/-- An update answers INSTALLED only where the four checks pass and the sequence is installed (R170). -/
theorem update_eq_installed {cfg : Config} {s t : State} (h : update cfg s = (t, .installed)) :
    ∃ secs, designOutcome cfg s.settings s.fs = .ok secs ∧ t = { s.install secs with lastupd := .installed } := by
  rcases update_cases cfg s with ⟨secs, hok, hu⟩ | ⟨u, hcode, -, hu⟩ <;> cases hu.symm.trans h
  · exact ⟨secs, hok, rfl⟩
  · simp at hcode

/-- Settles O25: an install leaves SETTINGS and FS alone, so the second update decides on the same sequence, and
installing it again writes the values already there. -/
theorem installIsIdempotent : Obligations.InstallIsIdempotent := by
  intro cfg s t h
  obtain ⟨secs, hok, rfl⟩ := update_eq_installed h
  have hagain := update_ok (s := { s.install secs with lastupd := .installed }) hok
  have hsame : { s.install secs with lastupd := .installed }.install secs =
      { s.install secs with lastupd := .installed } :=
    congrArg (fun r : State => { r with lastupd := .installed }) (State.install_install s secs)
  rw [hagain, hsame]

end Sys2Proof.Machine
end

section
/-! PROCESS_BLOCK without frames (R203): the update, and nothing else. -/

namespace Sys2Proof.Machine

theorem passFrames_nil (cfg : Config) (l r : Chain) (k : Nat) :
    passFrames cfg [] l r k = { left := l, right := r, fresh := k, samples := [] } := rfl

/-- A block of no frames is accepted whatever MAXBLK is, and leaves the updated state, RUNNING, with no payload (R203). -/
theorem Accepted.emptyBlock {s : State} (h : s.lifecycle ≠ .stopped) :
    Accepted (.processBlock .stream 0 []) s { (update machineConfig s).1 with lifecycle := .running }
      (update machineConfig s).2 [] := by
  have hacc := Accepted.processBlock (frames := []) h (Nat.zero_le s.maxblk.toNat) rfl
  rwa [passFrames_nil, ← update_fresh machineConfig s] at hacc

/-- Settles O45: no frame passes the chains, so the state left is the update's, and an update touches no delay register. -/
theorem emptyBlockAppliesSettings : Obligations.EmptyBlockAppliesSettings := by
  intro s hs
  refine ⟨_, ?_, rfl, update_delay machineConfig s⟩
  rw [(Accepted.emptyBlock hs).exec_eq, ← update_strOut machineConfig s]
  rfl

end Sys2Proof.Machine
end

section
/-! PREPARE's rejection of an invalid operand (R221). -/

namespace Sys2Proof.Machine

theorem isFinite32_of_isNaN {w : Word} (h : isNaN32 w = true) : isFinite32 w = false :=
  decide_eq_false (Nat.lt_asymm (of_decide_eq_true h))

theorem isFinite32_of_isInf {w : Word} (h : isInf32 w = true) : isFinite32 w = false :=
  decide_eq_false (eq_of_beq h).not_lt

/-- The FS check in the words of R221. -/
theorem fsValid_iff (f : Word) : fsValid f = true ↔ isFinite32 f = true ∧ 0 < scaled f := by
  rw [fsValid, Bool.and_eq_true, decide_eq_true_eq]

/-- A PREPARE that the decoder lets through and whose operands fail their check only answers INVALID_PARAMETER, with UPD
NONE (R221, R270). -/
theorem exec_prepare_of_invalid {m : BitVec 16} {f : Word} (h : ¬ (fsValid f = true ∧ m ≠ 0)) (s : State) :
    exec (.prepare .stream 0 m f) s = .next (s.answered .stream (statusWord 0x1 .noUpdate .invalidParameter)) := by
  have hfails : (!fsValid f || m == 0) = true := by
    by_cases hf : fsValid f = true
    · simp [not_not.mp fun hm => h ⟨hf, hm⟩]
    · simp [hf]
  simp only [exec, execPrepare, prepareWith]
  rw [if_neg (by decide), if_pos hfails, reject_eq]

/-- Settles O42: each operand named fails PREPARE's check, and the rejection's status word is 0x10000001. -/
theorem prepareRejectsOperands : Obligations.PrepareRejectsOperands := by
  intro m f s h
  have hinvalid : ¬ (fsValid f = true ∧ m ≠ 0) := by
    rintro ⟨hf, hm⟩
    obtain ⟨hfin, hpos⟩ := (fsValid_iff f).mp hf
    rcases h with hnan | hinf | hle | hzero
    · exact absurd hfin (by simp [isFinite32_of_isNaN hnan])
    · exact absurd hfin (by simp [isFinite32_of_isInf hinf])
    · exact hle.not_gt hpos
    · exact hm hzero
  have hword : statusWord 0x1 .noUpdate .invalidParameter = 0x10000001 := by decide
  rw [exec_prepare_of_invalid hinvalid, hword, State.answered]

end Sys2Proof.Machine
end

section
/-! The decoder's rejection (R271): a command that is not legal only answers ILLEGAL_COMMAND. -/

namespace Sys2Proof.Machine

/-- The decoder's check in the words of R271, for an opcode that has a home port. -/
theorem decoderRejects_true {home port : Port} {clear : Bool} (h : some home ≠ some port ∨ clear = false) :
    decoderRejects home port clear = true := by
  refine Bool.of_not_eq_false fun hf => ?_
  obtain ⟨rfl, hclear⟩ := decoderRejects_false.mp hf
  rcases h with hport | hreserved
  · exact hport rfl
  · exact Bool.false_ne_true (hreserved.symm.trans hclear)

/-- ILLEGAL_COMMAND's one status word is the OPC with RESULT 3 and UPD NONE (R104, R271). -/
theorem reject_illegalCommand (p : Port) (opc : BitVec 4) (s : State) :
    reject p opc .illegalCommand s = .next (s.answered p (opc ++ 0x0000003#28)) := by
  have hword : statusWord opc .noUpdate .illegalCommand = opc ++ 0x0000003#28 := by
    revert opc
    decide
  rw [reject_eq, hword]

/-- Where the decoder's check fails, whatever else the command would have answered is never reached (R271). -/
theorem answer_of_illegal {home port : Port} {clear : Bool} (h : some home ≠ some port ∨ clear = false)
    (opc : BitVec 4) (s : State) (otherwise : Answer) :
    (if decoderRejects home port clear then reject port opc .illegalCommand s else otherwise) =
      .next (s.answered port (opc ++ 0x0000003#28)) := by
  rw [if_pos (decoderRejects_true h), reject_illegalCommand]

/-- Settles O52: a command with a home port makes the decoder's check first, and a reserved opcode's whole meaning is the
rejection. -/
theorem illegalCommandsRejected : Obligations.IllegalCommandsRejected := by
  intro i s h
  cases i with
  | prepare | processBlock | release | readStage | readStatus | setSettings | getSettings =>
    exact answer_of_illegal h _ s _
  | reserved0 | reserved6 | reserved7 | reservedA | reservedB | reservedC | reservedD | reservedE | reservedF =>
    exact reject_illegalCommand _ _ s

end Sys2Proof.Machine
end

section
/-! The state after power-on reset (R300), and what R302 says of it. -/

namespace Sys2Proof.Machine

/-! ## The chains after reset -/

@[simp] theorem Chain.reset_get (i : Fin 4) : Chain.reset.get i = Stage.reset := by
  revert i
  rw [forall_slot]
  exact ⟨rfl, rfl, rfl, rfl⟩

@[simp] theorem State.reset_chain (ch : Channel) : State.reset.chain ch = Chain.reset := by cases ch <;> rfl

/-- Every slot of either chain is a reset stage (R300). -/
theorem State.reset_slot (ch : Channel) (i : Fin 4) : (State.reset.chain ch).get i = Stage.reset := by
  rw [State.reset_chain, Chain.reset_get]

/-- Settles O14: every slot is a reset stage, and the other elements are the fields of the reset state. -/
theorem resetSetsEveryElement : Obligations.ResetSetsEveryElement :=
  ⟨State.reset_slot, rfl, rfl, rfl, rfl, rfl, rfl, rfl, rfl, rfl⟩

/-! ## The invariant -/

/-- A reset stage is bypassed and holds the identity (R35). -/
theorem Stage.reset_configured : Stage.reset.Configured := rfl

theorem Chain.reset_activePrefix : Chain.reset.ActivePrefix := ⟨fun _ => rfl, fun _ => rfl, fun _ => rfl⟩

theorem Chain.reset_active : Chain.reset.active = 0 :=
  Chain.active_of_prefix (Nat.zero_le 4) fun i => by
    rw [Chain.reset_get, decide_eq_true (Nat.zero_le i.val), Stage.reset]

/-- The two chains are equal and all bypassed, and the registers stand for a block that no PREPARE has reached (R302). -/
theorem State.reset_inv : State.reset.Inv where
  channels := .refl Chain.reset
  activeFirst := Chain.reset_activePrefix
  configured i := (Chain.reset_get i).symm ▸ Stage.reset_configured
  fsHeld := .inl rfl
  maxblkHeld := iff_of_true rfl rfl
  prepared h := absurd rfl h
  lastupdHeld := iff_of_true rfl rfl
  bypassedFirst _ := Chain.reset_active

/-! ## The readbacks -/

/-- Settles O15: reset meets the invariant, and each readback, accepted in any state, answers the words of what reset left. -/
theorem resetReadsBack : Obligations.ResetReadsBack := by
  refine ⟨State.reset_inv, fun ch i => ?_, ?_, ?_⟩
  · rw [Accepted.readStage.exec_eq, State.reset_slot, Instr.opc]
    rfl
  · exact Accepted.readStatus.exec_eq
  · exact Accepted.getSettings.exec_eq

end Sys2Proof.Machine
end

section
/-! The decoder and the encoder agree (R91 to R101, R110): the words of a command read back as that command, and a command
read was the one whose words stood there. -/

namespace Sys2Proof.Laws

/-! ## From a command to its words and back -/

/-- The header and the payload of a well-formed command decode to it, on its own port. -/
theorem decodeCommand_encode {i : Instr} (hi : i.WellFormed) (rest : List Word) :
    decodeCommand i.port (encodeHeader i) (encodePayload i ++ rest) = some (i, rest) := by
  unfold decodeCommand
  rw [opcodeOf_encodeHeader]
  cases i with
  | release | readStatus | getSettings | reserved0 | reserved6 | reserved7 | reservedA | reservedB | reservedC | reservedD
  | reservedE | reservedF =>
    simp only [Instr.opc, encodeHeader, low_of_append]
    rfl
  | prepare p r m f =>
    simp only [Instr.opc, encodeHeader, reserved_of_count, count_of_append]
    rfl
  | processBlock p r fs =>
    have hN : (BitVec.ofNat 16 fs.length).toNat = fs.length :=
      Nat.mod_eq_of_lt (Nat.lt_succ_of_le hi)
    simp only [Instr.opc, encodeHeader, reserved_of_count, count_of_append, encodePayload]
    show (takeFrames _ _).map _ = _
    rw [hN, takeFrames_frameWords]
    rfl
  | readStage p r ch idx =>
    obtain ⟨hr, hc, hx⟩ := stage_fields 0x4#4 r ch.bit (BitVec.ofFin idx)
    simp only [Instr.opc, encodeHeader, hr, hc, hx, Channel.ofBit_bit]
    rfl
  | setSettings p r fam ty slope c =>
    obtain ⟨hr, hf, ht, hs⟩ := settings_fields 0x8#4 r fam.bit ty.bit slope
    simp only [Instr.opc, encodeHeader, hr, hf, ht, hs, Family.ofBit_bit, FilterType.ofBit_bit]
    rfl

/-- Settles O1: the header's fields read as they were written, by cases on the command. -/
theorem decodeOfEncode : Obligations.DecodeOfEncode := by
  intro i rest hi
  rw [encode, List.cons_append, decode, decodeCommand_encode hi]

/-! ## From words to a command and back -/

/-- A command read from a header and the words after it carries that port, fits its encoding, and has that header and the
words consumed as its own. -/
theorem eq_encode_of_decodeCommand {p : Port} {h : Word} {ws rest : List Word} {i : Instr}
    (hd : decodeCommand p h ws = some (i, rest)) :
    i.port = p ∧ i.WellFormed ∧ encodeHeader i = h ∧ ws = encodePayload i ++ rest := by
  unfold decodeCommand at hd
  split at hd
  case h_2 e =>
    split at hd
    · cases hd
      exact ⟨rfl, Nat.zero_le _, count_words e, rfl⟩
    · cases hd
  case h_3 e =>
    obtain ⟨⟨fs, ws'⟩, hf, hq⟩ := Option.map_eq_some_iff.mp hd
    cases hq
    obtain ⟨hlen, rfl⟩ := takeFrames_eq hf
    have hN : BitVec.ofNat 16 fs.length = countField h := by rw [hlen, BitVec.ofNat_toNat, BitVec.setWidth_eq]
    have hlt := (countField h).isLt
    refine ⟨rfl, ?_, ?_, rfl⟩
    · show fs.length ≤ 65535
      omega
    · rw [encodeHeader, hN]
      exact count_words e
  case h_5 e =>
    cases hd
    refine ⟨rfl, Nat.zero_le _, ?_, rfl⟩
    rw [encodeHeader, Channel.bit_ofBit]
    exact stage_words e
  case h_9 e =>
    split at hd
    · cases hd
      refine ⟨rfl, Nat.zero_le _, ?_, rfl⟩
      rw [encodeHeader, Family.bit_ofBit, FilterType.bit_ofBit]
      exact settings_words e
    · cases hd
  case h_16 =>
    have hlt := opcodeOf_lt h
    have e : opcodeOf h = 15 := by
      simp only [imp_false] at *
      omega
    cases hd
    exact ⟨rfl, Nat.zero_le _, low_words e, rfl⟩
  all_goals
    next e =>
      cases hd
      exact ⟨rfl, Nat.zero_le _, low_words e, rfl⟩

/-- Settles O2: every field of the header is an operand of the command read, and the words taken are its payload. -/
theorem encodeOfDecode : Obligations.EncodeOfDecode := by
  intro p ws i rest hd
  unfold decode at hd
  cases ws with
  | nil => cases hd
  | cons h ws =>
    cases hc : decodeCommand p h ws with
    | none => simp [hc] at hd
    | some r =>
      simp only [hc, Except.ok.injEq] at hd
      subst hd
      obtain ⟨hp, hwf, rfl, rfl⟩ := eq_encode_of_decodeCommand hc
      exact ⟨hp, hwf, rfl⟩

/-! ## An incomplete command -/

/-- Where payload words are missing no command is read (R313). -/
theorem decodeCommand_of_missing (p : Port) {h : Word} {ws : List Word} (hl : ws.length < payloadLength h) :
    decodeCommand p h ws = none := by
  unfold payloadLength at hl
  split at hl
  next e =>
    obtain rfl := List.length_eq_zero_iff.mp (Nat.lt_one_iff.mp hl)
    simp only [decodeCommand, e]
  next e => simp only [decodeCommand, e, takeFrames_none hl, Option.map_none]
  next e =>
    obtain rfl := List.length_eq_zero_iff.mp (Nat.lt_one_iff.mp hl)
    simp only [decodeCommand, e]
  next => exact absurd hl (Nat.not_lt_zero _)

/-- Settles O4: only the three opcodes with a payload can miss words, and each then reads nothing. -/
theorem incompleteCommandIsNotRead : Obligations.IncompleteCommandIsNotRead := by
  intro p h ws hl
  rw [decode, decodeCommand_of_missing p hl, commandLength]

/-! ## Byte links -/

/-- The bytes of a word put together from bytes are those bytes, the least significant first (R79). -/
theorem bytesOfWord_append (b0 b1 b2 b3 : Byte) : bytesOfWord (b3 ++ b2 ++ b1 ++ b0) = [b0, b1, b2, b3] := by
  have e0 : (b3 ++ b2 ++ b1 ++ b0).extractLsb' 0 8 = b0 := extract_bottom _ _
  have e1 : (b3 ++ b2 ++ b1 ++ b0).extractLsb' 8 8 = b1 := (extract_above _ b0 0 8).trans (extract_bottom _ _)
  have e2 : (b3 ++ b2 ++ b1 ++ b0).extractLsb' 16 8 = b2 :=
    (extract_above _ b0 8 8).trans ((extract_above _ b1 0 8).trans (extract_bottom _ _))
  have e3 : (b3 ++ b2 ++ b1 ++ b0).extractLsb' 24 8 = b3 :=
    (extract_above _ b0 16 8).trans ((extract_above _ b1 8 8).trans (extract_top _ _))
  rw [bytesOfWord, e0, e1, e2, e3]

/-- A word is its four bytes put together. -/
theorem append_bytes (w : Word) :
    w.extractLsb' 24 8 ++ w.extractLsb' 16 8 ++ w.extractLsb' 8 8 ++ w.extractLsb' 0 8 = w := by
  have e1 := append_extract (a := 8) (b := 8) w 16
  have e2 := append_extract (a := 16) (b := 8) w 8
  have e3 := append_extract (a := 24) (b := 8) w 0
  exact (congrArg (fun x => x ++ w.extractLsb' 8 8 ++ w.extractLsb' 0 8) e1).trans
    ((congrArg (· ++ w.extractLsb' 0 8) e2).trans (e3.trans (extract_all w)))

/-- The bytes of a word at the front of a link arrive as that word. -/
theorem wordsOfBytes_bytesOfWord (w : Word) (bs : List Byte) :
    wordsOfBytes (bytesOfWord w ++ bs) = (w :: (wordsOfBytes bs).1, (wordsOfBytes bs).2) := by
  simp only [bytesOfWord, List.cons_append, List.nil_append, wordsOfBytes, append_bytes]

/-- Fewer than four bytes are no word (R80). -/
theorem wordsOfBytes_partial {bs : List Byte} (h : bs.length < 4) : wordsOfBytes bs = ([], bs) := by
  match bs, h with
  | [], _ | [_], _ | [_, _], _ | [_, _, _], _ => rfl
  | _ :: _ :: _ :: _ :: _, h => simp at h; omega

theorem wordsOfBytes_flatMap (ws : List Word) {tail : List Byte} (h : tail.length < 4) :
    wordsOfBytes (ws.flatMap bytesOfWord ++ tail) = (ws, tail) := by
  induction ws with
  | nil => exact wordsOfBytes_partial h
  | cons w ws ih => rw [List.flatMap_cons, List.append_assoc, wordsOfBytes_bytesOfWord, ih]

/-- Settles O8, by induction on the words sent. -/
theorem byteLinkDeliversWords : Obligations.ByteLinkDeliversWords :=
  ⟨fun b0 b1 b2 b3 => ⟨bytesOfWord_append b0 b1 b2 b3, rfl⟩, by decide, fun ws _ h => wordsOfBytes_flatMap ws h⟩

/-! ## Header words -/

/-- Settles O6, by running the decoder on each word. -/
theorem headerWordsDecode : Obligations.HeaderWordsDecode := by
  unfold Obligations.HeaderWordsDecode
  and_intros <;> decide

end Sys2Proof.Laws
end

section
/-! The assembler's field checks (R112, R113). -/

namespace Sys2Proof.Machine

/-- A check that lets a value through found its condition met. -/
theorem ok_of_ite {α ε : Type} {c : Prop} [Decidable c] {a b : α} {e : ε}
    (h : (if c then Except.ok a else Except.error e) = Except.ok b) : c ∧ b = a := by
  split at h
  next hc => exact ⟨hc, (Except.ok.inj h).symm⟩
  next => cases h

/-- What the assembler makes of a line it accepts is legal, with reserved bits 0, and fits its encoding. -/
theorem AsmLine.command_legal {l : AsmLine} {i : Instr} (h : l.command = .ok i) : i.Legal ∧ i.WellFormed := by
  cases l with
  | setSettings | prepare | readStage =>
    obtain ⟨-, rfl⟩ := ok_of_ite h
    exact ⟨⟨rfl, rfl⟩, Nat.zero_le _⟩
  | processBlock fs =>
    obtain ⟨hl, rfl⟩ := ok_of_ite h
    exact ⟨⟨rfl, rfl⟩, (List.length_map _).trans_le hl⟩
  | getSettings | release | readStatus =>
    cases h
    exact ⟨⟨rfl, rfl⟩, Nat.zero_le _⟩

/-- Settles O7: each line's check is on its own field, and a field in range is encoded as it stands. -/
theorem assemblerNeverClamps : Obligations.AssemblerNeverClamps := by
  refine ⟨fun _ _ => AsmLine.command_legal, fun _ _ _ _ => rfl, fun _ _ => rfl, fun fs h => ?_, fun ch idx h => ?_⟩
  · rw [AsmLine.command, if_neg (Nat.not_le.mpr h)]
  · rw [AsmLine.command, if_neg (by omega)]

end Sys2Proof.Machine
end

section
/-! What every command leaves: its own response, and before that either nothing or the effect of an accepted command. From
it the frames of the commands (R102, R171, R226, R270, R280), and their answers (R103 to R105). -/

namespace Sys2Proof.Machine

/-! ## The effect of a command -/

/-- A command sends its response after its effect: none when it is rejected. -/
theorem exec_effect {i : Instr} {s t : State} (h : exec i s = .next t) :
    ∃ (v : State) (ws : List Word), t = v.respond i.port ws ∧
      (v = s ∨ ∃ (u : UpdateCode) (payload : List Word), Accepted i s v u payload) := by
  rcases exec_cases i s with ⟨r, -, hr⟩ | ⟨v, u, payload, ha, hr⟩ <;> cases hr.symm.trans h
  · exact ⟨s, _, State.answered_eq_respond .., .inl rfl⟩
  · exact ⟨v, _, rfl, .inr ⟨u, payload, ha⟩⟩

section
variable {i : Instr} {s t : State} {u : UpdateCode} {payload : List Word}

theorem Accepted.inputs_eq (ha : Accepted i s t u payload) :
    t.ctlIn = s.ctlIn ∧ t.strIn = s.strIn ∧ t.turns = s.turns := by
  cases ha with
  | prepare | processBlock =>
    simp only [update_ctlIn, update_strIn, update_turns, State.clearDelay_ctlIn, State.clearDelay_strIn,
      State.clearDelay_turns, and_self]
  | release | readStage | readStatus | setSettings | getSettings => exact ⟨rfl, rfl, rfl⟩

/-- Only PREPARE writes FS and MAXBLK (R42, R43). -/
theorem Accepted.fs_maxblk_eq (ha : Accepted i s t u payload) (hi : i.opc ≠ 0x1) : t.fs = s.fs ∧ t.maxblk = s.maxblk := by
  cases ha with
  | prepare => exact absurd rfl hi
  | processBlock => exact ⟨update_fs .., update_maxblk ..⟩
  | release | readStage | readStatus | setSettings | getSettings => exact ⟨rfl, rfl⟩

/-- Only PREPARE and PROCESS_BLOCK write the slots and LASTUPD (R39, R171). -/
theorem Accepted.slots_eq (ha : Accepted i s t u payload) (h1 : i.opc ≠ 0x1) (h2 : i.opc ≠ 0x2) :
    t.left = s.left ∧ t.right = s.right ∧ t.lastupd = s.lastupd ∧ t.fresh = s.fresh := by
  cases ha with
  | prepare => exact absurd rfl h1
  | processBlock => exact absurd rfl h2
  | release | readStage | readStatus | setSettings | getSettings => exact ⟨rfl, rfl, rfl, rfl⟩

/-- LIFECYCLE is left as it is by all but its three writers (R226). -/
theorem Accepted.lifecycle_eq (ha : Accepted i s t u payload) (h1 : i.opc ≠ 0x1) (h2 : i.opc ≠ 0x2) (h3 : i.opc ≠ 0x3) :
    t.lifecycle = s.lifecycle := by
  cases ha with
  | prepare => exact absurd rfl h1
  | processBlock => exact absurd rfl h2
  | release => exact absurd rfl h3
  | readStage | readStatus | setSettings | getSettings => rfl

/-- On the control port only SETTINGS is written (R280). -/
theorem Accepted.control_frame (ha : Accepted i s t u payload) (hp : i.port = .control) :
    t = { s with settings := t.settings } := by
  cases ha with
  | prepare | processBlock | release | readStage | readStatus => cases hp
  | setSettings | getSettings => rfl

/-- On the stream port SETTINGS is not written (R280). -/
theorem Accepted.stream_settings (ha : Accepted i s t u payload) (hp : i.port = .stream) : t.settings = s.settings := by
  cases ha with
  | prepare | processBlock => exact update_settings ..
  | release | readStage | readStatus => rfl
  | setSettings | getSettings => cases hp

/-- UPD is NONE of a command that runs no update (R105). -/
theorem Accepted.code_of_noUpdate (ha : Accepted i s t u payload) (h1 : i.opc ≠ 0x1) (h2 : i.opc ≠ 0x2) :
    u = .noUpdate := by
  cases ha with
  | prepare => exact absurd rfl h1
  | processBlock => exact absurd rfl h2
  | release | readStage | readStatus | setSettings | getSettings => rfl

/-- UPD is what LASTUPD holds after a command that runs an update (R105). -/
theorem Accepted.code_of_update (ha : Accepted i s t u payload) (hi : i.opc = 0x1 ∨ i.opc = 0x2) :
    t.lastupd = u ∧ u ≠ .noUpdate := by
  cases ha with
  | prepare | processBlock => exact ⟨update_lastupd .., update_code_ne _ _⟩
  | release | readStage | readStatus | setSettings | getSettings => exact absurd hi (by simp [Instr.opc])

end

/-! ## Frames -/

theorem exec_inputs {i : Instr} {s t : State} (h : exec i s = .next t) :
    t.ctlIn = s.ctlIn ∧ t.strIn = s.strIn ∧ t.turns = s.turns := by
  obtain ⟨v, ws, rfl, rfl | ⟨u, payload, ha⟩⟩ := exec_effect h
  · exact ⟨State.respond_ctlIn .., State.respond_strIn .., State.respond_turns ..⟩
  · simpa only [State.respond_ctlIn, State.respond_strIn, State.respond_turns] using ha.inputs_eq

/-- Settles O57: what is accepted writes only its own elements, and a response writes none. -/
theorem onlyPrepareAndBlocksWrite : Obligations.OnlyPrepareAndBlocksWrite := by
  intro i s t h
  refine ⟨fun h1 => ?_, fun h1 h2 => ?_, exec_inputs h⟩ <;>
    obtain ⟨v, ws, rfl, rfl | ⟨u, payload, ha⟩⟩ := exec_effect h
  · exact ⟨State.respond_fs .., State.respond_maxblk ..⟩
  · simpa only [State.respond_fs, State.respond_maxblk] using ha.fs_maxblk_eq h1
  · exact ⟨State.respond_left .., State.respond_right .., State.respond_lastupd .., State.respond_fresh ..⟩
  · simpa only [State.respond_left, State.respond_right, State.respond_lastupd, State.respond_fresh] using ha.slots_eq h1 h2

theorem exec_lifecycle {i : Instr} {s t : State} (h : exec i s = .next t) (h1 : i.opc ≠ 0x1) (h2 : i.opc ≠ 0x2)
    (h3 : i.opc ≠ 0x3) : t.lifecycle = s.lifecycle := by
  obtain ⟨v, ws, rfl, rfl | ⟨u, payload, ha⟩⟩ := exec_effect h
  · exact State.respond_lifecycle ..
  · exact (State.respond_lifecycle ..).trans (ha.lifecycle_eq h1 h2 h3)

/-- Settles O56: the accepted commands of a port write on their own side, and the response goes to that port. -/
theorem portsAreSplit : Obligations.PortsAreSplit := by
  intro i s t h
  obtain ⟨v, ws, rfl, hv⟩ := exec_effect h
  refine ⟨fun hp => ?_, fun hp => ?_⟩ <;> rw [hp]
  · have hs : v = { s with settings := v.settings } := by
      rcases hv with rfl | ⟨u, payload, ha⟩
      · rfl
      · exact ha.control_frame hp
    rw [hs]
    rfl
  · rcases hv with rfl | ⟨u, payload, ha⟩
    · exact ⟨rfl, rfl⟩
    · exact ⟨ha.stream_settings hp, ha.output_eq .control⟩

/-! ## Answers -/

theorem ResultCode.code_eq_zero {r : ResultCode} : r.code = 0 ↔ r = .okay := by cases r <;> decide

theorem State.answered_output (s : State) (p : Port) (w : Word) : (s.answered p w).output p = s.output p ++ [w] := by
  rw [State.answered_eq_respond, State.respond_output]

/-- The codes UPD can name after an update (R105). -/
theorem UpdateCode.code_of_ne {u : UpdateCode} (h : u ≠ .noUpdate) :
    u = .installed ∧ u.code = 1 ∨ u = .rejectedInvalidParameter ∧ u.code = 2 ∨
    u = .rejectedNumericInstability ∧ u.code = 3 := by
  cases u with
  | noUpdate => exact absurd rfl h
  | installed => exact .inl ⟨rfl, rfl⟩
  | rejectedInvalidParameter => exact .inr (.inl ⟨rfl, rfl⟩)
  | rejectedNumericInstability => exact .inr (.inr ⟨rfl, rfl⟩)

/-- Settles O53: a rejection's status word has UPD NONE and no payload, an accepted command's has the code of the update it
ran, which LASTUPD then holds. -/
theorem everyCommandAnswers : Obligations.EveryCommandAnswers := by
  intro i s
  rcases exec_cases i s with ⟨r, hr, h⟩ | ⟨v, u, payload, ha, h⟩
  · obtain ⟨hopc, hhigh, hlow, hupd, hres⟩ := statusWord_fields i.opc .noUpdate r
    have hne : (statusWord i.opc .noUpdate r).extractLsb' 0 2 ≠ 0 := by
      rw [hres]
      exact fun h0 => hr (ResultCode.code_eq_zero.mp h0)
    refine ⟨_, _, [], h, State.answered_output .., fun q hq => ?_, hopc, hhigh, hlow, fun _ => ⟨rfl, hupd⟩,
      fun h0 => absurd h0 hne, fun h0 => absurd h0 hne⟩
    rw [State.answered_eq_respond, State.respond_output_other s hq]
  · obtain ⟨hopc, hhigh, hlow, hupd, hres⟩ := statusWord_fields i.opc u .okay
    refine ⟨_, _, payload, h, ?_, fun q hq => ?_, hopc, hhigh, hlow, fun h0 => absurd hres h0,
      fun _ h1 h2 => ?_, fun _ hi => ?_⟩
    · rw [State.respond_output, ha.output_eq]
    · rw [State.respond_output_other v hq, ha.output_eq]
    · rw [hupd, ha.code_of_noUpdate h1 h2]
      rfl
    · obtain ⟨hlast, hcode⟩ := ha.code_of_update hi
      rw [hupd, State.respond_lastupd, hlast]
      exact UpdateCode.code_of_ne hcode

/-- Settles O54: the first word answered is the status word, and only a rejection's has a RESULT other than OK. -/
theorem rejectionChangesNothing : Obligations.RejectionChangesNothing := by
  intro i s t st payload h hout hst
  rcases exec_cases i s with ⟨r, -, hr⟩ | ⟨v, u, payload', ha, hr⟩ <;> cases hr.symm.trans h
  · rw [State.answered_output, List.append_cancel_left_eq] at hout
    obtain ⟨rfl, -⟩ := List.cons.inj hout
    rfl
  · rw [State.respond_output, ha.output_eq, List.append_cancel_left_eq] at hout
    obtain ⟨rfl, -⟩ := List.cons.inj hout
    obtain ⟨-, -, -, -, hres⟩ := statusWord_fields i.opc u .okay
    exact absurd hres hst

/-! ## Readbacks -/

/-- A readback leaves its response and nothing else (R256). -/
theorem exec_readback {r : Instr} {s t : State} (hr : Readback r) (h : exec r s = .next t) :
    ∃ ws : List Word, t = s.respond r.port ws := by
  obtain ⟨v, ws, rfl, rfl | ⟨u, payload, ha⟩⟩ := exec_effect h
  · exact ⟨ws, rfl⟩
  · cases ha with
    | readStage | readStatus | getSettings => exact ⟨ws, rfl⟩
    | prepare | processBlock | release | setSettings => exact hr.elim

/-- What a response adds to a port's output is the same in every state. -/
theorem State.respond_output_append (p q : Port) (ws : List Word) :
    ∃ more : List Word, ∀ s : State, (s.respond p ws).output q = s.output q ++ more := by
  by_cases hq : q = p
  · subst hq
    exact ⟨ws, fun s => s.respond_output q ws⟩
  · exact ⟨[], fun s => by rw [s.respond_output_other hq, List.append_nil]⟩

/-- Settles O58: a readback only sends words, and the words already sent are no input of a command. -/
theorem readbacksAreInvisible : Obligations.ReadbacksAreInvisible := by
  intro r i s t u hr ht hu
  obtain ⟨ws, rfl⟩ := exec_readback hr ht
  obtain ⟨v, answer, hv, hsame, hafter⟩ := exec_respond i s
  cases hv.symm.trans hu
  refine ⟨_, hafter r.port ws, by cases r.port <;> cases i.port <;> rfl, fun p => ?_⟩
  obtain ⟨a, ha⟩ := State.respond_output_append i.port p answer
  obtain ⟨b, hb⟩ := State.respond_output_append r.port p ws
  exact ⟨a, by rw [ha, hsame], by rw [ha, hb, hb, hsame]⟩

end Sys2Proof.Machine
end

section
/-! What PREPARE, PROCESS_BLOCK, RELEASE and SET_SETTINGS complete with (R200, R220, R225, R240), when they are rejected
(R100, R204), and what LIFECYCLE is after each command (R226). -/

namespace Sys2Proof.Machine

/-! ## PREPARE -/

/-- Clearing acts slot by slot in both chains (R220). -/
theorem State.clearDelay_slot (s : State) (ch : Channel) (i : Fin 4) :
    (s.clearDelay.chain ch).get i = ((s.chain ch).get i).clear := by
  cases ch <;> exact Chain.clear_get _ i

/-- Settles O41: the update keeps the cleared delay registers, and writes the chains and LASTUPD alone. -/
theorem prepareCompletes : Obligations.PrepareCompletes := by
  intro m f s hfin hpos hm
  have hf : fsValid f = true := (fsValid_iff f).mpr ⟨hfin, hpos⟩
  refine ⟨_, (Accepted.prepare hf hm).exec_eq, fun ch i => ?_, ?_⟩
  · obtain ⟨h1, h2⟩ := update_delay machineConfig ({ s with fs := f, maxblk := m }.clearDelay) ch i
    rw [State.clearDelay_slot] at h1 h2
    cases ch <;> exact ⟨h1, h2⟩
  · rw [update_frame]
    rfl

theorem Stage.clear_install (st : Stage) (o : Option Coefs) : (st.install o).clear = st.clear.install o := by
  cases o <;> rfl

theorem Chain.clear_install (c : Chain) (secs : List Coefs) : (c.install secs).clear = c.clear.install secs :=
  Chain.ext_get fun i => by simp only [Chain.clear_get, Chain.install_get, Stage.clear_install]

/-- In a state whose chains an update left over cleared delay registers, clearing them again and updating again at the same
SETTINGS and FS changes no chain and decides as before (R81, R169). -/
theorem update_clearDelay_again (cfg : Config) {s t : State} (hl : t.left = (update cfg s.clearDelay).1.left)
    (hr : t.right = (update cfg s.clearDelay).1.right) (hset : t.settings = s.settings) (hfs : t.fs = s.fs) :
    (update cfg t.clearDelay).1.left = t.left ∧ (update cfg t.clearDelay).1.right = t.right ∧
    (update cfg t.clearDelay).2 = (update cfg s.clearDelay).2 := by
  have hsame : designOutcome cfg t.clearDelay.settings t.clearDelay.fs =
      designOutcome cfg s.clearDelay.settings s.clearDelay.fs := by
    simp only [State.clearDelay_settings, State.clearDelay_fs, hset, hfs]
  rcases update_cases cfg s.clearDelay with ⟨secs, hok, hu⟩ | ⟨u, -, herr, hu⟩ <;> rw [hu] at hl hr ⊢
  · have hagain (c : Chain) : ((c.clear.install secs).clear.install secs) = c.clear.install secs := by
      rw [Chain.clear_install, Chain.install_install]
      rfl
    rw [update_ok (hsame.trans hok)]
    refine ⟨?_, ?_, rfl⟩
    · show t.left.clear.install secs = t.left
      rw [hl]
      exact hagain s.left
    · show t.right.clear.install secs = t.right
      rw [hr]
      exact hagain s.right
  · rw [update_error (hsame.trans herr)]
    refine ⟨?_, ?_, rfl⟩
    · show t.left.clear = t.left
      rw [hl]
      rfl
    · show t.right.clear = t.right
      rw [hr]
      rfl

/-- Settles O59: after a rejected PREPARE the second is rejected too, and after an accepted one it finds the delay registers
cleared and the design installed. -/
theorem prepareIsIdempotent : Obligations.PrepareIsIdempotent := by
  intro m f s t u ht hu
  by_cases h : fsValid f = true ∧ m ≠ 0
  · obtain ⟨hfin, hpos⟩ := (fsValid_iff f).mp h.1
    obtain ⟨t', ht', -, hteq⟩ := prepareCompletes m f s hfin hpos h.2
    obtain ⟨u', hu', -, hueq⟩ := prepareCompletes m f t hfin hpos h.2
    cases ht'.symm.trans ht
    cases hu'.symm.trans hu
    obtain ⟨hl, hr, hcode⟩ := update_clearDelay_again machineConfig (s := { s with fs := f, maxblk := m })
      (t := { t with fs := f, maxblk := m }) (by rw [hteq]) (by rw [hteq]) (by rw [hteq]) rfl
    rw [hueq]
    simp only [hl, hr, hcode]
    rw [hteq]
  · cases (exec_prepare_of_invalid h s).symm.trans ht
    cases (exec_prepare_of_invalid h _).symm.trans hu
    rfl

/-! ## PROCESS_BLOCK -/

/-- Settles O43: the update leaves all but the chains and LASTUPD, and the frames are passed from there. -/
theorem processBlockCompletes : Obligations.ProcessBlockCompletes := by
  intro frames s hlife hlen u o
  rw [(Accepted.processBlock hlife hlen rfl).exec_eq, update_frame]
  rfl

/-- Settles O44: the check comes before the update, and its status word is 0x20000002. -/
theorem processBlockRejects : Obligations.ProcessBlockRejects := by
  intro frames s h
  have hword : statusWord 0x2 .noUpdate .hostProtocolError = 0x20000002 := by decide
  simp only [exec, execProcessBlock, processBlockWith]
  rw [if_neg (by decide), if_pos h, reject_eq, hword, State.answered]

/-! ## RELEASE and SET_SETTINGS -/

/-- Settles O46: RELEASE is accepted in every state. -/
theorem releaseStops : Obligations.ReleaseStops := fun _ => Accepted.release.exec_eq

/-- Settles O49: SET_SETTINGS is accepted in every state, whatever its fields. -/
theorem setSettingsStores : Obligations.SetSettingsStores := by
  intro fam ty slope cutoff s
  rw [Accepted.setSettings.exec_eq, Instr.opc]
  rfl

/-! ## Reserved opcodes -/

/-- An opcode with no home port is illegal on both, and its status word is the OPC with RESULT 3. -/
theorem exec_of_noHome {i : Instr} (hi : i.homePort = none) {w : Word} (hw : i.opc ++ 0x0000003#28 = w) (s : State) :
    exec i s = .next (s.answered i.port w) := by
  rw [← hw, illegalCommandsRejected i s (.inl (by rw [hi]; exact nofun))]

/-- Settles O51: none of the nine has a home port. -/
theorem reservedOpcodesRejected : Obligations.ReservedOpcodesRejected := by
  intro p low s
  and_intros <;> exact exec_of_noHome rfl (by rw [Instr.opc]; rfl) s

/-! ## LIFECYCLE -/

theorem State.answered_lifecycle (s : State) (p : Port) (w : Word) : (s.answered p w).lifecycle = s.lifecycle := by
  rw [State.answered_eq_respond, State.respond_lifecycle]

theorem exec_lifecycle_of_illegal {i : Instr} {s t : State} (h : exec i s = .next t) (hi : ¬ i.Legal) :
    t.lifecycle = s.lifecycle := by
  have hill : i.homePort ≠ some i.port ∨ i.reservedClear = false := by
    rwa [Instr.Legal, not_and_or, Bool.not_eq_true] at hi
  cases (illegalCommandsRejected i s hill).symm.trans h
  exact State.answered_lifecycle ..

/-- Legal means: on the home port, with the reserved bits 0 (R271). -/
theorem eq_of_legal {home p : Port} {w : Nat} {r : BitVec w} (h : some home = some p ∧ (r == 0) = true) :
    home = p ∧ r = 0 :=
  ⟨Option.some.inj h.1, eq_of_beq h.2⟩

/-- Settles O55: an illegal command is rejected; of the legal ones the three writers of LIFECYCLE are accepted exactly where
their check passes, and the others never write it. -/
theorem lifecycleTransitions : Obligations.LifecycleTransitions := by
  intro i s t h
  split
  next hi =>
    cases i with
    | prepare p r m f =>
      obtain ⟨rfl, rfl⟩ := eq_of_legal hi
      by_cases hop : fsValid f = true ∧ m ≠ 0
      · cases (Accepted.prepare hop.1 hop.2).exec_eq.symm.trans h
        exact (if_pos hop).symm
      · cases (exec_prepare_of_invalid hop s).symm.trans h
        exact (if_neg hop).symm
    | processBlock p r fs =>
      obtain ⟨rfl, rfl⟩ := eq_of_legal hi
      by_cases hop : s.lifecycle ≠ .stopped ∧ fs.length ≤ s.maxblk.toNat
      · cases (Accepted.processBlock hop.1 hop.2 rfl).exec_eq.symm.trans h
        exact (if_pos hop).symm
      · have hrej : s.lifecycle = .stopped ∨ s.maxblk.toNat < fs.length := by
          rwa [not_and_or, not_not, not_le] at hop
        cases (processBlockRejects fs s hrej).symm.trans h
        exact (if_neg hop).symm
    | release p r =>
      obtain ⟨rfl, rfl⟩ := eq_of_legal hi
      cases (Accepted.release.exec_eq).symm.trans h
      rfl
    | readStage | readStatus | setSettings | getSettings | reserved0 | reserved6 | reserved7 | reservedA | reservedB
    | reservedC | reservedD | reservedE | reservedF => 
      exact exec_lifecycle h (by simp [Instr.opc]) (by simp [Instr.opc]) (by simp [Instr.opc])
  next hi => exact exec_lifecycle_of_illegal h hi

end Sys2Proof.Machine
end

section
/-! Steps: which command a step runs (R33, R74, R312, R313), and what it does to the words waiting. -/

namespace Sys2Proof.Machine

open Sys2Proof.Laws

/-! ## The command run -/

theorem step_of_nextCommand {s v : State} {i : Instr} (h : nextCommand s = some (i, v)) : step s = exec i v := by
  rw [step, h]

/-- Settles O9: the next command is the only complete one, or that of the port whose turn it is. -/
theorem stepRunsTheDecodedCommand : Obligations.StepRunsTheDecodedCommand := by
  intro s p i rest hd
  refine ⟨fun halone => step_of_nextCommand (nextCommand_alone hd halone), fun ts hts => ?_⟩
  have htail : s.turns.tail = ts := by rw [hts, List.tail_cons]
  rw [step_of_nextCommand (nextCommand_turn hd hts), State.consume, htail]

/-- Settles O10: with no complete command there is no next command. -/
theorem stepWaitsForWords : Obligations.StepWaitsForWords := by
  intro s h
  rw [step, nextCommand_none.mpr h]

/-- Settles O11: with its turn first in the list, the port is served whatever the other holds. -/
theorem eitherPortCanBeNext : Obligations.EitherPortCanBeNext := by
  intro s p i rest hd ts
  have hd' : decode p (({ s with turns := p :: ts } : State).input p) = .ok (i, rest) := by cases p <;> exact hd
  rw [(stepRunsTheDecodedCommand _ p i rest hd').2 ts rfl]
  cases p <;> rfl

/-! ## The words of the opcode table -/

/-- A command that takes all the words there are, as its header announces, is read from them whatever follows. -/
theorem decode_append_of_decode {p : Port} {h : Word} {ws : List Word} (hl : ws.length = payloadLength h)
    {r : Instr × List Word} (hd : decode p (h :: ws) = .ok r) (more : List Word) :
    decode p (h :: ws ++ more) = .ok (r.1, more) := by
  obtain ⟨i, hi, -, -⟩ := decodeCommand_of_payload p hl []
  have hr : decode p (h :: ws) = .ok (i, []) := by
    rw [List.append_nil] at hi
    rw [decode, hi]
  cases hr.symm.trans hd
  obtain ⟨rfl, hwf, hws⟩ := encodeOfDecode _ _ _ _ hr
  rw [hws, List.append_nil]
  exact decodeOfEncode i more hwf

/-- The words of a table entry are as many as their header announces. -/
theorem decode_tableWords {p : Port} {nbits w : Nat} {r : Instr × List Word}
    (hd : decode p (tableWords nbits w) = .ok r) (more : List Word) :
    decode p (tableWords nbits w ++ more) = .ok (r.1, more) :=
  decode_append_of_decode (by rw [List.length_map, List.length_range]) hd more

/-- Settles O13: the words placed decode to the command and leave what was waiting, and the turn placed goes with them. -/
theorem placedWordRuns : Obligations.PlacedWordRuns := by
  intro s nbits w i h
  rw [State.withFetchWord]
  rw [decodeTableWord] at h
  set p := tablePort (BitVec.ofNat 32 (w % 2 ^ nbits))
  split at h
  next r hr =>
    cases h
    have hd : decode p ((s.place p (tableWords nbits w)).input p) = .ok (r.1, s.input p) := by
      have hin : (s.place p (tableWords nbits w)).input p = tableWords nbits w ++ s.input p := by cases p <;> rfl
      rw [hin]
      exact decode_tableWords hr _
    rw [(stepRunsTheDecodedCommand _ p r.1 _ hd).2 s.turns rfl]
    cases p <;> rfl
  next => cases h

/-! ## The words waiting -/

/-- A step waits, or takes one command's words from the front of one port. -/
theorem step_consumes {s t : State} (h : step s = .next t) :
    ((∀ p, s.ready p = false) ∧ t = s) ∨ ∃ i : Instr, i.WellFormed ∧ s.input i.port = encode i ++ t.input i.port ∧
      ∀ q, q ≠ i.port → t.input q = s.input q := by
  rcases step_cases s with ⟨hnone, hw⟩ | ⟨p, i, rest, v, hd, hv, hx⟩
  · cases hw.symm.trans h
    exact .inl ⟨hnone, rfl⟩
  · obtain ⟨rfl, hwf, hin⟩ := encodeOfDecode _ _ _ _ hd
    obtain ⟨hctl, hstr, -⟩ := exec_inputs (hx.symm.trans h)
    have hsame (q : Port) : t.input q = v.input q := by cases q <;> assumption
    refine .inr ⟨i, hwf, ?_, fun q hq => ?_⟩
    · rw [hin, hsame]
      rcases hv with rfl | rfl <;> rw [State.consume_input]
    · rw [hsame]
      have hspend : s.spendTurn.input q = s.input q := by cases q <;> simp [State.input]
      rcases hv with rfl | rfl <;> rw [State.consume_input_other _ hq]
      exact hspend

/-- Settles O12: the words taken are the encoding of the command run. -/
theorem stepKeepsEachPortsOrder : Obligations.StepKeepsEachPortsOrder := by
  intro s t h
  rcases step_consumes h with ⟨-, rfl⟩ | ⟨i, hwf, hin, hother⟩
  · exact .inl ⟨rfl, rfl⟩
  · cases hp : i.port <;> rw [hp] at hin hother
    · exact .inr (.inl ⟨i, hwf, hp, hin, hother .stream (by decide)⟩)
    · exact .inr (.inr ⟨i, hwf, hp, hin, hother .control (by decide)⟩)

/-- A step always answers a next state (R277, R312). -/
theorem step_next (s : State) : ∃ t, step s = .next t := by
  rcases step_cases s with ⟨-, hw⟩ | ⟨p, i, rest, v, -, -, hx⟩
  · exact ⟨s, hw⟩
  · obtain ⟨t, ht⟩ := exec_next i v
    exact ⟨t, hx.trans ht⟩

/-- Settles O60: the step does not wait, and the command it runs takes at least its header. -/
theorem everyStepMakesProgress : Obligations.EveryStepMakesProgress := by
  intro s p hready
  obtain ⟨t, ht⟩ := step_next s
  refine ⟨t, ht, ?_⟩
  rcases step_consumes ht with ⟨hnone, -⟩ | ⟨i, -, hin, hother⟩
  · exact absurd hready (by simp [hnone p])
  · have hlen : (s.input i.port).length = (encodePayload i).length + 1 + (t.input i.port).length := by
      rw [hin, List.length_append, encode, List.length_cons]
    cases hp : i.port <;> rw [hp] at hlen hother
    · have hsame : t.strIn = s.strIn := hother .stream (by decide)
      rw [hsame]
      simp only [State.input] at hlen
      omega
    · have hsame : t.ctlIn = s.ctlIn := hother .control (by decide)
      rw [hsame]
      simp only [State.input] at hlen
      omega

end Sys2Proof.Machine
end

section
/-! The reference design: how many sections it has (R123, R130), that its enclosures hold the exact reals of the rules (R121 to
R128), and that every coefficient it returns is finite (R132). -/

namespace Sys2Proof.Laws

open Sys2Proof.Machine Sys2Proof.Spec

/-! ## The number of sections -/

theorem butterworth_length (p : Nat) (ty : FilterType) (w : Warp) (n : Nat) :
    (Machine.butterworth p ty w n).length = (n + 1) / 2 := by
  have hpairs : (butterworthPairs p ty w n).length = n / 2 := by
    rw [butterworthPairs, List.length_map, List.length_range]
  unfold Machine.butterworth
  split
  · omega
  · rw [List.length_cons]
    omega

theorem linkwitzRiley_length (p : Nat) (ty : FilterType) (w : Warp) (n : Nat) :
    (Machine.linkwitzRiley p ty w n).length = (n + 1) / 2 := by
  unfold Machine.linkwitzRiley
  simp only
  split
  · rw [List.length_append, butterworth_length]
    omega
  · rw [List.length_cons, List.length_append, List.length_tail, butterworth_length]
    omega

theorem sectionsOf_length (p : Nat) (fam : Family) (ty : FilterType) (c f : Word) (n : Nat) :
    (sectionsOf p fam ty c f n).length = (n + 1) / 2 := by
  cases fam with
  | butterworth => exact butterworth_length ..
  | linkwitzRiley => exact linkwitzRiley_length ..

/-- Settles O26: the design is the rounding of its sections, whichever precision decides, and a rounded section's a0 is 1.0. -/
theorem referenceDesignIsLawful : Obligations.ReferenceDesignIsLawful := by
  intro fam ty c f n _ _
  obtain ⟨p, hp⟩ := referenceDesign_eq fam ty c f n
  show (referenceDesign fam ty c f n).length = _ ∧ ∀ c' ∈ referenceDesign fam ty c f n, _
  rw [hp]
  refine ⟨by rw [List.length_map, sectionsOf_length], fun c' hc' => ?_⟩
  obtain ⟨s, -, rfl⟩ := List.mem_map.mp hc'
  rfl

/-! ## Enclosures and finiteness -/

/-- Settles O27: the enclosures settle on the exact sections, and so hold them at every precision. -/
theorem designEnclosesTheRules : Obligations.DesignEnclosesTheRules :=
  fun p fam ty _ _ order hv => (design_settles fam ty order hv).encl p

/-- A section of small exact coefficients rounds to finite words. -/
theorem sectionFinite_rounded {r : RealSection}
    (h : |r.b0| < 4 ∧ |r.b1| < 4 ∧ |r.b2| < 4 ∧ |r.a1| < 4 ∧ |r.a2| < 4) : sectionFinite r.rounded = true := by
  obtain ⟨h0, h1, h2, h3, h4⟩ := h
  have hone : isFinite32 0x3F800000 = true := by decide
  simp only [sectionFinite, RealSection.rounded, round32_finite h0, round32_finite h1, round32_finite h2,
    round32_finite h3, round32_finite h4, hone, Bool.and_self]

/-- Settles O30: the design is the exact sections rounded, and no exact coefficient reaches 4. -/
theorem referenceDesignIsFinite : Obligations.ReferenceDesignIsFinite := by
  intro fam ty c f order hv c' hc'
  rw [designRoundsOnce fam ty c f order hv] at hc'
  obtain ⟨r, hr, rfl⟩ := List.mem_map.mp hc'
  exact sectionFinite_rounded ((design_settles fam ty order hv).small r hr)

end Sys2Proof.Laws
end

section
/-! The update's rejection of an unstable design and what a rejection keeps (R164, R165, R172), and how many stages an accepted
one leaves active (R160). -/

namespace Sys2Proof.Machine

/-- A section that is not finite or not stable decides the outcome of valid parameters (R164, R165). -/
theorem designOutcome_of_instability (cfg : Config) {v : Settings} {f : Word} (hs : slopeValid v.slope = true)
    (hc : cutoffValid v.cutoff f = true) {c : Coefs} (hmem : c ∈ cfg.designFn v.family v.type v.cutoff f (orderOf v.slope))
    (hbad : ¬ (sectionFinite c = true ∧ sectionStable c = true)) :
    designOutcome cfg v f = .error .rejectedNumericInstability := by
  cases h : designOutcome cfg v f with
  | ok secs =>
    obtain ⟨-, -, rfl, hfin, hst⟩ := designOutcome_ok.mp h
    exact absurd ⟨List.all_eq_true.mp hfin c hmem, List.all_eq_true.mp hst c hmem⟩ hbad
  | error u =>
    rcases designOutcome_error h with rfl | rfl
    · unfold designOutcome at h
      simp only [hs, hc, Bool.not_true, Bool.false_eq_true, if_false] at h
      split at h
      · cases h
      · split at h <;> cases h
    · rfl

/-- Settles O21: with valid parameters the section named fails one of the two checks of the design. -/
theorem updateRejectsInstability : Obligations.UpdateRejectsInstability := by
  intro cfg s hslope hcutoff ⟨c, hmem, hbad⟩
  refine update_error (designOutcome_of_instability cfg ((slopeValid_iff _).mpr hslope) hcutoff hmem fun ⟨hfin, hst⟩ => ?_)
  rcases hbad with hinf | hunst
  · exact absurd hfin (by rw [hinf]; exact Bool.false_ne_true)
  · exact hunst ((sectionStable_iff c).mp hst)

/-- Settles O24: of the two things an update can do, the one that does not install writes LASTUPD alone. -/
theorem rejectedUpdateKeepsTheRest : Obligations.RejectedUpdateKeepsTheRest := by
  intro cfg s h
  rcases update_cases cfg s with ⟨secs, -, hu⟩ | ⟨u, -, -, hu⟩
  · exact absurd (by rw [hu]) h
  · rw [hu]

theorem isNone_getElem? {α : Type} (l : List α) (n : Nat) : l[n]?.isNone = decide (l.length ≤ n) := by
  rw [Bool.eq_iff_iff, Option.isNone_iff_eq_none, List.getElem?_eq_none_iff, decide_eq_true_iff]

/-- An install of at most four sections makes as many stages active, the first ones (R38, R168). -/
theorem installed_active (s : State) {secs : List Coefs} (h : secs.length ≤ 4) (u : UpdateCode) (ch : Channel) :
    (({ s.install secs with lastupd := u } : State).chain ch).active = secs.length ∧
    ∀ i : Fin 4, ((({ s.install secs with lastupd := u } : State).chain ch).get i).bypass = decide (secs.length ≤ i.val) := by
  have hbypass (i : Fin 4) :
      ((({ s.install secs with lastupd := u } : State).chain ch).get i).bypass = decide (secs.length ≤ i.val) := by
    rw [installed_slot, Stage.install_bypass, isNone_getElem?]
  exact ⟨Chain.active_of_prefix h hbypass, hbypass⟩

/-- Settles O23: the sequence installed has ceil((S + 1)/2) sections, which are at most four. -/
theorem slopeSetsActiveStages : Obligations.SlopeSetsActiveStages := by
  intro cfg s t hlaw h
  obtain ⟨secs, hok, rfl⟩ := update_eq_installed h
  obtain ⟨hs, -, hsecs, -, -⟩ := designOutcome_ok.mp hok
  have hslope := (slopeValid_iff _).mp hs
  obtain ⟨hlen, -⟩ := hlaw s.settings.family s.settings.type s.settings.cutoff s.fs (orderOf s.settings.slope)
    (Nat.le_add_left 1 _) (Nat.succ_le_succ hslope)
  rw [← hsecs, orderOf] at hlen
  refine ⟨hslope, fun ch => ?_⟩
  rw [← hlen]
  exact installed_active s (by omega) .installed ch

end Sys2Proof.Machine
end

section
/-! The invariant of the block's registers (R37, R38, R42, R43, R45, R226): the operations that write a register it speaks of
keep it, so every command, every step and every run does. -/

namespace Sys2Proof.Machine

open Sys2Proof.Laws

/-! ## The chains -/

theorem Stage.SameConfig.configured {a b : Stage} (h : a.SameConfig b) (hb : b.Configured) : a.Configured := by
  obtain ⟨hc, hbyp⟩ := h
  rwa [Stage.Configured, hc, hbyp]

/-- What the invariant says of the chains alone. -/
structure ChainsHeld (l r : Chain) : Prop where
  channels : l.SameConfig r
  activeFirst : l.ActivePrefix
  configured : ∀ i : Fin 4, (l.get i).Configured

theorem State.Inv.chainsHeld {s : State} (h : s.Inv) : ChainsHeld s.left s.right :=
  ⟨h.channels, h.activeFirst, h.configured⟩

/-- It is about the configuration alone, not about the delay registers. -/
theorem ChainsHeld.of_sameConfig {l r l' r' : Chain} (h : ChainsHeld l r) (hl : l'.SameConfig l) (hr : r'.SameConfig r) :
    ChainsHeld l' r' where
  channels := hl.trans (h.channels.trans hr.symm)
  activeFirst := by
    obtain ⟨h0, h1, h2, h3⟩ := forall_slot.mp fun i => (hl i).2
    simp only [Chain.get_zero, Chain.get_one, Chain.get_two, Chain.get_three] at h0 h1 h2 h3
    unfold Chain.ActivePrefix
    rw [h0, h1, h2, h3]
    exact h.activeFirst
  configured i := (hl i).configured (h.configured i)

/-- An install of checked sections with a0 = 1.0: the first stages are active, and every slot holds its section or the
identity (R34, R35, R168). -/
theorem ChainsHeld.of_install (l r : Chain) {secs : List Coefs}
    (h : ∀ c ∈ secs, c.a0 = f32One ∧ sectionFinite c = true ∧ sectionStable c = true) :
    ChainsHeld (l.install secs) (r.install secs) where
  channels := Chain.install_sameConfig_install l r secs
  activeFirst := by
    have hnext (n : Nat) : secs[n]?.isNone = true → secs[n + 1]?.isNone = true := by
      simp only [Option.isNone_iff_eq_none, List.getElem?_eq_none_iff]
      omega
    simp only [Chain.ActivePrefix, Chain.install, Stage.install_bypass]
    exact ⟨hnext 0, hnext 1, hnext 2⟩
  configured i := by
    rw [Chain.install_get]
    cases hi : secs[i.val]? with
    | none => rfl
    | some c => exact h c (List.mem_of_getElem? hi)

/-! ## The update -/

/-- An update of the machine keeps what the invariant says of the chains: what it installs passed the checks, and the
reference design's a0 is 1.0 (R130, R164, R165). -/
theorem ChainsHeld.of_update {s : State} (h : ChainsHeld s.left s.right) :
    ChainsHeld (update machineConfig s).1.left (update machineConfig s).1.right := by
  rcases update_cases machineConfig s with ⟨secs, hok, hu⟩ | ⟨u, -, -, hu⟩ <;> rw [hu]
  · obtain ⟨hs, -, hsecs, hfin, hst⟩ := designOutcome_ok.mp hok
    refine ChainsHeld.of_install s.left s.right fun c hc => ⟨?_, List.all_eq_true.mp hfin c hc, List.all_eq_true.mp hst c hc⟩
    obtain ⟨-, ha0⟩ := referenceDesignIsLawful s.settings.family s.settings.type s.settings.cutoff s.fs
      (orderOf s.settings.slope) (Nat.le_add_left 1 _) (Nat.succ_le_succ ((slopeValid_iff _).mp hs))
    exact ha0 c (hsecs ▸ hc)
  · exact h

theorem fs_ne_zero_of_fsValid {f : Word} (h : fsValid f = true) : f ≠ 0 := by
  rintro rfl
  exact absurd h (by decide)

/-- After an update at a valid FS and a MAXBLK that is not 0 the whole invariant holds, in every lifecycle state. -/
theorem State.Inv.of_updated {t : State} (hch : ChainsHeld t.left t.right) (hfs : fsValid t.fs = true) (hm : t.maxblk ≠ 0)
    (hu : t.lastupd ≠ .noUpdate) : t.Inv where
  channels := hch.channels
  activeFirst := hch.activeFirst
  configured := hch.configured
  fsHeld := .inr hfs
  maxblkHeld := iff_of_false (fs_ne_zero_of_fsValid hfs) hm
  prepared _ := fs_ne_zero_of_fsValid hfs
  lastupdHeld := iff_of_false hu (fs_ne_zero_of_fsValid hfs)
  bypassedFirst h := absurd h hu

/-! ## Commands, steps and runs -/

/-- The invariant speaks of the chains, FS, MAXBLK, LIFECYCLE and LASTUPD alone. -/
theorem State.Inv.congr {s t : State} (h : s.Inv) (hsame : t.left = s.left ∧ t.right = s.right ∧ t.fs = s.fs ∧
    t.maxblk = s.maxblk ∧ t.lifecycle = s.lifecycle ∧ t.lastupd = s.lastupd) : t.Inv := by
  obtain ⟨hl, hr, hfs, hm, hlife, hu⟩ := hsame
  exact
    { channels := by rw [hl, hr]; exact h.channels
      activeFirst := by rw [hl]; exact h.activeFirst
      configured := by rw [hl]; exact h.configured
      fsHeld := by rw [hfs]; exact h.fsHeld
      maxblkHeld := by rw [hfs, hm]; exact h.maxblkHeld
      prepared := by rw [hlife, hfs]; exact h.prepared
      lastupdHeld := by rw [hu, hfs]; exact h.lastupdHeld
      bypassedFirst := by rw [hu, hl]; exact h.bypassedFirst }

theorem State.Inv.respond {s : State} (h : s.Inv) (p : Port) (ws : List Word) : (s.respond p ws).Inv :=
  h.congr (by simp)

/-- A block that is not stopped has a valid FS and a MAXBLK that is not 0. -/
theorem State.Inv.fsValid_of_ne_stopped {s : State} (h : s.Inv) (hs : s.lifecycle ≠ .stopped) :
    fsValid s.fs = true ∧ s.maxblk ≠ 0 :=
  ⟨h.fsHeld.resolve_left (h.prepared hs), fun hm => h.prepared hs (h.maxblkHeld.mpr hm)⟩

theorem Accepted.keeps_inv {i : Instr} {s t : State} {u : UpdateCode} {payload : List Word}
    (ha : Accepted i s t u payload) (h : s.Inv) : t.Inv := by
  cases ha with
  | @prepare m f _ hf hm =>
    have hcleared : ChainsHeld s.left.clear s.right.clear :=
      h.chainsHeld.of_sameConfig (Chain.clear_sameConfig _) (Chain.clear_sameConfig _)
    refine State.Inv.of_updated
      (ChainsHeld.of_update (s := ({ s with fs := f, maxblk := m } : State).clearDelay) hcleared) ?_ ?_ ?_
    · simpa using hf
    · simpa using hm
    · exact (update_lastupd machineConfig _).trans_ne (update_code_ne machineConfig _)
  | @processBlock frames _ o hs _ ho =>
    subst ho
    obtain ⟨hfs, hm⟩ := h.fsValid_of_ne_stopped hs
    obtain ⟨hl, hr⟩ := passFrames_sameConfig machineConfig frames (update machineConfig s).1.left
      (update machineConfig s).1.right s.fresh
    refine State.Inv.of_updated (h.chainsHeld.of_update.of_sameConfig hl hr) ?_ ?_ ?_
    · simpa using hfs
    · simpa using hm
    · exact (update_lastupd machineConfig s).trans_ne (update_code_ne machineConfig s)
  | release =>
    exact { h with prepared := fun hs => absurd rfl hs }
  | setSettings => exact h.congr ⟨rfl, rfl, rfl, rfl, rfl, rfl⟩
  | readStage | readStatus | getSettings => exact h

theorem exec_keeps_inv {i : Instr} {s t : State} (h : s.Inv) (he : exec i s = .next t) : t.Inv := by
  obtain ⟨v, ws, rfl, rfl | ⟨u, payload, ha⟩⟩ := exec_effect he
  · exact h.respond _ _
  · exact (ha.keeps_inv h).respond _ _

/-- Settles O16: a step waits, or runs a command in a state that differs in the words waiting and the turns, of which the
invariant does not speak. -/
theorem stepKeepsInvariant : Obligations.StepKeepsInvariant := by
  intro s t h hs
  rcases step_cases s with ⟨-, hw⟩ | ⟨p, i, rest, v, -, hc, hx⟩
  · cases hw.symm.trans hs
    exact h
  · refine exec_keeps_inv ?_ (hx.symm.trans hs)
    rcases hc with rfl | rfl <;> exact h.congr (by simp)

/-- Settles O19: reset meets the invariant, every step keeps it, and words sent and turns are none of its business. -/
theorem reachableStatesMeetInvariant : Obligations.ReachableStatesMeetInvariant := by
  intro s hs
  induction hs with
  | reset => exact State.reset_inv
  | step _ hstep ih => exact stepKeepsInvariant _ _ ih hstep
  | send p ws _ ih => exact ih.congr (by simp)
  | turns _ _ ih => exact ih.congr ⟨rfl, rfl, rfl, rfl, rfl, rfl⟩

end Sys2Proof.Machine
end

section
/-! The stage step's NaNs (R191, R308), and frames through the chains: bypass (R193, R194), order (R192, R196, R200) and what
the two channels have to do with each other (R195). -/

namespace Sys2Proof.Machine

open Sys2Proof.Laws

/-! ## NaNs in a stage step -/

/-- Settles O34: each of the three results is an addition's or a subtraction's, whose NaNs are quiet. -/
theorem stageNaNsAreQuiet : Obligations.StageNaNsAreQuiet := fun _ _ _ _ _ => ⟨quiet_add, quiet_add, quiet_add⟩

/-- Settles O35: a NaN in the input or in s1 reaches y, and y is an operand of both delay registers; s2 is one of s1's. -/
theorem naNsPersist : Obligations.NaNsPersist := by
  intro c s1 s2 x draw o
  have hs1_of_s2 : isNaN32 s2 = true → isNaN32 o.s1 = true := fun h => isNaN_add _ (.inr h)
  refine ⟨fun h => ?_, hs1_of_s2⟩
  have hy : isNaN32 o.y = true := by
    rcases h with h | h
    · exact isNaN_add _ (.inr h)
    · exact isNaN_add _ (.inl (isNaN_mul _ (.inr h)))
  exact ⟨hy, isNaN_add _ (.inl (isNaN_sub _ (.inr (isNaN_mul _ (.inr hy))))), isNaN_sub _ (.inr (isNaN_mul _ (.inr hy)))⟩

/-! ## Frames, one at a time -/

theorem passFrames_cons (cfg : Config) (f : Frame) (rest : List Frame) (l r : Chain) (k : Nat) :
    passFrames cfg (f :: rest) l r k =
      let a := l.pass cfg f.left k
      let b := r.pass cfg f.right a.fresh
      let o := passFrames cfg rest a.chain b.chain b.fresh
      { o with samples := a.y :: b.y :: o.samples } := rfl

/-- Frames through two bypassed chains come out as they went in (R193). -/
theorem passFrames_of_bypass (cfg : Config) (fs : List Frame) {l r : Chain}
    (h : ∀ i : Fin 4, (l.get i).bypass = true ∧ (r.get i).bypass = true) (k : Nat) :
    passFrames cfg fs l r k = { left := l, right := r, fresh := k, samples := frameWords fs } := by
  induction fs with
  | nil => rfl
  | cons f rest ih =>
    rw [passFrames_cons]
    simp only [Chain.pass_of_bypass cfg fun i => (h i).1, Chain.pass_of_bypass cfg fun i => (h i).2, ih]
    rfl

/-- Settles O36: by induction on the frames, as a bypassed chain hands each sample on. -/
theorem bypassIsIdentity : Obligations.BypassIsIdentity :=
  ⟨fun cfg fs _ _ k h => passFrames_of_bypass cfg fs h k, fun cfg _ x k h => Stage.pass_of_bypass cfg h x k⟩

/-- A bypassed slot of either chain is the same after the frames of a block (R194). -/
theorem passFrames_holds (cfg : Config) (fs : List Frame) (l r : Chain) (k : Nat) (i : Fin 4) :
    ((l.get i).bypass = true → (passFrames cfg fs l r k).left.get i = l.get i) ∧
    ((r.get i).bypass = true → (passFrames cfg fs l r k).right.get i = r.get i) := by
  induction fs generalizing l r k with
  | nil => exact ⟨fun _ => rfl, fun _ => rfl⟩
  | cons f rest ih =>
    rw [passFrames_cons]
    obtain ⟨hl, hr⟩ := ih (l.pass cfg f.left k).chain (r.pass cfg f.right (l.pass cfg f.left k).fresh).chain
      (r.pass cfg f.right (l.pass cfg f.left k).fresh).fresh
    refine ⟨fun hb => ?_, fun hb => ?_⟩
    · have hslot := Chain.pass_holds cfg l f.left k i hb
      exact (hl (hslot ▸ hb)).trans hslot
    · have hslot := Chain.pass_holds cfg r f.right (l.pass cfg f.left k).fresh i hb
      exact (hr (hslot ▸ hb)).trans hslot

/-- Settles O37: by induction on the frames, as a chain pass keeps every configuration and every bypassed slot. -/
theorem bypassedStagesHold : Obligations.BypassedStagesHold := by
  intro cfg fs l r k i o
  obtain ⟨hl, hr⟩ := passFrames_sameConfig cfg fs l r k
  exact ⟨hl i, hr i, passFrames_holds cfg fs l r k i⟩

/-! ## The order of frames and slots -/

/-- The later frames start from what the first ones left, and add their samples after theirs (R196, R200). -/
theorem passFrames_append (cfg : Config) (fs gs : List Frame) (l r : Chain) (k : Nat) :
    passFrames cfg (fs ++ gs) l r k =
      let o := passFrames cfg fs l r k
      let q := passFrames cfg gs o.left o.right o.fresh
      { q with samples := o.samples ++ q.samples } := by
  induction fs generalizing l r k with
  | nil => rfl
  | cons f rest ih =>
    simp only [List.cons_append, passFrames_cons, ih]

theorem passFrames_samples_length (cfg : Config) (fs : List Frame) (l r : Chain) (k : Nat) :
    (passFrames cfg fs l r k).samples.length = 2 * fs.length := by
  induction fs generalizing l r k with
  | nil => rfl
  | cons f rest ih =>
    rw [passFrames_cons]
    simp only [List.length_cons, ih]
    omega

/-- A stage pass written out by the bypass flag (R190, R192, R194). -/
theorem Stage.pass_by_flag (cfg : Config) (st : Stage) (x : Word) (n : Nat) :
    (if st.bypass then (x, st, n)
      else
        let o := cfg.stageFn st.coef st.s1 st.s2 x n
        (o.y, { coef := st.coef, bypass := false, s1 := o.s1, s2 := o.s2 }, n + 1)) =
    ((st.pass cfg x n).y, (st.pass cfg x n).stage, (st.pass cfg x n).fresh) := by
  by_cases hb : st.bypass = true
  · rw [if_pos hb, Stage.pass_of_bypass cfg hb]
  · rw [if_neg hb, Stage.pass_of_active cfg (Bool.eq_false_of_not_eq_true hb), Bool.eq_false_of_not_eq_true hb]

/-- Settles O38: the frames by induction; in one frame each slot is a stage pass of the sample the slot before put out. -/
theorem framesRunInOrder : Obligations.FramesRunInOrder := by
  refine ⟨fun cfg fs gs l r k => ⟨passFrames_append cfg fs gs l r k, passFrames_samples_length cfg fs l r k⟩, ?_⟩
  intro cfg f l r k slot
  have hslot : slot = fun st x n => ((st.pass cfg x n).y, (st.pass cfg x n).stage, (st.pass cfg x n).fresh) :=
    funext fun st => funext fun x => funext fun n => Stage.pass_by_flag cfg st x n
  clear_value slot
  subst hslot
  exact ⟨rfl, rfl, rfl, rfl, rfl, rfl, rfl, rfl, rfl, rfl⟩

/-! ## The two channels -/

/-- Settles O39: by induction on the frames; each sample passes its own channel's chain, and equal samples through chains
equal up to the bits of NaNs leave samples and chains equal up to them, whatever free values the other channel has used. -/
theorem channelsAreIndependent : Obligations.ChannelsAreIndependent := by
  intro fs
  induction fs with
  | nil =>
    intro gs l l' r r' k k' hlen
    obtain rfl := List.eq_nil_of_length_eq_zero hlen.symm
    exact ⟨[], [], rfl, rfl, fun _ _ => .nil, fun _ _ => .nil⟩
  | cons f fs ih =>
    intro gs l l' r r' k k' hlen
    obtain ⟨g, gs, rfl⟩ := List.exists_cons_of_length_eq_add_one hlen.symm
    let a := l.pass machineConfig f.left k
    let b := r.pass machineConfig f.right a.fresh
    let a' := l'.pass machineConfig g.left k'
    let b' := r'.pass machineConfig g.right a'.fresh
    obtain ⟨ys, zs, hys, hzs, hleft, hright⟩ :=
      ih gs a.chain a'.chain b.chain b'.chain b.fresh b'.fresh (Nat.succ.inj hlen)
    refine ⟨⟨a.y, b.y⟩ :: ys, ⟨a'.y, b'.y⟩ :: zs, ?_, ?_, fun hl he => ?_, fun hr he => ?_⟩
    · rw [passFrames_cons, frameWords, ← hys]
    · rw [passFrames_cons, frameWords, ← hzs]
    · obtain ⟨hhead, hrest⟩ := List.cons.inj he
      obtain ⟨hy, hchain⟩ := Chain.NaNEq.pass k k' hl (.inl hhead)
      exact .cons hy (hleft hchain hrest)
    · obtain ⟨hhead, hrest⟩ := List.cons.inj he
      obtain ⟨hy, hchain⟩ := Chain.NaNEq.pass a.fresh a'.fresh hr (.inl hhead)
      exact .cons hy (hright hchain hrest)

/-- Settles O40: by induction on the frames; equal samples through equal chains, but for the bits of NaNs, leave them so. -/
theorem equalChannelsAgree : Obligations.EqualChannelsAgree := by
  intro fs
  induction fs with
  | nil => exact fun _ _ _ _ _ => ⟨[], rfl, rfl, fun _ hy => absurd hy List.not_mem_nil⟩
  | cons f fs ih =>
    intro l r k hlr hfs
    obtain ⟨hf, hrest⟩ := List.forall_mem_cons.mp hfs
    let a := l.pass machineConfig f.left k
    let b := r.pass machineConfig f.right a.fresh
    obtain ⟨hy, hchain⟩ := Chain.NaNEq.pass k a.fresh hlr (.inl hf)
    obtain ⟨ys, hys, hlen, heq⟩ := ih a.chain b.chain b.fresh hchain hrest
    refine ⟨⟨a.y, b.y⟩ :: ys, ?_, congrArg Nat.succ hlen, List.forall_mem_cons.mpr ⟨hy, heq⟩⟩
    rw [passFrames_cons, frameWords, ← hys]

end Sys2Proof.Machine
end

section
/-! The rounding of the model is to nearest, ties to even (R13). -/

namespace Sys2Proof.Machine

/-- The largest finite value and the first one beyond it; half their sum is where rounding to infinity begins. -/
theorem scaledMagnitude_overflow :
    scaledMagnitude (infMagnitude - 1) + scaledMagnitude infMagnitude = (2 ^ 25 - 1) * 2 ^ 253 := by decide +kernel

section
variable {den : Nat}

theorem scaledMagnitude_mul_le {a b : Nat} (h : a ≤ b) : scaledMagnitude a * den ≤ scaledMagnitude b * den :=
  Nat.mul_le_mul_right den (scaledMagnitude_strictMono.monotone h)

theorem scaledMagnitude_mul_lt (hd : 0 < den) {a b : Nat} (h : a < b) : scaledMagnitude a * den < scaledMagnitude b * den :=
  Nat.mul_lt_mul_of_pos_right (scaledMagnitude_strictMono h) hd

/-- The rounding is infinity exactly from half a unit in the last place beyond the largest finite value on: that half way
point itself has the odd neighbour below. -/
theorem roundMagnitude_eq_inf_iff (num : Nat) (hd : 0 < den) :
    roundMagnitude num den = infMagnitude ↔ (2 ^ 25 - 1) * 2 ^ 253 * den ≤ 2 * num := by
  obtain ⟨M, hlo, hhi, hround⟩ := roundMagnitude_between num hd
  rw [hround, ← scaledMagnitude_overflow, Nat.add_mul, Nat.add_mul]
  have hodd : (infMagnitude - 1) % 2 = 1 := by decide
  have hstep := scaledMagnitude_mul_lt hd (Nat.sub_one_lt_of_lt (n := infMagnitude) (m := 0) (by decide))
  rcases Nat.lt_trichotomy M (infMagnitude - 1) with hM | rfl | hM
  · have hb : scaledMagnitude (M + 1) * den ≤ scaledMagnitude (infMagnitude - 1) * den := scaledMagnitude_mul_le hM
    refine iff_of_false ?_ (by omega)
    split <;> omega
  · rw [Nat.sub_add_cancel (by decide)] at hhi ⊢
    split <;> omega
  · have ha : scaledMagnitude infMagnitude * den ≤ scaledMagnitude M * den := scaledMagnitude_mul_le (by omega)
    exact iff_of_true (min_eq_left (by omega)) (by omega)

/-- A finite rounding is at least as near to `num / den` as any other magnitude, and it is even where another is as near. -/
theorem roundMagnitude_nearest (num : Nat) (hd : 0 < den) (hfin : roundMagnitude num den < infMagnitude) (m : Nat) :
    |(num : Int) - scaledMagnitude (roundMagnitude num den) * den| ≤ |(num : Int) - scaledMagnitude m * den| ∧
    (|(num : Int) - scaledMagnitude (roundMagnitude num den) * den| = |(num : Int) - scaledMagnitude m * den| →
      m ≠ roundMagnitude num den → roundMagnitude num den % 2 = 0) := by
  obtain ⟨M, hlo, hhi, hround⟩ := roundMagnitude_between num hd
  rw [Nat.add_mul] at hround
  have hbelow : m < M → scaledMagnitude m * den < scaledMagnitude M * den := scaledMagnitude_mul_lt hd
  have habove : M + 1 < m → scaledMagnitude (M + 1) * den < scaledMagnitude m * den := scaledMagnitude_mul_lt hd
  have hcases : m < M ∨ m = M ∨ m = M + 1 ∨ M + 1 < m := by omega
  simp only [← Nat.cast_mul, Int.abs_eq_natAbs]
  split at hround
  · have hR : roundMagnitude num den = M + 1 := by omega
    rw [hR]
    rcases hcases with h | rfl | rfl | h <;> omega
  · have hR : roundMagnitude num den = M := by omega
    rw [hR]
    rcases hcases with h | rfl | rfl | h <;> omega

end

/-- Settles O32: the rounding takes the nearer of the two magnitudes around num/den, and every other is farther. -/
theorem roundsToNearestEven : Obligations.RoundsToNearestEven :=
  fun num _ hd => ⟨roundMagnitude_eq_inf_iff num hd, fun hfin m _ => roundMagnitude_nearest num hd hfin m⟩

end Sys2Proof.Machine
end

section
/-! The binary32 operations against the reals (R13, R191): one rounding of the exact result, IEEE 754's signs of zero, and
what infinities and NaNs give. -/

namespace Sys2Proof.Laws

open Sys2Proof.Machine Sys2Proof.Spec

/-! ## Classes and signs of words -/

theorem isNaN_of_isFinite {w : Word} (h : isFinite32 w = true) : isNaN32 w = false := by
  rw [isFinite32, decide_eq_true_iff] at h
  exact decide_eq_false h.not_gt

theorem isInf_of_isFinite {w : Word} (h : isFinite32 w = true) : isInf32 w = false := by
  rw [isFinite32, decide_eq_true_iff] at h
  exact beq_eq_false_iff_ne.mpr h.ne

theorem isFinite_neg (w : Word) : isFinite32 (f32Neg w) = isFinite32 w := by
  rw [isFinite32, magnitude_neg, isFinite32]

theorem isInf_neg (w : Word) : isInf32 (f32Neg w) = isInf32 w := by
  rw [isInf32, magnitude_neg, isInf32]

theorem signBit_neg (w : Word) : signBit (f32Neg w) = !signBit w := by
  rw [signBit, f32Neg, BitVec.getLsbD_xor, signBit]
  exact Bool.xor_true _

theorem scaled_neg (w : Word) : scaled (f32Neg w) = -scaled w := by
  rw [scaled, scaled, magnitude_neg, signBit_neg]
  cases signBit w <;> simp

/-- A word with its sign bit set when `neg` says so: the two zeros and the two infinities. -/
theorem ofSignMagnitude_zero (neg : Bool) : ofSignMagnitude neg 0 = if neg then 0 ||| 0x80000000 else 0 := by
  cases neg <;> decide

theorem ofSignMagnitude_inf (neg : Bool) :
    ofSignMagnitude neg infMagnitude = if neg then 0x7F800000 ||| 0x80000000 else 0x7F800000 := by
  cases neg <;> decide

theorem scaledMagnitude_eq_zero {m : Nat} : scaledMagnitude m = 0 ↔ m = 0 := by
  have hzero : scaledMagnitude 0 = 0 := by decide
  rw [← hzero]
  exact scaledMagnitude_strictMono.injective.eq_iff

theorem natAbs_scaled (w : Word) : (scaled w).natAbs = scaledMagnitude (magnitude w) := by
  unfold scaled
  split
  · rw [Int.natAbs_neg, Int.natAbs_natCast]
  · rw [Int.natAbs_natCast]

theorem scaled_neg_iff {w : Word} (h : scaled w ≠ 0) : scaled w < 0 ↔ signBit w = true := by
  unfold scaled at h ⊢
  cases signBit w <;> simp at h ⊢
  omega

theorem realOf_neg (w : Word) : realOf (f32Neg w) = -realOf w := by
  rw [realOf, scaled_neg, Int.cast_neg, neg_div, realOf]

theorem realOf_eq_zero {w : Word} : realOf w = 0 ↔ scaled w = 0 := by
  rw [realOf, div_eq_zero_iff, or_iff_left (by positivity), Int.cast_eq_zero]

/-! ## Finite operands -/

section
variable (nan : BitVec 23) {a b : Word}

/-- The sum of finite words is the exact sum rounded once, and a zero sum is -0.0 only of two negative zeros (R13). -/
theorem f32Add_finite (ha : isFinite32 a = true) (hb : isFinite32 b = true) :
    f32Add nan a b =
      if realOf a + realOf b = 0 then (if signBit a && signBit b then 0 ||| 0x80000000 else 0)
      else round32 (realOf a + realOf b) := by
  have hsum : realOf a + realOf b = ((scaled a + scaled b : Int) : ℝ) / 2 ^ 149 := by
    rw [realOf, realOf, Int.cast_add, add_div]
  have hzero : realOf a + realOf b = 0 ↔ scaled a + scaled b = 0 := by
    rw [hsum, div_eq_zero_iff, or_iff_left (by positivity), Int.cast_eq_zero]
  unfold f32Add
  simp only [isNaN_of_isFinite ha, isNaN_of_isFinite hb, isInf_of_isFinite ha, isInf_of_isFinite hb, Bool.or_self,
    Bool.false_eq_true, if_false, hzero]
  split
  · exact ofSignMagnitude_zero _
  · refine ofSignMagnitude_round one_pos ?_ ?_
    · rw [decide_eq_true_iff, hsum, div_lt_iff₀ (by positivity), zero_mul, Int.cast_lt_zero]
    · rw [hsum, abs_div, abs_of_pos (by positivity : (0 : ℝ) < 2 ^ 149), div_mul_cancel₀ _ (by positivity), Nat.cast_one,
        div_one, Nat.cast_natAbs, Int.cast_abs]

/-- The difference of finite words is the exact difference rounded once. -/
theorem f32Sub_finite (ha : isFinite32 a = true) (hb : isFinite32 b = true) :
    f32Sub nan a b =
      if realOf a - realOf b = 0 then (if signBit a && !signBit b then 0 ||| 0x80000000 else 0)
      else round32 (realOf a - realOf b) := by
  rw [f32Sub, f32Add_finite nan ha ((isFinite_neg b).trans hb), signBit_neg, realOf_neg, sub_eq_add_neg]

/-- The product of finite words is the exact product rounded once, and a zero product has the sign of the signs. -/
theorem f32Mul_finite (ha : isFinite32 a = true) (hb : isFinite32 b = true) :
    f32Mul nan a b =
      if realOf a * realOf b = 0 then (if signBit a != signBit b then 0 ||| 0x80000000 else 0)
      else round32 (realOf a * realOf b) := by
  have hprod : realOf a * realOf b = ((scaled a * scaled b : Int) : ℝ) / (2 ^ 149 * 2 ^ 149) := by
    rw [realOf, realOf, Int.cast_mul, div_mul_div_comm]
  have hzero : realOf a * realOf b = 0 ↔ scaled a * scaled b = 0 := by
    rw [hprod, div_eq_zero_iff, or_iff_left (by positivity), Int.cast_eq_zero]
  have habs : scaledMagnitude (magnitude a) * scaledMagnitude (magnitude b) = (scaled a * scaled b).natAbs := by
    rw [Int.natAbs_mul, natAbs_scaled, natAbs_scaled]
  unfold f32Mul
  simp only [isNaN_of_isFinite ha, isNaN_of_isFinite hb, isInf_of_isFinite ha, isInf_of_isFinite hb, Bool.or_self,
    Bool.false_eq_true, if_false, hzero, habs]
  split
  next h0 =>
    rw [h0, ← ofSignMagnitude_zero]
    rfl
  next h0 =>
    obtain ⟨ha0, hb0⟩ := mul_ne_zero_iff.mp h0
    refine ofSignMagnitude_round (by positivity) ?_ ?_
    · rw [hprod, div_lt_iff₀ (by positivity), zero_mul, Int.cast_lt_zero, mul_neg_iff]
      have hsa := scaled_neg_iff ha0
      have hsb := scaled_neg_iff hb0
      have hpa : 0 < scaled a ↔ ¬ signBit a = true := by rw [← hsa]; omega
      have hpb : 0 < scaled b ↔ ¬ signBit b = true := by rw [← hsb]; omega
      simp only [hsa, hsb, hpa, hpb]
      cases signBit a <;> cases signBit b <;> decide
    · rw [hprod, abs_div, abs_of_pos (by positivity : (0 : ℝ) < 2 ^ 149 * 2 ^ 149), Nat.cast_natAbs, Int.cast_abs, Nat.cast_pow,
        Nat.cast_ofNat, div_mul_eq_mul_div, div_eq_div_iff (by positivity) (by positivity), mul_assoc]

/-! ## Infinities -/

/-- An infinity outlasts a finite summand. -/
theorem f32Add_inf_finite (ha : isInf32 a = true) (hb : isFinite32 b = true) :
    f32Add nan a b = a ∧ f32Add nan b a = a := by
  unfold f32Add
  simp only [isNaN_of_isFinite hb, isNaN_of_isInf ha, ha, isInf_of_isFinite hb, Bool.or_self, Bool.false_and,
    Bool.false_eq_true, if_false, if_true, and_self]

/-- Infinities of one sign add, and of unlike signs give the free NaN. -/
theorem f32Add_inf_inf (ha : isInf32 a = true) (hb : isInf32 b = true) :
    f32Add nan a b = if signBit a = signBit b then a else quietNaN nan := by
  unfold f32Add
  simp only [isNaN_of_isInf ha, isNaN_of_isInf hb, ha, hb, Bool.or_self, Bool.true_and, Bool.false_eq_true, if_false,
    if_true, bne_iff_ne]
  exact ite_not ..

theorem magnitude_of_isInf {w : Word} (h : isInf32 w = true) : magnitude w = infMagnitude := eq_of_beq h

/-- A multiplication does not depend on the order of its operands. -/
theorem f32Mul_comm (a b : Word) : f32Mul nan a b = f32Mul nan b a := by
  unfold f32Mul
  simp only [Bool.or_comm (isNaN32 a), Bool.or_comm (isInf32 a), or_comm (a := magnitude a = 0),
    Nat.mul_comm (scaledMagnitude (magnitude a)), bne_comm (a := signBit a)]

/-- An infinity times a zero is the free NaN, and times any other number an infinity of the sign of the signs. -/
theorem f32Mul_inf (ha : isInf32 a = true) (hb : isNaN32 b = false) :
    f32Mul nan a b = if magnitude b = 0 then quietNaN nan
      else if signBit a != signBit b then 0x7F800000 ||| 0x80000000 else 0x7F800000 := by
  have hne : infMagnitude ≠ 0 := by decide
  unfold f32Mul
  simp only [isNaN_of_isInf ha, hb, ha, magnitude_of_isInf ha, hne, false_or, Bool.or_self, Bool.true_or,
    Bool.false_eq_true, if_false, if_true, ofSignMagnitude_inf]

end

theorem realOf_eq_zero_iff (w : Word) : realOf w = 0 ↔ magnitude w = 0 := by
  rw [realOf_eq_zero, ← Int.natAbs_eq_zero, natAbs_scaled, scaledMagnitude_eq_zero]

/-! ## NaN operands -/

theorem f32Add_nan (nan : BitVec 23) {a b : Word} (h : isNaN32 a = true ∨ isNaN32 b = true) :
    f32Add nan a b = quietNaN nan := by
  unfold f32Add
  rw [if_pos ((Bool.or_eq_true _ _).mpr h)]

theorem f32Mul_nan (nan : BitVec 23) {a b : Word} (h : isNaN32 a = true ∨ isNaN32 b = true) :
    f32Mul nan a b = quietNaN nan := by
  unfold f32Mul
  exact if_pos ((Bool.or_eq_true _ _).mpr h)

/-- Settles O17: each operation on finite operands by its one rounding, and on infinities and NaNs by its cases; a subtraction
is the addition of the negated operand. -/
theorem arithmeticRoundsOnce : Obligations.ArithmeticRoundsOnce := by
  intro nan a b x y signed
  refine ⟨fun ha hb => ⟨f32Add_finite nan ha hb, f32Sub_finite nan ha hb, f32Mul_finite nan ha hb⟩, fun ha hb => ?_,
    fun ha hb => ?_, fun h => ?_⟩
  · obtain ⟨hab, hba⟩ := f32Add_inf_finite nan ha hb
    obtain ⟨hsub, -⟩ := f32Add_inf_finite nan ha ((isFinite_neg b).trans hb)
    obtain ⟨-, hsub'⟩ := f32Add_inf_finite nan ((isInf_neg a).trans ha) hb
    refine ⟨hab, hba, hsub, hsub', f32Mul_comm nan a b, ?_⟩
    rw [f32Mul_inf nan ha (isNaN_of_isFinite hb)]
    exact if_congr (realOf_eq_zero_iff b).symm rfl rfl
  · refine ⟨f32Add_inf_inf nan ha hb, ?_, ?_⟩
    · rw [f32Sub, f32Add_inf_inf nan ha ((isInf_neg b).trans hb), signBit_neg]
      cases signBit a <;> cases signBit b <;> rfl
    · rw [f32Mul_inf nan ha (isNaN_of_isInf hb), magnitude_of_isInf hb]
      rfl
  · refine ⟨f32Add_nan nan h, f32Add_nan nan ?_, f32Mul_nan nan h⟩
    rwa [isNaN_neg]

end Sys2Proof.Laws
end

section
/-! The spec's stage steps (95_test_vectors.md sections 3.3 and 4). The kernel evaluates a step at one free value; a step whose
results are no NaNs has the same at every other. -/

namespace Sys2Proof.Machine

open Sys2Proof.Laws

theorem isNaN_of_addInvalid (nan : BitVec 23) {a b : Word} (h : addInvalid a b = true) :
    isNaN32 (f32Add nan a b) = true := by
  rcases f32Add_cases nan a b with ⟨-, e⟩ | ⟨e, -, -⟩
  · rw [e]
    exact isNaN_quietNaN nan
  · rw [h] at e
    cases e

theorem isNaN_of_mulInvalid (nan : BitVec 23) {a b : Word} (h : mulInvalid a b = true) :
    isNaN32 (f32Mul nan a b) = true := by
  rcases f32Mul_cases nan a b with ⟨-, e⟩ | ⟨e, -, -⟩
  · rw [e]
    exact isNaN_quietNaN nan
  · rw [h] at e
    cases e

/-- A product that is no NaN at one free value is the same at every other. -/
theorem f32Mul_of_zero {a b w : Word} (h : f32Mul 0 a b = w) (hw : isNaN32 w = false) (nan : BitVec 23) :
    f32Mul nan a b = w :=
  h ▸ NaNEq.eq ((NaNEq.refl a).mul nan 0 (NaNEq.refl b)) (h ▸ hw)

theorem f32Add_of_zero {a b w : Word} (h : f32Add 0 a b = w) (hw : isNaN32 w = false) (nan : BitVec 23) :
    f32Add nan a b = w :=
  h ▸ NaNEq.eq ((NaNEq.refl a).add nan 0 (NaNEq.refl b)) (h ▸ hw)

/-- The default HighPass section at 48 kHz (95_test_vectors.md section 3.3). -/
def firstOrderSection : Coefs := ⟨0x3F7040C4, 0xBF7040C4, 0, 0x3F800000, 0xBF608188, 0⟩

/-- The second-order section of program P2. -/
def secondOrderSection : Coefs := ⟨0x3B8052DA, 0x3C0052DA, 0x3B8052DA, 0x3F800000, 0xBFE85D19, 0x3F54BCC8⟩

/-- An infinite input: y is that infinity, s1 is ∞ - ∞ and s2 is 0·∞. -/
theorem firstOrderSection_inf (draw : Nat) :
    (referenceStage firstOrderSection 0 0 0x7F800000 draw).y = 0x7F800000 ∧
    isNaN32 (referenceStage firstOrderSection 0 0 0x7F800000 draw).s1 = true ∧
    isNaN32 (referenceStage firstOrderSection 0 0 0x7F800000 draw).s2 = true := by
  have hb0 := f32Mul_of_zero (a := 0x3F7040C4) (b := 0x7F800000) (w := 0x7F800000) (by decide +kernel) (by decide)
  have hb1 := f32Mul_of_zero (a := 0xBF7040C4) (b := 0x7F800000) (w := 0xFF800000) (by decide +kernel) (by decide)
  have ha1 := f32Mul_of_zero (a := 0xBF608188) (b := 0x7F800000) (w := 0xFF800000) (by decide +kernel) (by decide)
  have hy (m n : BitVec 23) : f32Add n (f32Mul m 0x3F7040C4 0x7F800000) 0 = 0x7F800000 := by
    rw [hb0]
    exact f32Add_of_zero (by decide +kernel) (by decide) n
  refine ⟨hy (Config.freeNaN draw 0) (Config.freeNaN draw 1), isNaN_add _ (.inl ?_), isNaN_sub _ (.inl (isNaN_of_mulInvalid _ (by decide)))⟩
  show isNaN32 (f32Sub _ (f32Mul _ 0xBF7040C4 _) (f32Mul _ 0xBF608188 (f32Add _ (f32Mul _ 0x3F7040C4 _) 0))) = true
  rw [hy, hb1, ha1]
  exact isNaN_of_addInvalid _ (by decide)

/-- A NaN input: all three results are quiet NaNs (R191). -/
theorem firstOrderSection_nan {x : Word} (hx : isNaN32 x = true) (draw : Nat) :
    let o := referenceStage firstOrderSection 0 0 x draw
    (isNaN32 o.y = true ∧ o.y.getLsbD 22 = true) ∧ (isNaN32 o.s1 = true ∧ o.s1.getLsbD 22 = true) ∧
    (isNaN32 o.s2 = true ∧ o.s2.getLsbD 22 = true) := by
  intro o
  obtain ⟨hy, h1, h2⟩ := (naNsPersist firstOrderSection 0 0 x draw).1 (.inr hx)
  obtain ⟨qy, q1, q2⟩ := stageNaNsAreQuiet firstOrderSection 0 0 x draw
  exact ⟨⟨hy, qy hy⟩, ⟨h1, q1 h1⟩, ⟨h2, q2 h2⟩⟩

/-- The four steps of the second-order section at an impulse, whatever the free values. -/
theorem secondOrderSection_impulse :
    (∀ d, referenceStage secondOrderSection 0 0 0x3F800000 d = ⟨0x3B8052DA, 0x3C74CC9A, 0x3A2D7CE4⟩) ∧
    (∀ d, referenceStage secondOrderSection 0x3C74CC9A 0x3A2D7CE4 0 d = ⟨0x3C74CC9A, 0x3CE39E59, 0xBC4B6DF5⟩) ∧
    (∀ d, referenceStage secondOrderSection 0x3CE39E59 0xBC4B6DF5 0 d = ⟨0x3CE39E59, 0x3D1BBECA, 0xBCBD26FC⟩) ∧
    (∀ d, referenceStage secondOrderSection 0x3D1BBECA 0xBCBD26FC 0 d = ⟨0x3D1BBECA, 0x3D3C2798, 0xBD016CD9⟩) := by
  refine ⟨?_, ?_, ?_, ?_⟩ <;> exact referenceStage_draw (j := 0) (by decide +kernel) (by decide)

/-- The three steps after the first at a step. -/
theorem secondOrderSection_step :
    (∀ d, referenceStage secondOrderSection 0x3C74CC9A 0x3A2D7CE4 0x3F800000 d =
      ⟨0x3C9A7B04, 0x3D2F0254, 0xBC409627⟩) ∧
    (∀ d, referenceStage secondOrderSection 0x3D2F0254 0xBC409627 0x3F800000 d =
      ⟨0x3D3F0CAF, 0x3DA5608F, 0xBD0EB908⟩) ∧
    (∀ d, referenceStage secondOrderSection 0x3DA5608F 0xBD0EB908 0x3F800000 d =
      ⟨0x3DAD65BD, 0x3E01BA2E, 0xBD8812F1⟩) := by
  refine ⟨?_, ?_, ?_⟩ <;> exact referenceStage_draw (j := 0) (by decide +kernel) (by decide)

/-- Settles O33: the rows without NaNs by one evaluation each, those with NaNs by the laws of NaNs, and the two responses step
by step. -/
theorem stageStepExamples : Obligations.StageStepExamples := by
  unfold Obligations.StageStepExamples
  intro quiet first second
  refine ⟨fun draw => ?_, fun d0 d1 d2 d3 => ?_⟩
  · obtain ⟨hy, h1, h2⟩ := firstOrderSection_inf draw
    obtain ⟨-, q1, q2⟩ := stageNaNsAreQuiet firstOrderSection 0 0 0x7F800000 draw
    refine ⟨?_, ?_, ?_, hy, ⟨h1, q1 h1⟩, ⟨h2, q2 h2⟩, ?_⟩
    · exact referenceStage_draw (j := 0) (by decide +kernel) (by decide) draw
    · exact referenceStage_draw (j := 0) (by decide +kernel) (by decide) draw
    · exact referenceStage_draw (j := 0) (by decide +kernel) (by decide) draw
    · obtain ⟨ny, n1, n2⟩ := firstOrderSection_nan (x := 0x7FC00000) (by decide) draw
      obtain ⟨sy, s1, s2⟩ := firstOrderSection_nan (x := 0x7F800001) (by decide) draw
      exact ⟨ny, n1, n2, sy, s1, s2⟩
  · obtain ⟨h0, h1, h2, h3⟩ := secondOrderSection_impulse
    obtain ⟨g1, g2, g3⟩ := secondOrderSection_step
    have hsecond : second = secondOrderSection := rfl
    simp only [hsecond, h0, h1, h2, h3, g1, g2, g3, and_self]

end Sys2Proof.Machine
end

section
/-! The designs of the spec's examples (R133, 95_test_vectors.md sections 2.1 and 2.3). -/

namespace Sys2Proof.Machine

/-- Settles O31, by running the designer on each example. -/
theorem designExamples : Obligations.DesignExamples := by
  unfold Obligations.DesignExamples
  and_intros <;> decide +kernel

end Sys2Proof.Machine
end

section
/-! Before rounding every section of a design is strictly stable, small, and of unit gain at the end of the band it passes (R132,
R133, R134). All of it follows from k > 0 and Q > 0. -/

namespace Sys2Proof.Laws

open Sys2Proof.Machine Sys2Proof.Spec

/-- Strict stability, the bounds of R132, and the gains at z = 1 and z = -1 of R134. -/
def SoundSection (ty : FilterType) (r : RealSection) : Prop :=
  |r.a2| < 1 ∧ |r.a1| < 1 + r.a2 ∧ |r.a1| < 2 ∧ 0 < r.b0 ∧ r.b0 ≤ 1 ∧ |r.b1| ≤ 2 ∧ 0 ≤ r.b2 ∧ r.b2 ≤ 1 ∧
  (match ty with
    | .lowPass => r.b0 + r.b1 + r.b2 = r.a0 + r.a1 + r.a2 ∧ r.b0 - r.b1 + r.b2 = 0
    | .highPass => r.b0 - r.b1 + r.b2 = r.a0 - r.a1 + r.a2 ∧ r.b0 + r.b1 + r.b2 = 0)

section
variable {k : ℝ}

theorem abs_div_lt_iff {x D c : ℝ} (hD : 0 < D) : |x / D| < c ↔ |x| < c * D := by
  rw [abs_div, abs_of_pos hD, div_lt_iff₀ hD]

/-- The denominator D exceeds both 1 and k², by k/Q at least, which bounds the quotients of SOS2 (R124). -/
theorem soundSection_sos2 (ty : FilterType) (hk : 0 < k) {Q : ℝ} (hQ : 0 < Q) : SoundSection ty (Spec.sos2 ty k Q) := by
  have hm : 0 < k / Q := div_pos hk hQ
  have hk2 : 0 < k ^ 2 := by positivity
  have hD : 0 < 1 + k / Q + k ^ 2 := by positivity
  have ha2 : |(1 - k / Q + k ^ 2) / (1 + k / Q + k ^ 2)| < 1 := by
    rw [abs_div_lt_iff hD, abs_lt]
    constructor <;> linarith
  have ha1 : |2 * (k ^ 2 - 1) / (1 + k / Q + k ^ 2)| < 1 + (1 - k / Q + k ^ 2) / (1 + k / Q + k ^ 2) := by
    rw [abs_div_lt_iff hD, add_mul, div_mul_cancel₀ _ hD.ne', abs_lt]
    constructor <;> linarith
  have ha1' : |2 * (k ^ 2 - 1) / (1 + k / Q + k ^ 2)| < 2 := ha1.trans (by linarith [(abs_lt.mp ha2).2])
  cases ty with
  | lowPass =>
    have hb0 : 0 < k ^ 2 / (1 + k / Q + k ^ 2) := div_pos hk2 hD
    have hb0' : k ^ 2 / (1 + k / Q + k ^ 2) ≤ 1 := (div_le_one hD).mpr (by linarith)
    have hb1 : |2 * k ^ 2 / (1 + k / Q + k ^ 2)| ≤ 2 := by
      rw [mul_div_assoc, abs_of_pos (by positivity)]
      linarith
    refine ⟨ha2, ha1, ha1', hb0, hb0', hb1, hb0.le, hb0', ?_, ?_⟩ <;> simp only [Spec.sos2] <;> field_simp <;> ring
  | highPass =>
    have hb0 : 0 < 1 / (1 + k / Q + k ^ 2) := div_pos one_pos hD
    have hb0' : 1 / (1 + k / Q + k ^ 2) ≤ 1 := (div_le_one hD).mpr (by linarith)
    have hb1 : |-2 / (1 + k / Q + k ^ 2)| ≤ 2 := by
      rw [neg_div, abs_neg, abs_of_pos (by positivity), div_le_iff₀ hD]
      linarith
    refine ⟨ha2, ha1, ha1', hb0, hb0', hb1, hb0.le, hb0', ?_, ?_⟩ <;> simp only [Spec.sos2] <;> field_simp <;> ring

/-- The same of SOS1, whose a2 and b2 are 0 (R125). -/
theorem soundSection_sos1 (ty : FilterType) (hk : 0 < k) : SoundSection ty (Spec.sos1 ty k) := by
  have hD : 0 < 1 + k := by positivity
  have ha2 : |(0 : ℝ)| < 1 := by norm_num
  have ha1 : |(k - 1) / (1 + k)| < 1 := by
    rw [abs_div_lt_iff hD, abs_lt]
    constructor <;> linarith
  cases ty with
  | lowPass =>
    have hb0 : 0 < k / (1 + k) := div_pos hk hD
    have hb0' : k / (1 + k) ≤ 1 := (div_le_one hD).mpr (by linarith)
    have hb1 : |k / (1 + k)| ≤ 2 := by
      rw [abs_of_pos hb0]
      linarith
    refine ⟨ha2, ha1.trans_eq (add_zero 1).symm, ha1.trans one_lt_two, hb0, hb0', hb1, le_rfl, zero_le_one, ?_, ?_⟩ <;>
      simp only [Spec.sos1] <;> field_simp <;> ring
  | highPass =>
    have hb0 : 0 < 1 / (1 + k) := div_pos one_pos hD
    have hb0' : 1 / (1 + k) ≤ 1 := (div_le_one hD).mpr (by linarith)
    have hb1 : |-1 / (1 + k)| ≤ 2 := by
      rw [neg_div, abs_neg, abs_of_pos hb0]
      linarith
    refine ⟨ha2, ha1.trans_eq (add_zero 1).symm, ha1.trans one_lt_two, hb0, hb0', hb1, le_rfl, zero_le_one, ?_, ?_⟩ <;>
      simp only [Spec.sos1] <;> field_simp <;> ring

/-! ## Designs -/

theorem qFactor_pos {n i : Nat} (hi : i < n / 2) : 0 < qFactor n i := by
  obtain ⟨_, _, -, -, hpos, -, hq⟩ := approx_halfInvQ hi
  rw [hq]
  positivity

theorem soundSection_butterworth {ty : FilterType} (hk : 0 < k) {n : Nat} {r : RealSection}
    (hr : r ∈ Spec.butterworth ty k n) : SoundSection ty r := by
  have hpair (h : r ∈ (qFactors n).map (Spec.sos2 ty k)) : SoundSection ty r := by
    obtain ⟨Q, hQ, rfl⟩ := List.mem_map.mp h
    obtain ⟨i, hi, rfl⟩ := List.mem_map.mp hQ
    exact soundSection_sos2 ty hk (qFactor_pos (List.mem_range.mp hi))
  unfold Spec.butterworth at hr
  split at hr
  · exact hpair hr
  · rcases List.mem_cons.mp hr with rfl | h
    · exact soundSection_sos1 ty hk
    · exact hpair h

theorem soundSection_linkwitzRiley {ty : FilterType} (hk : 0 < k) {n : Nat} {r : RealSection}
    (hr : r ∈ Spec.linkwitzRiley ty k n) : SoundSection ty r := by
  unfold Spec.linkwitzRiley at hr
  simp only at hr
  generalize (if n % 2 = 0 then n else n + 1) / 2 = m at hr
  split at hr
  · rcases List.mem_append.mp hr with h | h <;> exact soundSection_butterworth hk h
  · rw [List.mem_append, List.mem_append, List.mem_singleton] at hr
    rcases hr with (rfl | h) | h
    · exact soundSection_sos2 ty hk (by norm_num)
    · exact soundSection_butterworth hk (List.mem_of_mem_tail h)
    · exact soundSection_butterworth hk (List.mem_of_mem_tail h)

end

/-- Settles O29: for a valid cutoff the angle lies in the first quadrant, so k is positive, and the sections of either family
are SOS1 and SOS2 of k and a positive Q. -/
theorem exactDesignIsStable : Obligations.ExactDesignIsStable := by
  intro fam ty c f order hv r hr
  obtain ⟨h0, h1, -⟩ := approx_warpOf hv
  have hk : 0 < prewarp c f := Real.tan_pos_of_pos_of_lt_pi_div_two h0 h1
  cases fam with
  | butterworth => exact soundSection_butterworth hk hr
  | linkwitzRiley => exact soundSection_linkwitzRiley hk hr

end Sys2Proof.Laws
end
